-- ==== Sys2Proof/Word.lean ====
section
/-!
DEFINITION. The words of the machine: the byte, the request word, the two pin levels, and the value a shadow register
holds when no rule says anything about it.
-/

namespace Sys2Proof

/-- A byte, bits 7 down to 0 (00_scope R6). -/
abbrev Byte := BitVec 8

/-- A host request word, bits 15 down to 0 (30_encoding R97). -/
abbrev ReqWord := BitVec 16

/-- The level of a pin (00_scope R7: 0 or 1). -/
inductive Level where
  /-- 0, low -/
  | low
  /-- 1, high -/
  | high
deriving DecidableEq, Repr

/-- What a shadow register holds: a value of its type, or the extra value "unknown" (10_state R31), about which no rule
says anything. Nothing can be read out of `unknown`, so a claim about it holds whatever the controller really holds. -/
inductive Shadow (α : Type) where
  /-- "unknown": treatment any value (00_scope R13, R14) -/
  | unknown
  /-- the value the command protocol determines -/
  | known (a : α)
deriving DecidableEq, Repr

end Sys2Proof
end

