-- ==== Sys2Proof/Config.lean ====
section
/-!
DEFINITION. The parameters of 00_scope R5 in one configuration record, the opcode values among them (R11, 93 U25: "held in
one configuration record so that a correction touches one place"), and the free values the source leaves open. A
constant without a body is a free value: no proof can see what it is.
-/

namespace Sys2Proof

/-- The transport's answer to one `BusOpen` or one `Transmit` (00_scope R10). -/
inductive Answer where
  | ok
  | fail
deriving DecidableEq, Repr, Inhabited

namespace Config

/-- The values of the 24 command bytes, or their bases (30_encoding R95). -/
structure Opcodes where
  colLo : Byte
  colHi : Byte
  ratio : Byte
  pwr1 : Byte
  pwr2 : Byte
  pwr3 : Byte
  startLine : Byte
  evSet : Byte
  scanNormal : Byte
  scanReverse : Byte
  bias19 : Byte
  bias17 : Byte
  allptsNormal : Byte
  allptsOn : Byte
  dispNormal : Byte
  dispReverse : Byte
  sleep : Byte
  wake : Byte
  dispOff : Byte
  dispOn : Byte
  page : Byte
  comNormal : Byte
  comReverse : Byte
  intReset : Byte
deriving DecidableEq, Repr

/-- The parameters R5 gives a value, in its order. -/
structure Params where
  /-- `N_PAGES` -/
  nPages : Nat
  /-- `N_COLS` -/
  nCols : Nat
  /-- `PAGE_BITS`: pixels per byte -/
  pageBits : Nat
  /-- `FB_SIZE` -/
  fbSize : Nat
  /-- `X_PIXELS` -/
  xPixels : Nat
  /-- `Y_PIXELS` -/
  yPixels : Nat
  /-- `ARG_WIDTH`: the width of a numeric operand of a host operation -/
  argWidth : Nat
  /-- `PAGE_FIELD_WIDTH`: the width of the page field of PageAddress -/
  pageFieldWidth : Nat
  /-- `PAGE_MAX`: the largest page SET_PAGE_ADDRESS accepts -/
  pageMax : Byte
  /-- `COL_MAX`: the largest column SET_COLUMN_ADDRESS accepts -/
  colMax : Byte
  /-- `RATIO_MAX` -/
  ratioMax : Byte
  /-- `VOLUME_MAX` -/
  volumeMax : Byte
  /-- `DEFAULT_RATIO` (40 R125) -/
  defaultRatio : Byte
  /-- `DEFAULT_VOLUME` (40 R125) -/
  defaultVolume : Byte
  /-- `DEFAULT_START_LINE` (40 R126) -/
  defaultStartLine : Byte
  /-- `T_SETTLE` in microseconds: at least so long (70 R255) -/
  tSettleUs : Nat
  /-- `F_SCK` in hertz (40 R122) -/
  sckHz : Nat
  /-- `SPI_MODE`: 3 is clock idle high, data sampled on the trailing edge -/
  spiMode : Nat
  /-- `BIT_ORDER`: the most significant bit of a byte goes first -/
  msbFirst : Bool
  /-- `WORD_BITS` -/
  wordBits : Nat
  /-- `DATA_LINES` -/
  dataLines : Nat
  /-- `DC_COMMAND` -/
  dcCommand : Level
  /-- `DC_DATA` -/
  dcData : Level
  /-- `RST_ACTIVE` -/
  rstActive : Level
  /-- `RST_INACTIVE` -/
  rstInactive : Level
  /-- the opcode values (30_encoding R95) -/
  opcode : Opcodes
deriving DecidableEq, Repr

/-- The values of the source (00_scope R5, 30_encoding R95), unaudited (R11, log 28). -/
abbrev params : Params where
  nPages := 6
  nCols := 128
  pageBits := 8
  fbSize := 768
  xPixels := 128
  yPixels := 48
  argWidth := 8
  pageFieldWidth := 4
  pageMax := 15
  colMax := 255
  ratioMax := 7
  volumeMax := 63
  defaultRatio := 3
  defaultVolume := 0x1C
  defaultStartLine := 0
  tSettleUs := 2000
  sckHz := 5000000
  spiMode := 3
  msbFirst := true
  wordBits := 8
  dataLines := 1
  dcCommand := .low
  dcData := .high
  rstActive := .low
  rstInactive := .high
  opcode :=
    { colLo := 0x00, colHi := 0x10, ratio := 0x20, pwr1 := 0x2C, pwr2 := 0x2E, pwr3 := 0x2F, startLine := 0x40
      evSet := 0x81, scanNormal := 0xA0, scanReverse := 0xA1, bias19 := 0xA2, bias17 := 0xA3, allptsNormal := 0xA4
      allptsOn := 0xA5, dispNormal := 0xA6, dispReverse := 0xA7, sleep := 0xAB, wake := 0xAC, dispOff := 0xAE
      dispOn := 0xAF, page := 0xB0, comNormal := 0xC0, comReverse := 0xC8, intReset := 0xE2 }

/-! ## The open parameters of R5

The pins and the bus peripheral are the configuration each sequencer holds in its state (`Machine.Binding`). -/

/-- `T_RST_LOW` in microseconds: a duration of at least 0 with no value in the source (R5, 92 D10). A free value. -/
opaque tRstLowUs : Nat

/-- `FB_INIT` (R5, 92 D9): the framebuffer byte at a linear address after CONSTRUCT, for each instance in turn. "any 768
bytes": a free value. -/
opaque fbInit : (instanceNo : Nat) → (address : Nat) → Byte

/-- `XFER_ANSWERS` (R5, R10): the answer at a position of the stream, where the state does not write it down. Under no
law: a free value. -/
opaque xferAnswers : (position : Nat) → Answer

end Config

end Sys2Proof
end

