-- ==== Sys2Proof/Syntax.lean ====
section
/-!
DEFINITION. The instruction set: one constructor of `Instr` for each row of spec/opcode_table.json, in the table's
order, and the words that carry an instruction.
-/

namespace Sys2Proof

/-- The operand of SET_DISPLAY_MODE (42 R160): 1 = On, 0 = Off (92 D3). -/
inductive DisplayMode where
  | off
  | on
deriving DecidableEq, Repr

/-- The operand of SET_DISPLAY_COLOR (42 R161): 0 = Normal, 1 = Inverted (92 D3). -/
inductive DisplayColor where
  | normal
  | inverted
deriving DecidableEq, Repr

/-- The operand of SET_SLEEP_MODE (42 R164): 1 = Enabled, 0 = Disabled (92 D3). -/
inductive SleepMode where
  | disabled
  | enabled
deriving DecidableEq, Repr

/-- The instructions: 24 command bytes (30_encoding R95), the parameter byte, the data byte, and the 13 host operations
(30_encoding R97). -/
inductive Instr where
  /-- COL_LO n: ColumnLow (43 R198) -/
  | colLo (n : BitVec 4)
  /-- COL_HI n: ColumnHigh (43 R197) -/
  | colHi (n : BitVec 4)
  /-- RATIO r: ContrastRatio (43 R194) -/
  | ratio (r : BitVec 3)
  /-- PWR1: PowerControl1 (43 R202) -/
  | pwr1
  /-- PWR2: PowerControl2 (43 R203) -/
  | pwr2
  /-- PWR3: PowerControl3 (43 R204) -/
  | pwr3
  /-- START_LINE l: StartLine (43 R199) -/
  | startLine (l : BitVec 6)
  /-- EV_SET: ContrastModeSet (43 R195) -/
  | evSet
  /-- SCAN_NORMAL (43 R183) -/
  | scanNormal
  /-- SCAN_REVERSE (43 R184) -/
  | scanReverse
  /-- BIAS_1_9 (43 R189) -/
  | bias19
  /-- BIAS_1_7 (43 R190) -/
  | bias17
  /-- ALLPTS_NORMAL (43 R187) -/
  | allptsNormal
  /-- ALLPTS_ON (43 R188) -/
  | allptsOn
  /-- DISP_NORMAL (43 R185) -/
  | dispNormal
  /-- DISP_REVERSE (43 R186) -/
  | dispReverse
  /-- SLEEP (43 R192) -/
  | sleep
  /-- WAKE (43 R193) -/
  | wake
  /-- DISP_OFF (43 R181) -/
  | dispOff
  /-- DISP_ON (43 R182) -/
  | dispOn
  /-- PAGE n: PageAddress (43 R196) -/
  | page (n : BitVec 4)
  /-- COM_NORMAL (43 R200) -/
  | comNormal
  /-- COM_REVERSE (43 R201) -/
  | comReverse
  /-- INT_RESET (43 R191) -/
  | intReset
  /-- EV_PARAM: the parameter byte of ContrastModeSet, whatever its value (43 R205, 30_encoding R92) -/
  | evParam (b : Byte)
  /-- DATA: a display data byte (43 R206) -/
  | data (b : Byte)
  /-- CONSTRUCT (40 R120) -/
  | construct
  /-- RESET (41 R140) -/
  | reset
  /-- SET_PIXEL_DATA with its payload, of any length (41 R141) -/
  | setPixelData (payload : List Byte)
  /-- FLUSH (41 R142) -/
  | flush
  /-- DRAW (41 R143) -/
  | draw
  /-- SET_DISPLAY_MODE (42 R160) -/
  | setDisplayMode (sel : DisplayMode)
  /-- SET_DISPLAY_COLOR (42 R161) -/
  | setDisplayColor (sel : DisplayColor)
  /-- SET_CONTRAST (42 R162) -/
  | setContrast (arg : Byte)
  /-- SET_CONTRAST_DETAIL (42 R163) -/
  | setContrastDetail (arg : Byte)
  /-- SET_SLEEP_MODE (42 R164) -/
  | setSleepMode (sel : SleepMode)
  /-- SET_PAGE_ADDRESS (42 R165) -/
  | setPageAddress (arg : Byte)
  /-- SET_COLUMN_ADDRESS (42 R166) -/
  | setColumnAddress (arg : Byte)
  /-- RELEASE (40 R129) -/
  | release
deriving DecidableEq, Repr

/-- What a byte on the bus is taken for (30_encoding R92): the same bits mean a command with DC low and no parameter
awaited, a parameter with DC low and one awaited, and pixels with DC high. -/
inductive ByteContext where
  /-- DC low, ev_pending = 0 -/
  | command
  /-- DC low, ev_pending = 1 -/
  | parameter
  /-- DC high -/
  | data
deriving DecidableEq, Repr

/-- The bits that carry one instruction: a byte in its context, or a request word with the payload beside it (30_encoding
R91, R97). -/
inductive Encoded where
  | byte (ctx : ByteContext) (b : Byte)
  | request (w : ReqWord) (payload : List Byte)
deriving DecidableEq, Repr

/-- Why bits are no instruction. -/
inductive DecodeError where
  /-- one of the 117 command bytes 30_encoding R95 marks reserved -/
  | reservedCommand (b : Byte)
  /-- a request word that matches no row of 30_encoding R97 (R98) -/
  | reservedRequest (w : ReqWord)
deriving DecidableEq, Repr

end Sys2Proof
end

