-- ==== Sys2Proof/WellFormed.lean ====
section
/-!
DEFINITION. Which terms of `Instr` are instructions of the formats of 30_encoding R91 and R97. The operand types
already hold every field to its width; the one check left is on the parameter byte.
-/

namespace Sys2Proof

/-- The second byte of format C-PFX is two zero bits and the 6-bit volume (30_encoding R91). A byte with another top is
still received as the parameter (R92, 43 R205); it is not a well-formed one. -/
def wellFormedParam (b : Byte) : Bool := b &&& 0xC0 == 0

/-- Well-formed instructions. -/
def Instr.wellFormed : Instr → Bool
  | .evParam b => wellFormedParam b
  | .colLo _ | .colHi _ | .ratio _ | .pwr1 | .pwr2 | .pwr3 | .startLine _ | .evSet | .scanNormal | .scanReverse
  | .bias19 | .bias17 | .allptsNormal | .allptsOn | .dispNormal | .dispReverse | .sleep | .wake | .dispOff | .dispOn
  | .page _ | .comNormal | .comReverse | .intReset | .data _ => true
  | .construct | .reset | .setPixelData _ | .flush | .draw | .setDisplayMode _ | .setDisplayColor _ | .setContrast _
  | .setContrastDetail _ | .setSleepMode _ | .setPageAddress _ | .setColumnAddress _ | .release => true

/-- The 13 host operations (30_encoding R97), as opposed to the 26 forms of a byte on the bus. -/
def Instr.isHostOperation : Instr → Bool
  | .construct | .reset | .setPixelData _ | .flush | .draw | .setDisplayMode _ | .setDisplayColor _ | .setContrast _
  | .setContrastDetail _ | .setSleepMode _ | .setPageAddress _ | .setColumnAddress _ | .release => true
  | .colLo _ | .colHi _ | .ratio _ | .pwr1 | .pwr2 | .pwr3 | .startLine _ | .evSet | .scanNormal | .scanReverse
  | .bias19 | .bias17 | .allptsNormal | .allptsOn | .dispNormal | .dispReverse | .sleep | .wake | .dispOff | .dispOn
  | .page _ | .comNormal | .comReverse | .intReset | .evParam _ | .data _ => false

end Sys2Proof
end

