-- ==== Sys2Proof/Decode.lean ====
section
/-!
DEFINITION. The decoder, total on any byte in any context and on any request word, and after it the encoder, both
from the tables of 30_encoding R95 and R97.
-/

namespace Sys2Proof

/-! ## The command bytes of 30_encoding R95, from the configuration record -/

namespace Opcode
def colLo : Byte := Config.params.opcode.colLo
def colHi : Byte := Config.params.opcode.colHi
def ratio : Byte := Config.params.opcode.ratio
def pwr1 : Byte := Config.params.opcode.pwr1
def pwr2 : Byte := Config.params.opcode.pwr2
def pwr3 : Byte := Config.params.opcode.pwr3
def startLine : Byte := Config.params.opcode.startLine
def evSet : Byte := Config.params.opcode.evSet
def scanNormal : Byte := Config.params.opcode.scanNormal
def scanReverse : Byte := Config.params.opcode.scanReverse
def bias19 : Byte := Config.params.opcode.bias19
def bias17 : Byte := Config.params.opcode.bias17
def allptsNormal : Byte := Config.params.opcode.allptsNormal
def allptsOn : Byte := Config.params.opcode.allptsOn
def dispNormal : Byte := Config.params.opcode.dispNormal
def dispReverse : Byte := Config.params.opcode.dispReverse
def sleep : Byte := Config.params.opcode.sleep
def wake : Byte := Config.params.opcode.wake
def dispOff : Byte := Config.params.opcode.dispOff
def dispOn : Byte := Config.params.opcode.dispOn
def page : Byte := Config.params.opcode.page
def comNormal : Byte := Config.params.opcode.comNormal
def comReverse : Byte := Config.params.opcode.comReverse
def intReset : Byte := Config.params.opcode.intReset
end Opcode

/-- The low field of a byte, of the width the format gives it (30_encoding R94: `n = byte[3:0]`, `r = byte[2:0]`,
`l = byte[5:0]`). -/
def lowField (w : Nat) (b : Byte) : BitVec w := b.setWidth w

/-- One row of the command map: match, mask, and the instruction read from a byte that matches. -/
structure CommandRow where
  pat : Byte
  mask : Byte
  build : Byte → Instr

/-- The command-space opcode map of 30_encoding R95, in value order. -/
def commandRows : List CommandRow :=
  [ ⟨Opcode.colLo, 0xF0, fun b => .colLo (lowField 4 b)⟩,
    ⟨Opcode.colHi, 0xF0, fun b => .colHi (lowField 4 b)⟩,
    ⟨Opcode.ratio, 0xF8, fun b => .ratio (lowField 3 b)⟩,
    ⟨Opcode.pwr1, 0xFF, fun _ => .pwr1⟩,
    ⟨Opcode.pwr2, 0xFF, fun _ => .pwr2⟩,
    ⟨Opcode.pwr3, 0xFF, fun _ => .pwr3⟩,
    ⟨Opcode.startLine, 0xC0, fun b => .startLine (lowField 6 b)⟩,
    ⟨Opcode.evSet, 0xFF, fun _ => .evSet⟩ ] ++
  [ ⟨Opcode.scanNormal, 0xFF, fun _ => .scanNormal⟩,
    ⟨Opcode.scanReverse, 0xFF, fun _ => .scanReverse⟩,
    ⟨Opcode.bias19, 0xFF, fun _ => .bias19⟩,
    ⟨Opcode.bias17, 0xFF, fun _ => .bias17⟩,
    ⟨Opcode.allptsNormal, 0xFF, fun _ => .allptsNormal⟩,
    ⟨Opcode.allptsOn, 0xFF, fun _ => .allptsOn⟩,
    ⟨Opcode.dispNormal, 0xFF, fun _ => .dispNormal⟩,
    ⟨Opcode.dispReverse, 0xFF, fun _ => .dispReverse⟩ ] ++
  [ ⟨Opcode.sleep, 0xFF, fun _ => .sleep⟩,
    ⟨Opcode.wake, 0xFF, fun _ => .wake⟩,
    ⟨Opcode.dispOff, 0xFF, fun _ => .dispOff⟩,
    ⟨Opcode.dispOn, 0xFF, fun _ => .dispOn⟩,
    ⟨Opcode.page, 0xF0, fun b => .page (lowField 4 b)⟩,
    ⟨Opcode.comNormal, 0xFF, fun _ => .comNormal⟩,
    ⟨Opcode.comReverse, 0xFF, fun _ => .comReverse⟩,
    ⟨Opcode.intReset, 0xFF, fun _ => .intReset⟩ ]

/-- A byte in command space with no parameter awaited (30_encoding R95). -/
def decodeCommand (b : Byte) : Except DecodeError Instr :=
  match commandRows.find? (fun r => b &&& r.mask == r.pat) with
  | some r => .ok (r.build b)
  | none => .error (.reservedCommand b)

/-- A byte in its context (30_encoding R92). -/
def decodeByte : ByteContext → Byte → Except DecodeError Instr
  | .command, b => decodeCommand b
  | .parameter, b => .ok (.evParam b)
  | .data, b => .ok (.data b)

/-! ## The host requests of 30_encoding R97 -/

/-- The operand of a request word, bits 7..0. -/
def requestArg (w : ReqWord) : Byte := w.setWidth 8

/-- The two-valued operands of 92 D3, from bit 0 of the word. -/
def displayModeOf (w : ReqWord) : DisplayMode := if w.getLsbD 0 then .on else .off
def displayColorOf (w : ReqWord) : DisplayColor := if w.getLsbD 0 then .inverted else .normal
def sleepModeOf (w : ReqWord) : SleepMode := if w.getLsbD 0 then .enabled else .disabled

/-- One row of the request map: match, mask, and the operation read from a word that matches and its payload. -/
structure RequestRow where
  pat : ReqWord
  mask : ReqWord
  build : ReqWord → List Byte → Instr

/-- The host-request opcode map of 30_encoding R97, in the order of the operation codes. -/
def requestRows : List RequestRow :=
  [ ⟨0x0000, 0xFFFF, fun _ _ => .construct⟩,
    ⟨0x1000, 0xFFFF, fun _ _ => .reset⟩,
    ⟨0x2000, 0xFFFF, fun _ p => .setPixelData p⟩,
    ⟨0x3000, 0xFFFF, fun _ _ => .flush⟩,
    ⟨0x4000, 0xFFFF, fun _ _ => .draw⟩,
    ⟨0x5000, 0xFFFE, fun w _ => .setDisplayMode (displayModeOf w)⟩,
    ⟨0x6000, 0xFFFE, fun w _ => .setDisplayColor (displayColorOf w)⟩ ] ++
  [ ⟨0x7000, 0xFF00, fun w _ => .setContrast (requestArg w)⟩,
    ⟨0x8000, 0xFF00, fun w _ => .setContrastDetail (requestArg w)⟩,
    ⟨0x9000, 0xFFFE, fun w _ => .setSleepMode (sleepModeOf w)⟩,
    ⟨0xA000, 0xFF00, fun w _ => .setPageAddress (requestArg w)⟩,
    ⟨0xB000, 0xFF00, fun w _ => .setColumnAddress (requestArg w)⟩,
    ⟨0xC000, 0xFFFF, fun _ _ => .release⟩ ]

/-- A request word with its payload (30_encoding R97). The payload port is read by SET_PIXEL_DATA alone (92 D2).
DEDUCED: bytes standing at the port beside another operation are not looked at (log 11). -/
def decodeRequest (w : ReqWord) (payload : List Byte) : Except DecodeError Instr :=
  match requestRows.find? (fun r => w &&& r.mask == r.pat) with
  | some r => .ok (r.build w payload)
  | none => .error (.reservedRequest w)

/-- The decoder. -/
def decode : Encoded → Except DecodeError Instr
  | .byte ctx b => decodeByte ctx b
  | .request w payload => decodeRequest w payload

/-! ## The encoder -/

/-- A field placed in the low bits of a byte under its base (30_encoding R94). -/
def withField {w : Nat} (base : Byte) (field : BitVec w) : Byte := base ||| field.setWidth 8

/-- A request word: the operation code in bits 15..12, bits 11..8 zero, the operand in bits 7..0 (30_encoding R97). -/
def requestWord (op : BitVec 4) (arg : Byte) : ReqWord := (op.setWidth 16 <<< 12) ||| arg.setWidth 16

/-- Bit 0 of the two-valued operands (92 D3). -/
def DisplayMode.bit : DisplayMode → Byte
  | .off => 0
  | .on => 1
def DisplayColor.bit : DisplayColor → Byte
  | .normal => 0
  | .inverted => 1
def SleepMode.bit : SleepMode → Byte
  | .disabled => 0
  | .enabled => 1

/-- The bits of an instruction, from 30_encoding R91, R95 and R97. -/
def encode : Instr → Encoded
  | .colLo n => .byte .command (withField Opcode.colLo n)
  | .colHi n => .byte .command (withField Opcode.colHi n)
  | .ratio r => .byte .command (withField Opcode.ratio r)
  | .pwr1 => .byte .command Opcode.pwr1
  | .pwr2 => .byte .command Opcode.pwr2
  | .pwr3 => .byte .command Opcode.pwr3
  | .startLine l => .byte .command (withField Opcode.startLine l)
  | .evSet => .byte .command Opcode.evSet
  | .scanNormal => .byte .command Opcode.scanNormal
  | .scanReverse => .byte .command Opcode.scanReverse
  | .bias19 => .byte .command Opcode.bias19
  | .bias17 => .byte .command Opcode.bias17
  | .allptsNormal => .byte .command Opcode.allptsNormal
  | .allptsOn => .byte .command Opcode.allptsOn
  | .dispNormal => .byte .command Opcode.dispNormal
  | .dispReverse => .byte .command Opcode.dispReverse
  | .sleep => .byte .command Opcode.sleep
  | .wake => .byte .command Opcode.wake
  | .dispOff => .byte .command Opcode.dispOff
  | .dispOn => .byte .command Opcode.dispOn
  | .page n => .byte .command (withField Opcode.page n)
  | .comNormal => .byte .command Opcode.comNormal
  | .comReverse => .byte .command Opcode.comReverse
  | .intReset => .byte .command Opcode.intReset
  | .evParam b => .byte .parameter b
  | .data b => .byte .data b
  | .construct => .request (requestWord 0x0 0) []
  | .reset => .request (requestWord 0x1 0) []
  | .setPixelData payload => .request (requestWord 0x2 0) payload
  | .flush => .request (requestWord 0x3 0) []
  | .draw => .request (requestWord 0x4 0) []
  | .setDisplayMode sel => .request (requestWord 0x5 sel.bit) []
  | .setDisplayColor sel => .request (requestWord 0x6 sel.bit) []
  | .setContrast arg => .request (requestWord 0x7 arg) []
  | .setContrastDetail arg => .request (requestWord 0x8 arg) []
  | .setSleepMode sel => .request (requestWord 0x9 sel.bit) []
  | .setPageAddress arg => .request (requestWord 0xA arg) []
  | .setColumnAddress arg => .request (requestWord 0xB arg) []
  | .release => .request (requestWord 0xC 0) []

/-! ## The table's numbering -/

/-- The bits of an opcode-table row, in the context in which they are read (log 10). A row of 8 bits stands in one of
three contexts, which the bits alone do not tell apart; they are tried in the table's order: a command, then a
well-formed parameter, then a data byte. A row of 16 bits is a request word, with an empty payload. -/
def tableEncoded (nbits w : Nat) : Option Encoded :=
  if w < 2 ^ nbits then
    if nbits = 8 then
      match decodeCommand (BitVec.ofNat 8 w) with
      | .ok _ => some (.byte .command (BitVec.ofNat 8 w))
      | .error _ =>
        if wellFormedParam (BitVec.ofNat 8 w) then some (.byte .parameter (BitVec.ofNat 8 w))
        else some (.byte .data (BitVec.ofNat 8 w))
    else if nbits = 16 then some (.request (BitVec.ofNat 16 w) [])
    else none
  else none

/-- The instruction the decoder reads from an opcode-table row's bits. -/
def decodeTableWord (nbits w : Nat) : Option Instr :=
  match tableEncoded nbits w with
  | some e =>
    match decode e with
    | .ok i => some i
    | .error _ => none
  | none => none

end Sys2Proof
end

