-- ==== Sys2Proof/Machine/State.lean ====
section
/-!
DEFINITION. The state of the machine: the sequencer's own record (10_state R20), the shadow of the controller (R31 to
R46), and the data exchanged with the other agents (00_scope R10). Plain data throughout.
-/

namespace Sys2Proof.Machine

/-- A byte memory: (address, byte) pairs with strictly rising addresses (`Memory.wf`). An address that is not listed
holds no byte the model knows: in the framebuffer it reads as the free value FB_INIT, in the display RAM it is unknown
(log 3). A listed byte is known, so no listed entry can be told equal to what an unlisted address reads as. -/
abbrev Memory := List Host.Cell

/-! ## The sequencer -/

/-- The lifecycle state (10_state R21). -/
inductive Life where
  | unbuilt
  | ready
  | failed
  | released
deriving DecidableEq, Repr

/-- The output latch of a pin: the level last driven, or X, never driven (10_state R23, R24). -/
inductive Latch where
  | x
  | driven (l : Level)
deriving DecidableEq, Repr

/-- Whether the sequencer holds the transport (10_state R26). -/
inductive BusState where
  | closed
  | opened
deriving DecidableEq, Repr

/-- The configuration of one sequencer (10_state R30): the five pins and the bus peripheral it is bound to. Fixed at
CONSTRUCT, never changed. -/
structure Binding where
  pinSck : Nat
  pinMosi : Nat
  pinCs : Nat
  pinDc : Nat
  pinRst : Nat
  busInstance : Nat
deriving DecidableEq, Repr

/-- The sequencer's state record (10_state R20), with its configuration (R30). -/
structure Seq where
  /-- `life` (R21) -/
  life : Life
  /-- `FB`, key 128*p + c (R22, 20_memory R61) -/
  fb : Memory
  /-- `DC` (R23) -/
  dc : Latch
  /-- `RST` (R24) -/
  rst : Latch
  /-- `pin_out` (R25) -/
  pinOut : Bool
  /-- `bus` (R26) -/
  bus : BusState
  /-- the configuration (R30) -/
  binding : Binding
deriving DecidableEq, Repr

/-! ## The shadow of the LCD controller -/

/-- The power-control stage last commanded (10_state R41). -/
inductive PowerStage where
  | stage1
  | stage2
  | stage3
deriving DecidableEq, Repr

/-- The shadow state (10_state R31 to R46). One-bit registers are `Bool`, 1 being `true`. -/
structure Lcdc where
  /-- `lcdc_known` (R46) -/
  lcdcKnown : Bool
  /-- `PA` (R32) -/
  pa : Shadow (BitVec 4)
  /-- `CA[7:4]` (R33); each half of CA can be unknown alone (43 R197) -/
  caHi : Shadow (BitVec 4)
  /-- `CA[3:0]` (R33) -/
  caLo : Shadow (BitVec 4)
  /-- `DDRAM`, key 128*p + c (R34); a cell that is not listed is unknown -/
  ddram : Memory
  /-- `display_on` (R35) -/
  displayOn : Shadow Bool
  /-- `reverse` (R36) -/
  reverse : Shadow Bool
  /-- `all_points` (R37) -/
  allPoints : Shadow Bool
  /-- `scan_reverse` (R38) -/
  scanReverse : Shadow Bool
  /-- `com_reverse` (R39) -/
  comReverse : Shadow Bool
  /-- `bias` (R40): 0 is 1/9, 1 is 1/7 -/
  bias : Shadow Bool
  /-- `power` (R41) -/
  power : Shadow PowerStage
  /-- `ratio` (R42) -/
  ratio : Shadow (BitVec 3)
  /-- `ev` (R43) -/
  ev : Shadow (BitVec 6)
  /-- `ev_pending` (R43) -/
  evPending : Shadow Bool
  /-- `sleep` (R44) -/
  sleep : Shadow Bool
  /-- `start_line` (R45) -/
  startLine : Shadow (BitVec 6)
deriving DecidableEq, Repr

/-- Everything unknown and `lcdc_known` = 0: the shadow before CONSTRUCT (10_state R49), and whenever nothing about the
controller can be claimed (R46). -/
def Lcdc.allUnknown : Lcdc where
  lcdcKnown := false
  pa := .unknown
  caHi := .unknown
  caLo := .unknown
  ddram := []
  displayOn := .unknown
  reverse := .unknown
  allPoints := .unknown
  scanReverse := .unknown
  comReverse := .unknown
  bias := .unknown
  power := .unknown
  ratio := .unknown
  ev := .unknown
  evPending := .unknown
  sleep := .unknown
  startLine := .unknown

/-! ## What passes between the agents -/

/-- The two control pins (00_scope R7). -/
inductive CtlPin where
  | dc
  | rst
deriving DecidableEq, Repr

/-- The configuration handed to `BusOpen` (40 R122): clock rate, bus mode, bit order, word size, data lines, and the
transport's own pins and peripheral. -/
structure BusConfig where
  sckHz : Nat
  spiMode : Nat
  msbFirst : Bool
  wordBits : Nat
  dataLines : Nat
  pinSck : Nat
  pinMosi : Nat
  pinCs : Nat
  busInstance : Nat
deriving DecidableEq, Repr

/-- The event alphabet (00_scope R8). -/
inductive Event where
  /-- `PinDir(pin, OUT)` -/
  | pinDir (pin : CtlPin)
  /-- `SetPin(pin, level)` -/
  | setPin (pin : CtlPin) (level : Level)
  /-- `BusOpen(cfg) -> ok|fail` -/
  | busOpen (cfg : BusConfig) (answer : Answer)
  /-- `Transmit(bytes) -> ok|fail` -/
  | transmit (bytes : List Byte) (answer : Answer)
  /-- `Delay(t)`: at least that many microseconds -/
  | delay (atLeastUs : Nat)
  /-- `BusClose()` -/
  | busClose
deriving DecidableEq, Repr

/-- The result codes (60_exceptions R220). -/
inductive Result where
  /-- 0 `OK` -/
  | ok
  /-- 1 `ERR_VALIDATION` -/
  | errValidation
  /-- 2 `ERR_TRANSPORT` -/
  | errTransport
  /-- 3 `ERR_CONSTRUCTION` -/
  | errConstruction
deriving DecidableEq, Repr

/-- What arrives from outside, one at a time. -/
inductive Input where
  /-- the HOST issues a request, the previous one having returned (30_encoding R97) -/
  | request (w : ReqWord) (payload : List Byte)
  /-- the HOST issues a request before the previous one has returned (60_exceptions R231, 70 R253) -/
  | overlapping (w : ReqWord) (payload : List Byte)
  /-- a byte is handed straight to the controller, at a DC level (43 R180; the vectors T43 of 95_test_vectors) -/
  | busByte (m : Level) (b : Byte)
  /-- a new sequencer comes into being (70 R250, R251), with its configuration, those of the other live ones, and
  whether LCDC_FRESH holds for its controller (70 R257) -/
  | powerOn (binding : Binding) (others : List Binding) (lcdcFresh : Bool)
deriving DecidableEq, Repr

/-- The data of the environment that a step reads or appends to. These are the model's own fields. -/
structure Env where
  /-- the pending inputs, oldest first -/
  inbox : List Input
  /-- the known beginning of XFER_ANSWERS; beyond it an answer is the free value `Config.xferAnswers` (log 4) -/
  answers : List Answer
  /-- how many answers have been consumed -/
  consumed : Nat
  /-- the event trace of this sequencer, oldest first (00_scope R8) -/
  events : List Event
  /-- the results returned to the HOST, oldest first (60_exceptions R237) -/
  results : List Result
  /-- the configurations of the other live sequencers (60_exceptions R234) -/
  others : List Binding
  /-- the launch premise LCDC_FRESH (10_state R46, 92 D27) -/
  lcdcFresh : Bool
  /-- which sequencer of the run this is: the index of its FB_INIT -/
  instanceNo : Nat
deriving DecidableEq, Repr

/-- The whole state. -/
structure State where
  seq : Seq
  lcdc : Lcdc
  env : Env
deriving DecidableEq, Repr

/-- A fault would be a stop of the machine. The spec gives this block none: its three error classes are results, after
which it goes on (60_exceptions R220, R227), and "stuck" is "assigned to no point of the model" (00_scope R13). So no
instruction raises one, and the type has no constructor (log 16). Safe: nothing is hidden by it. -/
inductive Fault where
deriving DecidableEq, Repr

/-- Why the model gives a request no meaning (00_scope R13 "refuse"). Each is safe: a run that meets one is marked and
proves nothing. -/
inductive Refusal where
  /-- An instruction that has no meaning yet; raised by `exec` alone. Safe. -/
  | notModelled (mnemonic : String)
  /-- A host operation in a lifecycle state that forbids it; raised by the 13 host operations (60_exceptions R231, 93
  U12). Safe. -/
  | lifecycle (life : Life)
  /-- A request issued before the previous one returned; raised by the step (60_exceptions R231, 70 R253). Safe. -/
  | busy
  /-- A request word that names no operation; raised by the step (30_encoding R98, 93 U2). Safe. -/
  | malformedRequest (w : ReqWord)
  /-- A CONSTRUCT whose configuration overlaps another live sequencer's (60_exceptions R234, 93 U14), or whose own pins
  are not distinct (DEDUCED, log 26); raised by CONSTRUCT. Safe. -/
  | bindingConflict
  /-- The power-on of a new sequencer in the place of one that is READY or FAILED; raised by the step. DESIGN CHOICE (log
  14), after 70 R250: no operation returns a live one to UNBUILT. Safe. -/
  | liveInstance (life : Life)
deriving DecidableEq, Repr

/-! ## The state after reset -/

/-- The sequencer as it comes into being (10_state R49 "before CONSTRUCT", 70 R251). -/
def Seq.powerOn (binding : Binding) : Seq where
  life := .unbuilt
  fb := []
  dc := .x
  rst := .x
  pinOut := false
  bus := .closed
  binding := binding

/-- Pin and bus identifiers at reset. DESIGN CHOICE (log 6): the spec leaves them open, "any distinct pin identifiers". -/
def Binding.default : Binding where
  pinSck := 0
  pinMosi := 1
  pinCs := 2
  pinDc := 3
  pinRst := 4
  busInstance := 0

/-- The machine right after power-on (10_state R49, 70 R251). The fields of `env` are DESIGN CHOICES (logs 4, 7, 8, 14,
19). -/
def State.reset : State where
  seq := Seq.powerOn Binding.default
  lcdc := Lcdc.allUnknown
  env :=
    { inbox := [], answers := [], consumed := 0, events := [], results := [], others := [], lcdcFresh := true,
      instanceNo := 0 }

end Sys2Proof.Machine
end

