-- ==== Sys2Proof/Machine/Ops.lean ====
section
/-!
DEFINITION. The named operations over the state: the two byte memories, the latches, the answers, the trace, the
lifecycle gate, and the one operation by which an error ends a host operation.
-/

namespace Sys2Proof.Machine

/-! ## Byte memories -/

/-- The listed byte at an address, if there is one. -/
def Memory.get? : Memory → Nat → Option Byte
  | [], _ => none
  | (k, v) :: rest, a => if k = a then some v else Memory.get? rest a

/-- Write one byte, keeping the addresses rising. -/
def Memory.put : Memory → Nat → Byte → Memory
  | [], a, v => [(a, v)]
  | (k, w) :: rest, a, v =>
    if a < k then (a, v) :: (k, w) :: rest
    else if a = k then (a, v) :: rest
    else (k, w) :: Memory.put rest a v

/-- `MemWrite(a, n, v)` (00_scope R7, 20_memory R61): byte i of the string goes to address a + i. -/
def Memory.putBytes (m : Memory) (a : Nat) : List Byte → Memory
  | [] => m
  | b :: bs => Memory.put (Memory.putBytes m (a + 1) bs) a b

/-- All listed addresses are at least `lo` and rise strictly. -/
def Memory.risingFrom : Nat → Memory → Bool
  | _, [] => true
  | lo, (k, _) :: rest => decide (lo ≤ k) && Memory.risingFrom (k + 1) rest

/-- The canonical form of a memory. -/
def Memory.wf (m : Memory) : Bool := Memory.risingFrom 0 m

/-- Every listed address lies below a bound. -/
def Memory.below (bound : Nat) (m : Memory) : Bool := m.all (fun c => decide (c.1 < bound))

/-- The linear address of page p, column c (20_memory R61). -/
def linear (p c : Nat) : Nat := Config.params.nCols * p + c

/-! ## The framebuffer -/

/-- The framebuffer byte at a linear address: what was written there, else the free value FB_INIT (10_state R22). -/
def State.fbByte (s : State) (a : Nat) : Byte :=
  match s.seq.fb.get? a with
  | some v => v
  | none => Config.fbInit s.env.instanceNo a

/-- `MemRead(a, n)` on the framebuffer (20_memory R61): addresses a to a + n - 1, in increasing order. -/
def State.fbRead (s : State) (a n : Nat) : List Byte := (List.range n).map (fun i => s.fbByte (a + i))

/-- The 128 bytes of page p (41 R143: `MemRead(128 * pg, 128)`). -/
def State.fbPage (s : State) (p : Nat) : List Byte := s.fbRead (linear p 0) Config.params.nCols

/-- `MemWrite(a, n, v)` on the framebuffer. -/
def State.fbWrite (s : State) (a : Nat) (bytes : List Byte) : State :=
  { s with seq := { s.seq with fb := s.seq.fb.putBytes a bytes } }

/-- `FB <- FB_INIT` (40 R120): no byte is known any more. -/
def State.fbUnspecified (s : State) : State := { s with seq := { s.seq with fb := [] } }

/-- The pixel at display coordinate (x, y), x below X_PIXELS and y below Y_PIXELS: bit y mod 8 of FB[y div 8][x] (10_state
R22). -/
def State.pixel (s : State) (x : Fin Config.params.xPixels) (y : Fin Config.params.yPixels) : Bool :=
  (s.fbByte (linear (y / Config.params.pageBits) x)).getLsbD (y % Config.params.pageBits)

/-! ## The sequencer's registers -/

def State.setLife (s : State) (l : Life) : State := { s with seq := { s.seq with life := l } }
def State.setPinOut (s : State) : State := { s with seq := { s.seq with pinOut := true } }
def State.setBus (s : State) (b : BusState) : State := { s with seq := { s.seq with bus := b } }
def State.setLcdc (s : State) (c : Lcdc) : State := { s with lcdc := c }

/-- Set the latch of a pin (20_memory R73). -/
def State.setLatch (s : State) (pin : CtlPin) (l : Level) : State :=
  match pin with
  | .dc => { s with seq := { s.seq with dc := .driven l } }
  | .rst => { s with seq := { s.seq with rst := .driven l } }

/-! ## Events, answers, results -/

/-- Emit one event (00_scope R8). -/
def State.emit (s : State) (e : Event) : State := { s with env := { s.env with events := s.env.events ++ [e] } }

/-- The answer at a position of the stream XFER_ANSWERS (00_scope R10): from its known beginning, or free. -/
def answerFrom (answers : List Answer) (k : Nat) : Answer :=
  match answers[k]? with
  | some a => a
  | none => Config.xferAnswers k

/-- The answer at a position of this environment's stream. -/
def Env.answerAt (e : Env) (k : Nat) : Answer := answerFrom e.answers k

/-- The next answer the transport gives. -/
def State.nextAnswer (s : State) : Answer := s.env.answerAt s.env.consumed

/-- Consume one answer. -/
def State.consume (s : State) : State := { s with env := { s.env with consumed := s.env.consumed + 1 } }

/-- Return a result to the HOST (60_exceptions R237). -/
def State.report (s : State) (r : Result) : State := { s with env := { s.env with results := s.env.results ++ [r] } }

/-- Take the input that is being handled off the inbox. -/
def State.withInbox (s : State) (rest : List Input) : State := { s with env := { s.env with inbox := rest } }

/-! ## Errors: the block's exceptions -/

/-- The four causes of a validation error (60_exceptions R221). -/
inductive ValidationCause where
  | length
  | ratio
  | volume
  | page
deriving DecidableEq, Repr

/-- The event at which a transfer failed: what `Transport(where)` and `Construction(where)` carry (00_scope R7). -/
inductive Where where
  /-- the `BusOpen` -/
  | busOpen
  /-- the transfer of one command-space byte -/
  | command (b : Byte)
  /-- the transfer of data bytes -/
  | data
deriving DecidableEq, Repr

/-- The three error classes (60_exceptions R220). Cause and place "are for the reader of a trace; they are not returned
to the host". -/
inductive Raise where
  | validation (cause : ValidationCause)
  | transport (at_ : Where)
  | construction (at_ : Where)
deriving DecidableEq, Repr

/-- The result code a raise returns (60_exceptions R220). -/
def Raise.result : Raise → Result
  | .validation _ => .errValidation
  | .transport _ => .errTransport
  | .construction _ => .errConstruction

/-- Taking an error (60_exceptions R225): nothing is saved and no handler runs; the operation ends and its result goes
to the HOST. A construction failure also sets `life` to FAILED (R223). What the events before it did stands. -/
def State.raise (s : State) (e : Raise) : State :=
  match e with
  | .validation _ => s.report e.result
  | .transport _ => s.report e.result
  | .construction _ => (s.setLife .failed).report e.result

/-! ## Lifecycle gating -/

/-- Which lifecycle states accept CONSTRUCT, a runtime operation, RELEASE (60_exceptions R231). -/
def Life.acceptsConstruct : Life → Bool
  | .unbuilt => true
  | .ready | .failed | .released => false
def Life.acceptsRuntime : Life → Bool
  | .ready => true
  | .unbuilt | .failed | .released => false
def Life.acceptsRelease : Life → Bool
  | .ready | .failed => true
  | .unbuilt | .released => false

/-- Run a host operation if the lifecycle state accepts it, else refuse it. -/
def gated (accepts : Life → Bool) (s : State) (op : State → Host.Outcome State Fault Refusal) :
    Host.Outcome State Fault Refusal :=
  if accepts s.seq.life then op s else .refused (.lifecycle s.seq.life)

/-! ## Configurations -/

def Binding.pins (b : Binding) : List Nat := [b.pinSck, b.pinMosi, b.pinCs, b.pinDc, b.pinRst]

/-- The five pins are pairwise distinct (92 "Open parameters, collected"). -/
def Binding.distinctPins (b : Binding) : Bool := decide b.pins.Nodup

/-- Two configurations share no pin and no bus peripheral (10_state R30, 60_exceptions R234). -/
def Binding.disjoint (a b : Binding) : Bool :=
  a.pins.all (fun p => !b.pins.contains p) && a.busInstance != b.busInstance

/-- A CONSTRUCT with this configuration breaks no exclusive ownership (60_exceptions R234, 70 R258). -/
def State.bindingFree (s : State) : Bool :=
  s.seq.binding.distinctPins && s.env.others.all (fun o => s.seq.binding.disjoint o)

/-- The configuration handed to `BusOpen` (40 R122): 5 MHz, mode 3, MSB first, 8-bit words, one data line. -/
def Binding.busConfig (b : Binding) : BusConfig where
  sckHz := Config.params.sckHz
  spiMode := Config.params.spiMode
  msbFirst := Config.params.msbFirst
  wordBits := Config.params.wordBits
  dataLines := Config.params.dataLines
  pinSck := b.pinSck
  pinMosi := b.pinMosi
  pinCs := b.pinCs
  busInstance := b.busInstance

/-- The order of the bits of a byte on the bus: MSB first (20_memory R64). -/
def wireBits (b : Byte) : List Bool :=
  (List.range Config.params.wordBits).map
    (fun i => b.getLsbD (if Config.params.msbFirst then Config.params.wordBits - 1 - i else i))

/-! ## A new sequencer -/

/-- The power-on of a sequencer (70 R250, R251): its own record and its own shadow before CONSTRUCT (10_state R50), its
own trace and results. The transport's answer stream goes on. -/
def State.powerOn (s : State) (binding : Binding) (others : List Binding) (lcdcFresh : Bool) : State where
  seq := Seq.powerOn binding
  lcdc := Lcdc.allUnknown
  env :=
    { s.env with
      events := [], results := [], others := others, lcdcFresh := lcdcFresh, instanceNo := s.env.instanceNo + 1 }

/-- A new sequencer takes the place of one that was never constructed or has been released (40 R129 (d)). -/
def acceptPowerOn (s : State) (binding : Binding) (others : List Binding) (lcdcFresh : Bool) :
    Host.Outcome State Fault Refusal :=
  match s.seq.life with
  | .unbuilt | .released => .next (s.powerOn binding others lcdcFresh)
  | .ready => .refused (.liveInstance .ready)
  | .failed => .refused (.liveInstance .failed)

end Sys2Proof.Machine
end

