-- ==== Sys2Proof/Machine/Flags.lean ====
section
/-!
DEFINITION. The block has no condition codes and no sticky flags (10_state R29). What stands in their place is the
result of each operation (60_exceptions R220).
-/

namespace Sys2Proof.Machine

/-- The numeric result codes (60_exceptions R220, 92 D4). -/
def Result.code : Result → Nat
  | .ok => 0
  | .errValidation => 1
  | .errTransport => 2
  | .errConstruction => 3

/-- The end of a host operation: `return OK`, or the raise that ended it. -/
def finish (s : State) : Option Raise → State
  | none => s.report .ok
  | some e => s.raise e

end Sys2Proof.Machine
end

