-- ==== Sys2Proof/Machine/Operands.lean ====
section
/-!
DEFINITION. The operand forms: the range and length checks a host operation makes (60_exceptions R221) and the command
bytes it assembles from its operand (30_encoding R94).
-/

namespace Sys2Proof.Machine

/-! ## Checks, all on unsigned values (30_encoding R103) -/

/-- SET_PIXEL_DATA accepts a payload of exactly 768 bytes (41 R141). -/
def lengthCheck (payload : List Byte) : Option ValidationCause :=
  if payload.length = Config.params.fbSize then none else some .length

/-- SET_CONTRAST rejects `arg > 7` (42 R162). -/
def ratioCheck (arg : Byte) : Option ValidationCause := if Config.params.ratioMax < arg then some .ratio else none

/-- SET_CONTRAST_DETAIL rejects `arg > 63` (42 R163). -/
def volumeCheck (arg : Byte) : Option ValidationCause := if Config.params.volumeMax < arg then some .volume else none

/-- SET_PAGE_ADDRESS rejects `arg > 15` (42 R165). -/
def pageCheck (arg : Byte) : Option ValidationCause := if Config.params.pageMax < arg then some .page else none

/-! ## Operand assembly (30_encoding R94) -/

/-- ContrastRatio: `0x20 | arg`. -/
def ratioByte (arg : Byte) : Byte := Opcode.ratio ||| arg

/-- PageAddress: `0xB0 | arg`. -/
def pageByte (arg : Byte) : Byte := Opcode.page ||| arg

/-- ColumnHigh: `0x10 | (arg >> 4)`. -/
def colHiByte (arg : Byte) : Byte := Opcode.colHi ||| (arg >>> 4)

/-- ColumnLow: `0x00 | (arg & 0x0F)`. -/
def colLoByte (arg : Byte) : Byte := Opcode.colLo ||| (arg &&& 0x0F)

/-- StartLine: `0x40 | line`. -/
def startLineByte (line : Byte) : Byte := Opcode.startLine ||| line

/-- SET_DISPLAY_MODE (42 R160): On sends DisplayOn, Off sends DisplayOff. -/
def displayModeByte : DisplayMode → Byte
  | .on => Opcode.dispOn
  | .off => Opcode.dispOff

/-- SET_DISPLAY_COLOR (42 R161). -/
def displayColorByte : DisplayColor → Byte
  | .normal => Opcode.dispNormal
  | .inverted => Opcode.dispReverse

/-- SET_SLEEP_MODE (42 R164). -/
def sleepModeByte : SleepMode → Byte
  | .enabled => Opcode.sleep
  | .disabled => Opcode.wake

end Sys2Proof.Machine
end

