-- ==== Sys2Proof/Machine/Shadow.lean ====
section
/-!
DEFINITION. The controller as the sequencer's protocol determines it: what each byte and the reset pin do to the shadow
state (43_controller_commands R180 to R210).
-/

namespace Sys2Proof.Machine

/-- Nothing is known any more: `lcdc_known <- 0`, and with it "every shadow register and every cell of DDRAM is unknown"
(10_state R46). -/
def Lcdc.forget (_ : Lcdc) : Lcdc := Lcdc.allUnknown

/-- "if lcdc_known = 0 then return" (43 R180): what a byte does while the shadow is known. -/
def Lcdc.whenKnown (c : Lcdc) (f : Lcdc → Lcdc) : Lcdc := if c.lcdcKnown then f c else c

/-! ## Reading the shadow -/

/-- `CA` as one register of 8 bits (10_state R33): known when both halves are. -/
def Lcdc.ca (c : Lcdc) : Shadow Byte :=
  match c.caHi, c.caLo with
  | .known h, .known l => .known (h ++ l)
  | _, _ => .unknown

/-- `CA <- v`, both halves. -/
def Lcdc.setCa (c : Lcdc) (v : Byte) : Lcdc :=
  { c with caHi := .known (v.extractLsb' 4 4), caLo := .known (v.extractLsb' 0 4) }

/-- `CA <- unknown`, both halves. -/
def Lcdc.loseCa (c : Lcdc) : Lcdc := { c with caHi := .unknown, caLo := .unknown }

/-- `DDRAM[p][c]`, a byte or unknown (10_state R34). -/
def Lcdc.cell (c : Lcdc) (p col : Nat) : Shadow Byte :=
  match c.ddram.get? (linear p col) with
  | some v => .known v
  | none => .unknown

/-! ## The commands, in the order of the opcode table -/

/-- COL_LO (43 R198): `CA[3:0] <- n`, the high half unchanged. -/
def Lcdc.colLo (c : Lcdc) (n : BitVec 4) : Lcdc := c.whenKnown fun c => { c with caLo := .known n }
/-- COL_HI (43 R197): `CA[7:4] <- n`, the low half unchanged. -/
def Lcdc.colHi (c : Lcdc) (n : BitVec 4) : Lcdc := c.whenKnown fun c => { c with caHi := .known n }
/-- RATIO (43 R194). -/
def Lcdc.setRatio (c : Lcdc) (r : BitVec 3) : Lcdc := c.whenKnown fun c => { c with ratio := .known r }
/-- PWR1, PWR2, PWR3 (43 R202 to R204). -/
def Lcdc.setPower (c : Lcdc) (p : PowerStage) : Lcdc := c.whenKnown fun c => { c with power := .known p }
/-- START_LINE (43 R199). PRESUMED: the 6-bit width is the spec's from general knowledge (92 D17, log 21). -/
def Lcdc.setStartLine (c : Lcdc) (l : BitVec 6) : Lcdc := c.whenKnown fun c => { c with startLine := .known l }
/-- EV_SET (43 R195): the next command-space byte is the volume. -/
def Lcdc.awaitParam (c : Lcdc) : Lcdc := c.whenKnown fun c => { c with evPending := .known true }
/-- SCAN_NORMAL, SCAN_REVERSE (43 R183, R184). -/
def Lcdc.setScanReverse (c : Lcdc) (v : Bool) : Lcdc := c.whenKnown fun c => { c with scanReverse := .known v }
/-- BIAS_1_9, BIAS_1_7 (43 R189, R190). -/
def Lcdc.setBias (c : Lcdc) (v : Bool) : Lcdc := c.whenKnown fun c => { c with bias := .known v }
/-- ALLPTS_NORMAL, ALLPTS_ON (43 R187, R188). -/
def Lcdc.setAllPoints (c : Lcdc) (v : Bool) : Lcdc := c.whenKnown fun c => { c with allPoints := .known v }
/-- DISP_NORMAL, DISP_REVERSE (43 R185, R186). -/
def Lcdc.setReverse (c : Lcdc) (v : Bool) : Lcdc := c.whenKnown fun c => { c with reverse := .known v }
/-- SLEEP, WAKE (43 R192, R193). -/
def Lcdc.setSleep (c : Lcdc) (v : Bool) : Lcdc := c.whenKnown fun c => { c with sleep := .known v }
/-- DISP_OFF, DISP_ON (43 R181, R182). -/
def Lcdc.setDisplayOn (c : Lcdc) (v : Bool) : Lcdc := c.whenKnown fun c => { c with displayOn := .known v }
/-- PAGE (43 R196): `PA <- n`, CA unchanged. -/
def Lcdc.setPage (c : Lcdc) (n : BitVec 4) : Lcdc := c.whenKnown fun c => { c with pa := .known n }
/-- COM_NORMAL, COM_REVERSE (43 R200, R201). -/
def Lcdc.setComReverse (c : Lcdc) (v : Bool) : Lcdc := c.whenKnown fun c => { c with comReverse := .known v }
/-- INT_RESET (43 R191): nothing is known afterwards. -/
def Lcdc.internalReset (c : Lcdc) : Lcdc := c.whenKnown Lcdc.forget

/-- EV_PARAM (43 R205): the volume, unknown if bits 7..6 are not zero; the parameter is no longer awaited. -/
def Lcdc.takeParam (c : Lcdc) (b : Byte) : Lcdc :=
  c.whenKnown fun c =>
    { c with
      ev := if wellFormedParam b then .known (lowField 6 b) else .unknown
      evPending := .known false }

/-- An address inside the 6 x 128 window the shadow keeps (10_state R34). -/
def inWindow (p : BitVec 4) (ca : Byte) : Bool :=
  decide (p.toNat < Config.params.nPages) && decide (ca.toNat < Config.params.nCols)

/-- A data byte inside the 6 x 128 window (43 R206): the cell is written, then CA steps up by one, or is unknown after
column 127. -/
def Lcdc.writeCell (c : Lcdc) (p : BitVec 4) (ca : Byte) (b : Byte) : Lcdc :=
  let c := { c with ddram := c.ddram.put (linear p.toNat ca.toNat) b }
  if ca.toNat + 1 < Config.params.nCols then c.setCa (ca + 1) else c.loseCa

/-- A data byte outside the window, or at an unknown address (43 R206): every cell and CA are unknown. -/
def Lcdc.writeOutside (c : Lcdc) : Lcdc := { c with ddram := [] }.loseCa

/-- DATA (43 R206). While a parameter is awaited (or it is not known that none is, which no run reaches, log 17) the
effect is in no source and nothing is known afterwards. -/
def Lcdc.dataWrite (c : Lcdc) (b : Byte) : Lcdc :=
  c.whenKnown fun c =>
    match c.evPending with
    | .known false =>
      match c.pa, c.ca with
      | .known p, .known ca => if inWindow p ca then c.writeCell p ca b else c.writeOutside
      | _, _ => c.writeOutside
    | _ => c.forget

/-- A byte the source does not define (43 R209): nothing is known afterwards. -/
def Lcdc.undefinedByte (c : Lcdc) : Lcdc := c.whenKnown Lcdc.forget

/-! ## Reception -/

/-- What a byte is taken for (30_encoding R92), if the DC level and `ev_pending` decide it. -/
def contextOf (m : Latch) (pending : Shadow Bool) : Option ByteContext :=
  if m = .driven Config.params.dcData then some .data
  else if m = .driven Config.params.dcCommand then
    match pending with
    | .known true => some .parameter
    | .known false => some .command
    | .unknown => none
  else none

/-- What a decoded byte does to the shadow. A host operation is no byte on the bus and does nothing to it here. -/
def Lcdc.apply (c : Lcdc) : Instr → Lcdc
  | .colLo n => c.colLo n
  | .colHi n => c.colHi n
  | .ratio r => c.setRatio r
  | .pwr1 => c.setPower .stage1
  | .pwr2 => c.setPower .stage2
  | .pwr3 => c.setPower .stage3
  | .startLine l => c.setStartLine l
  | .evSet => c.awaitParam
  | .scanNormal => c.setScanReverse false
  | .scanReverse => c.setScanReverse true
  | .bias19 => c.setBias false
  | .bias17 => c.setBias true
  | .allptsNormal => c.setAllPoints false
  | .allptsOn => c.setAllPoints true
  | .dispNormal => c.setReverse false
  | .dispReverse => c.setReverse true
  | .sleep => c.setSleep true
  | .wake => c.setSleep false
  | .dispOff => c.setDisplayOn false
  | .dispOn => c.setDisplayOn true
  | .page n => c.setPage n
  | .comNormal => c.setComReverse false
  | .comReverse => c.setComReverse true
  | .intReset => c.internalReset
  | .evParam b => c.takeParam b
  | .data b => c.dataWrite b
  | .construct | .reset | .setPixelData _ | .flush | .draw | .setDisplayMode _ | .setDisplayColor _ | .setContrast _
  | .setContrastDetail _ | .setSleepMode _ | .setPageAddress _ | .setColumnAddress _ | .release => c

/-- The instruction a byte is for the controller, if it is one. -/
def Lcdc.decodeFor (c : Lcdc) (m : Latch) (b : Byte) : Option Instr :=
  match contextOf m c.evPending with
  | some ctx =>
    match decodeByte ctx b with
    | .ok i => some i
    | .error _ => none
  | none => none

/-- `Receive(m, b)` (43 R180). -/
def Lcdc.receive (m : Latch) (c : Lcdc) (b : Byte) : Lcdc :=
  match c.decodeFor m b with
  | some i => c.apply i
  | none => c.undefinedByte

/-- A transfer answered `ok` (43 R207): each byte in order, complete before the next. -/
def Lcdc.receiveAll (m : Latch) (c : Lcdc) (bytes : List Byte) : Lcdc := bytes.foldl (Lcdc.receive m) c

/-! ## The reset pin -/

/-- The shadow when the reset pin is released (43 R208, 10_state R46): everything unknown, the decoder idle under the
premise LCDC_FRESH. A model that will not take the premise "keeps lcdc_known = 0 throughout". -/
def Lcdc.released (lcdcFresh : Bool) : Lcdc :=
  if lcdcFresh then { Lcdc.allUnknown with lcdcKnown := true, evPending := .known false } else Lcdc.allUnknown

/-- What driving the reset pin to a level does to the shadow, given the level it had (43 R208): active, it resets the
controller; inactive, it releases it, unless the pin was inactive before. -/
def Lcdc.resetPin (c : Lcdc) (lcdcFresh : Bool) (was : Latch) (level : Level) : Lcdc :=
  if level = Config.params.rstActive then c.forget
  else if was = .driven Config.params.rstInactive then c
  else Lcdc.released lcdcFresh

end Sys2Proof.Machine
end

