-- ==== Sys2Proof/Machine/Script.lean ====
section
/-!
DEFINITION. The transfer primitives (20_memory R70 to R74) and the interpreter of an operation's script: its statements
run strictly in the order written, each finishing before the next, and the first transfer answered `fail` ends the
operation (00_scope R7, 60_exceptions R222).
-/

namespace Sys2Proof.Machine

/-- One statement of a script. -/
inductive Action where
  /-- `PinDir(pin, OUT)` -/
  | pinDir (pin : CtlPin)
  /-- `pin_out <- true` (no event) -/
  | pinsAreOutputs
  /-- `SetPin(pin, level)` -/
  | setPin (pin : CtlPin) (level : Level)
  /-- `BusOpen(cfg)` -/
  | busOpen
  /-- `Transmit(bytes)`, and where a failure of it is said to be -/
  | transmit (bytes : List Byte) (at_ : Where)
  /-- `Delay(t)` -/
  | delay (atLeastUs : Nat)
  /-- `BusClose()` -/
  | busClose
deriving DecidableEq, Repr

/-- `SetPin(pin, level)` (20_memory R73): the event, the latch, and for the reset pin its action on the controller. -/
def State.drivePin (s : State) (pin : CtlPin) (level : Level) : State :=
  match pin with
  | .dc => (s.setLatch .dc level).emit (.setPin .dc level)
  | .rst =>
    ((s.setLcdc (s.lcdc.resetPin s.env.lcdcFresh s.seq.rst level)).setLatch .rst level).emit (.setPin .rst level)

/-- `BusOpen(cfg)` (40 R122). -/
def State.openBus (s : State) : State × Option Where :=
  match s.nextAnswer with
  | .ok => ((s.consume.emit (.busOpen s.seq.binding.busConfig .ok)).setBus .opened, none)
  | .fail => (s.consume.emit (.busOpen s.seq.binding.busConfig .fail), some .busOpen)

/-- `Transmit(bytes)` (20_memory R72): one answer; on `ok` the controller receives every byte at the DC level (43 R207),
on `fail` nothing about it is known (43 R210). -/
def State.transmit (s : State) (bytes : List Byte) (at_ : Where) : State × Option Where :=
  match s.nextAnswer with
  | .ok => ((s.consume.emit (.transmit bytes .ok)).setLcdc (s.lcdc.receiveAll s.seq.dc bytes), none)
  | .fail => ((s.consume.emit (.transmit bytes .fail)).setLcdc s.lcdc.forget, some at_)

/-- One statement: the state after it, and where it failed if it did. -/
def Action.run (s : State) : Action → State × Option Where
  | .pinDir pin => (s.emit (.pinDir pin), none)
  | .pinsAreOutputs => (s.setPinOut, none)
  | .setPin pin level => (s.drivePin pin level, none)
  | .busOpen => s.openBus
  | .transmit bytes at_ => s.transmit bytes at_
  | .delay t => (s.emit (.delay t), none)
  | .busClose => ((s.emit .busClose).setBus .closed, none)

/-- A script: every statement in turn, up to the first failure. The position in the list is the spec's `upc` (10_state
R28). -/
def runScript (s : State) : List Action → State × Option Where
  | [] => (s, none)
  | a :: rest =>
    match a.run s with
    | (s', none) => runScript s' rest
    | (s', some w) => (s', some w)

/-- `SendCmd(b)` (20_memory R70). -/
def sendCmd (b : Byte) : List Action := [.setPin .dc Config.params.dcCommand, .transmit [b] (.command b)]

/-- `SendData(s)` (20_memory R71). -/
def sendData (bytes : List Byte) : List Action := [.setPin .dc Config.params.dcData, .transmit bytes .data]

/-- A runtime operation: its script, then OK, or the transport error that ended it (60_exceptions R222). -/
def runOperation (s : State) (script : List Action) : State :=
  finish (runScript s script).1 ((runScript s script).2.map Raise.transport)

/-- A runtime operation with a check, made "before any hardware access" (60_exceptions R221). -/
def runChecked (check : Option ValidationCause) (s : State) (op : State → State) : State :=
  match check with
  | some cause => s.raise (.validation cause)
  | none => op s

end Sys2Proof.Machine
end

