-- ==== Sys2Proof/Machine/Commands.lean ====
section
/-!
DEFINITION. The meanings of the 24 command bytes, the parameter byte and the data byte, each in the context its rule
gives it (30_encoding R92); the step supplies the context (log 18).
-/

namespace Sys2Proof.Machine

/-- A byte received by the controller never stops the machine (43 R180): it changes the shadow and nothing else. -/
def State.received (s : State) (c : Lcdc) : Host.Outcome State Fault Refusal := .next (s.setLcdc c)

/-- COL_LO n (43 R198). -/
def execColLo (n : BitVec 4) (s : State) : Host.Outcome State Fault Refusal := s.received (s.lcdc.colLo n)
/-- COL_HI n (43 R197). -/
def execColHi (n : BitVec 4) (s : State) : Host.Outcome State Fault Refusal := s.received (s.lcdc.colHi n)
/-- RATIO r (43 R194). -/
def execRatio (r : BitVec 3) (s : State) : Host.Outcome State Fault Refusal := s.received (s.lcdc.setRatio r)
/-- PWR1 (43 R202). -/
def execPwr1 (s : State) : Host.Outcome State Fault Refusal := s.received (s.lcdc.setPower .stage1)
/-- PWR2 (43 R203). -/
def execPwr2 (s : State) : Host.Outcome State Fault Refusal := s.received (s.lcdc.setPower .stage2)
/-- PWR3 (43 R204). -/
def execPwr3 (s : State) : Host.Outcome State Fault Refusal := s.received (s.lcdc.setPower .stage3)
/-- START_LINE l (43 R199). -/
def execStartLine (l : BitVec 6) (s : State) : Host.Outcome State Fault Refusal := s.received (s.lcdc.setStartLine l)
/-- EV_SET (43 R195). -/
def execEvSet (s : State) : Host.Outcome State Fault Refusal := s.received s.lcdc.awaitParam
/-- SCAN_NORMAL (43 R183). -/
def execScanNormal (s : State) : Host.Outcome State Fault Refusal := s.received (s.lcdc.setScanReverse false)
/-- SCAN_REVERSE (43 R184). -/
def execScanReverse (s : State) : Host.Outcome State Fault Refusal := s.received (s.lcdc.setScanReverse true)
/-- BIAS_1_9 (43 R189). -/
def execBias19 (s : State) : Host.Outcome State Fault Refusal := s.received (s.lcdc.setBias false)
/-- BIAS_1_7 (43 R190). -/
def execBias17 (s : State) : Host.Outcome State Fault Refusal := s.received (s.lcdc.setBias true)
/-- ALLPTS_NORMAL (43 R187). -/
def execAllptsNormal (s : State) : Host.Outcome State Fault Refusal := s.received (s.lcdc.setAllPoints false)
/-- ALLPTS_ON (43 R188). -/
def execAllptsOn (s : State) : Host.Outcome State Fault Refusal := s.received (s.lcdc.setAllPoints true)
/-- DISP_NORMAL (43 R185). -/
def execDispNormal (s : State) : Host.Outcome State Fault Refusal := s.received (s.lcdc.setReverse false)
/-- DISP_REVERSE (43 R186). -/
def execDispReverse (s : State) : Host.Outcome State Fault Refusal := s.received (s.lcdc.setReverse true)
/-- SLEEP (43 R192). -/
def execSleep (s : State) : Host.Outcome State Fault Refusal := s.received (s.lcdc.setSleep true)
/-- WAKE (43 R193). -/
def execWake (s : State) : Host.Outcome State Fault Refusal := s.received (s.lcdc.setSleep false)
/-- DISP_OFF (43 R181). -/
def execDispOff (s : State) : Host.Outcome State Fault Refusal := s.received (s.lcdc.setDisplayOn false)
/-- DISP_ON (43 R182). -/
def execDispOn (s : State) : Host.Outcome State Fault Refusal := s.received (s.lcdc.setDisplayOn true)
/-- PAGE n (43 R196). -/
def execPage (n : BitVec 4) (s : State) : Host.Outcome State Fault Refusal := s.received (s.lcdc.setPage n)
/-- COM_NORMAL (43 R200). -/
def execComNormal (s : State) : Host.Outcome State Fault Refusal := s.received (s.lcdc.setComReverse false)
/-- COM_REVERSE (43 R201). -/
def execComReverse (s : State) : Host.Outcome State Fault Refusal := s.received (s.lcdc.setComReverse true)
/-- INT_RESET (43 R191). -/
def execIntReset (s : State) : Host.Outcome State Fault Refusal := s.received s.lcdc.internalReset
/-- EV_PARAM (43 R205). -/
def execEvParam (b : Byte) (s : State) : Host.Outcome State Fault Refusal := s.received (s.lcdc.takeParam b)
/-- DATA (43 R206). -/
def execData (b : Byte) (s : State) : Host.Outcome State Fault Refusal := s.received (s.lcdc.dataWrite b)

end Sys2Proof.Machine
end

