-- ==== Sys2Proof/Machine/Lifecycle.lean ====
section
/-!
DEFINITION. CONSTRUCT and RELEASE (40_construct_release).
-/

namespace Sys2Proof.Machine

/-- CONSTRUCT's six steps (40 R120 to R126). -/
def constructScript : List Action :=
  -- steps 1 and 2: pins, bus (R121, R122)
  [.pinDir .rst, .pinDir .dc, .pinsAreOutputs, .setPin .rst Config.params.rstInactive, .busOpen] ++
  -- step 3: display off and geometry (R123)
  sendCmd Opcode.dispOff ++ sendCmd Opcode.scanNormal ++ sendCmd Opcode.comReverse ++ sendCmd Opcode.bias17 ++
  -- step 4: power (R124)
  sendCmd Opcode.pwr1 ++ [.delay Config.params.tSettleUs] ++ sendCmd Opcode.pwr2 ++ [.delay Config.params.tSettleUs] ++
  sendCmd Opcode.pwr3 ++
  -- step 5: contrast (R125)
  sendCmd (ratioByte Config.params.defaultRatio) ++ sendCmd Opcode.evSet ++ sendCmd Config.params.defaultVolume ++
  -- step 6: display on (R126)
  sendCmd Opcode.allptsNormal ++ sendCmd (startLineByte Config.params.defaultStartLine) ++ sendCmd Opcode.dispNormal ++
  sendCmd Opcode.dispOn

/-- The end of CONSTRUCT: `FB <- FB_INIT`, READY and OK, or FAILED and ERR_CONSTRUCTION (40 R120, R127). -/
def constructEnd (r : State × Option Where) : State :=
  match r.2 with
  | none => finish (r.1.fbUnspecified.setLife .ready) none
  | some w => finish r.1 (some (.construction w))

/-- CONSTRUCT (40 R120): accepted in UNBUILT only (60_exceptions R231), and only with a configuration that overlaps no
other live sequencer's (R234). -/
def execConstruct (s : State) : Host.Outcome State Fault Refusal :=
  gated Life.acceptsConstruct s fun s =>
    if s.bindingFree then .next (constructEnd (runScript s constructScript)) else .refused .bindingConflict

/-- The script of RELEASE (40 R129): `BusClose()` exactly if the bus is open. -/
def releaseScript (s : State) : List Action :=
  match s.seq.bus with
  | .opened => [.busClose]
  | .closed => []

/-- RELEASE (40 R129): accepted in READY and FAILED. -/
def execRelease (s : State) : Host.Outcome State Fault Refusal :=
  gated Life.acceptsRelease s fun s => .next (finish ((runScript s (releaseScript s)).1.setLife .released) none)

end Sys2Proof.Machine
end

