-- ==== Sys2Proof/Machine/Paging.lean ====
section
/-!
DEFINITION. RESET, SET_PIXEL_DATA, FLUSH and DRAW (41_paging_engine).
-/

namespace Sys2Proof.Machine

/-- RESET's script (41 R140). -/
def resetScript : List Action :=
  [.setPin .rst Config.params.rstActive, .delay Config.tRstLowUs, .setPin .rst Config.params.rstInactive]

/-- RESET (41 R140). -/
def execReset (s : State) : Host.Outcome State Fault Refusal :=
  gated Life.acceptsRuntime s fun s => .next (runOperation s resetScript)

/-- SET_PIXEL_DATA (41 R141): 768 bytes, page after page, or nothing. -/
def execSetPixelData (payload : List Byte) (s : State) : Host.Outcome State Fault Refusal :=
  gated Life.acceptsRuntime s fun s =>
    .next (runChecked (lengthCheck payload) s fun s => finish (s.fbWrite 0 payload) none)

/-- One page of the draw body (41 R143): page address, column address 0 high then low, the page's 128 bytes. -/
def pageScript (s : State) (p : Nat) : List Action :=
  sendCmd (pageByte (BitVec.ofNat 8 p)) ++ sendCmd (colHiByte 0) ++ sendCmd (colLoByte 0) ++ sendData (s.fbPage p)

/-- `DrawBody()` (41 R143): pages 0 to 5. No statement of it writes the framebuffer. -/
def drawScript (s : State) : List Action := (List.range Config.params.nPages).flatMap (pageScript s)

/-- DRAW (41 R143). -/
def execDraw (s : State) : Host.Outcome State Fault Refusal :=
  gated Life.acceptsRuntime s fun s => .next (runOperation s (drawScript s))

/-- Every framebuffer byte becomes 0 (41 R142). -/
def State.fbClear (s : State) : State := s.fbWrite 0 (List.replicate Config.params.fbSize 0)

/-- FLUSH (41 R142): the zeroing first, which stands if a transfer fails, then the draw body. -/
def execFlush (s : State) : Host.Outcome State Fault Refusal :=
  gated Life.acceptsRuntime s fun s => .next (runOperation s.fbClear (drawScript s.fbClear))

end Sys2Proof.Machine
end

