-- ==== Sys2Proof/Machine/Registers.lean ====
section
/-!
DEFINITION. The seven register-setting operations (42_register_ops).
-/

namespace Sys2Proof.Machine

/-- SET_DISPLAY_MODE (42 R160). -/
def execSetDisplayMode (sel : DisplayMode) (s : State) : Host.Outcome State Fault Refusal :=
  gated Life.acceptsRuntime s fun s => .next (runOperation s (sendCmd (displayModeByte sel)))

/-- SET_DISPLAY_COLOR (42 R161). -/
def execSetDisplayColor (sel : DisplayColor) (s : State) : Host.Outcome State Fault Refusal :=
  gated Life.acceptsRuntime s fun s => .next (runOperation s (sendCmd (displayColorByte sel)))

/-- SET_CONTRAST (42 R162). -/
def execSetContrast (arg : Byte) (s : State) : Host.Outcome State Fault Refusal :=
  gated Life.acceptsRuntime s fun s =>
    .next (runChecked (ratioCheck arg) s fun s => runOperation s (sendCmd (ratioByte arg)))

/-- SET_CONTRAST_DETAIL (42 R163): ContrastModeSet, then the volume as a parameter, both in command space. -/
def execSetContrastDetail (arg : Byte) (s : State) : Host.Outcome State Fault Refusal :=
  gated Life.acceptsRuntime s fun s =>
    .next (runChecked (volumeCheck arg) s fun s => runOperation s (sendCmd Opcode.evSet ++ sendCmd arg))

/-- SET_SLEEP_MODE (42 R164). -/
def execSetSleepMode (sel : SleepMode) (s : State) : Host.Outcome State Fault Refusal :=
  gated Life.acceptsRuntime s fun s => .next (runOperation s (sendCmd (sleepModeByte sel)))

/-- SET_PAGE_ADDRESS (42 R165). -/
def execSetPageAddress (arg : Byte) (s : State) : Host.Outcome State Fault Refusal :=
  gated Life.acceptsRuntime s fun s =>
    .next (runChecked (pageCheck arg) s fun s => runOperation s (sendCmd (pageByte arg)))

/-- SET_COLUMN_ADDRESS (42 R166): high nibble first. -/
def execSetColumnAddress (arg : Byte) (s : State) : Host.Outcome State Fault Refusal :=
  gated Life.acceptsRuntime s fun s =>
    .next (runOperation s (sendCmd (colHiByte arg) ++ sendCmd (colLoByte arg)))

end Sys2Proof.Machine
end

