-- ==== Sys2Proof/Machine/Dispatch.lean ====
section
/-!
DEFINITION. `exec`: one arm for each constructor of `Instr`, in the order of spec/opcode_table.json.
-/

namespace Sys2Proof.Machine

def exec (i : Instr) (s : State) : Host.Outcome State Fault Refusal :=
  match i with
  | .colLo n => Sys2Proof.Machine.execColLo n s
  | .colHi n => Sys2Proof.Machine.execColHi n s
  | .ratio r => Sys2Proof.Machine.execRatio r s
  | .pwr1 => Sys2Proof.Machine.execPwr1 s
  | .pwr2 => Sys2Proof.Machine.execPwr2 s
  | .pwr3 => Sys2Proof.Machine.execPwr3 s
  | .startLine l => Sys2Proof.Machine.execStartLine l s
  | .evSet => Sys2Proof.Machine.execEvSet s
  | .scanNormal => Sys2Proof.Machine.execScanNormal s
  | .scanReverse => Sys2Proof.Machine.execScanReverse s
  | .bias19 => Sys2Proof.Machine.execBias19 s
  | .bias17 => Sys2Proof.Machine.execBias17 s
  | .allptsNormal => Sys2Proof.Machine.execAllptsNormal s
  | .allptsOn => Sys2Proof.Machine.execAllptsOn s
  | .dispNormal => Sys2Proof.Machine.execDispNormal s
  | .dispReverse => Sys2Proof.Machine.execDispReverse s
  | .sleep => Sys2Proof.Machine.execSleep s
  | .wake => Sys2Proof.Machine.execWake s
  | .dispOff => Sys2Proof.Machine.execDispOff s
  | .dispOn => Sys2Proof.Machine.execDispOn s
  | .page n => Sys2Proof.Machine.execPage n s
  | .comNormal => Sys2Proof.Machine.execComNormal s
  | .comReverse => Sys2Proof.Machine.execComReverse s
  | .intReset => Sys2Proof.Machine.execIntReset s
  | .evParam b => Sys2Proof.Machine.execEvParam b s
  | .data b => Sys2Proof.Machine.execData b s
  | .construct => Sys2Proof.Machine.execConstruct s
  | .reset => Sys2Proof.Machine.execReset s
  | .setPixelData payload => Sys2Proof.Machine.execSetPixelData payload s
  | .flush => Sys2Proof.Machine.execFlush s
  | .draw => Sys2Proof.Machine.execDraw s
  | .setDisplayMode sel => Sys2Proof.Machine.execSetDisplayMode sel s
  | .setDisplayColor sel => Sys2Proof.Machine.execSetDisplayColor sel s
  | .setContrast arg => Sys2Proof.Machine.execSetContrast arg s
  | .setContrastDetail arg => Sys2Proof.Machine.execSetContrastDetail arg s
  | .setSleepMode sel => Sys2Proof.Machine.execSetSleepMode sel s
  | .setPageAddress arg => Sys2Proof.Machine.execSetPageAddress arg s
  | .setColumnAddress arg => Sys2Proof.Machine.execSetColumnAddress arg s
  | .release => Sys2Proof.Machine.execRelease s

end Sys2Proof.Machine
end

