-- ==== Sys2Proof/Machine/Fetch.lean ====
section
/-!
DEFINITION. Taking the next input: a request or a byte is decoded and executed, a new sequencer comes into being. The
machine fetches no program of its own (10_state R28): what it runs is what arrives.
-/

namespace Sys2Proof.Machine

/-- A request whose predecessor has returned: decoded and executed, or refused if its word is malformed (30_encoding
R97, R98). -/
def stepRequest (w : ReqWord) (payload : List Byte) (s : State) : Host.Outcome State Fault Refusal :=
  match decodeRequest w payload with
  | .ok i => exec i s
  | .error _ => .refused (.malformedRequest w)

/-- A byte handed to the controller: decoded in its context and executed, or, undefined, received as such (43 R180,
R209). -/
def stepByte (m : Level) (b : Byte) (s : State) : Host.Outcome State Fault Refusal :=
  match s.lcdc.decodeFor (.driven m) b with
  | some i => exec i s
  | none => s.received s.lcdc.undefinedByte

/-- One input, the inbox already without it. A request that overlaps the one before it is refused (60_exceptions R231). -/
def stepInput (x : Input) (s : State) : Host.Outcome State Fault Refusal :=
  match x with
  | .request w payload => stepRequest w payload s
  | .overlapping _ _ => .refused .busy
  | .busByte m b => stepByte m b s
  | .powerOn binding others lcdcFresh => acceptPowerOn s binding others lcdcFresh

end Sys2Proof.Machine
end

