-- ==== Sys2Proof/Machine/Step.lean ====
section
/-!
DEFINITION. One step: the oldest pending input is taken and handled (00_scope R10).
-/

namespace Sys2Proof.Machine

/-- One step. With nothing pending the machine waits (20_memory R68). -/
def step (s : State) : Host.Outcome State Fault Refusal :=
  match s.env.inbox with
  | [] => .next s
  | x :: rest => stepInput x (s.withInbox rest)

/-- The state with an instruction's bits where the step takes its next input from: at the head of the inbox (log 10).
For a byte in command space the controller's decoder is put in the byte's context (30_encoding R92). -/
def State.withFetchWord (s : State) (nbits w : Nat) : State :=
  match tableEncoded nbits w with
  | some (.byte .command b) =>
    { s with
      lcdc := { s.lcdc with evPending := .known false }
      env := { s.env with inbox := .busByte Config.params.dcCommand b :: s.env.inbox } }
  | some (.byte .parameter b) =>
    { s with
      lcdc := { s.lcdc with evPending := .known true }
      env := { s.env with inbox := .busByte Config.params.dcCommand b :: s.env.inbox } }
  | some (.byte .data b) => { s with env := { s.env with inbox := .busByte Config.params.dcData b :: s.env.inbox } }
  | some (.request w payload) => { s with env := { s.env with inbox := .request w payload :: s.env.inbox } }
  | none => s

end Sys2Proof.Machine
end

