-- ==== Sys2Proof/Safety.lean ====
section
/-!
DEFINITION. What counts as a safe run, in the terms the statements use: what an event trace says about the pins, the bus
and the controller (00_scope R8), the traces the rules write out, which bytes an operation may put on the bus (43
R211), and the invariants.
-/

namespace Sys2Proof.Machine

/-! ## Reading a trace -/

/-- The level a pin was last driven to by a trace that began with the latch at `l` (10_state R23, R24). -/
def levelAfter (pin : CtlPin) (l : Latch) : List Event → Latch
  | [] => l
  | .setPin q v :: es => levelAfter pin (if q = pin then .driven v else l) es
  | .pinDir _ :: es | .busOpen _ _ :: es | .transmit _ _ :: es | .delay _ :: es | .busClose :: es =>
    levelAfter pin l es

/-- Whether the bus is held after a trace (10_state R26). -/
def busAfter (b : BusState) : List Event → BusState
  | [] => b
  | .busOpen _ .ok :: es => busAfter .opened es
  | .busClose :: es => busAfter .closed es
  | .busOpen _ .fail :: es | .pinDir _ :: es | .setPin _ _ :: es | .transmit _ _ :: es | .delay _ :: es => busAfter b es

/-- Both control pins have been made outputs by the trace (10_state R25). -/
def pinsOutputBy (es : List Event) : Bool := es.contains (.pinDir .dc) && es.contains (.pinDir .rst)

/-- Whether the reset pin has been released and no transfer has failed since (43 R212 (3)), for a trace that began with
the reset latch at `l` and the answer `known`. -/
def knownAfter (l : Latch) (known : Bool) : List Event → Bool
  | [] => known
  | .setPin .rst .low :: es => knownAfter (.driven .low) false es
  | .setPin .rst .high :: es => knownAfter (.driven .high) (known || l != .driven .high) es
  | .transmit _ .fail :: es => knownAfter l false es
  | .transmit _ .ok :: es | .setPin .dc _ :: es | .pinDir _ :: es | .busOpen _ _ :: es | .delay _ :: es
  | .busClose :: es => knownAfter l known es

/-- The tagged byte stream of a trace that began with DC at `m` (00_scope R8): each byte of each transfer answered `ok`,
with the level of DC when the transfer was issued. -/
def taggedStream (m : Latch) : List Event → List (Latch × Byte)
  | [] => []
  | .transmit bytes .ok :: es => bytes.map (fun b => (m, b)) ++ taggedStream m es
  | .setPin .dc v :: es => taggedStream (.driven v) es
  | .transmit _ .fail :: es | .setPin .rst _ :: es | .pinDir _ :: es | .busOpen _ _ :: es | .delay _ :: es
  | .busClose :: es => taggedStream m es

/-- The events that carry an answer, one each for `BusOpen` and `Transmit` (00_scope R10). -/
def Event.answer? : Event → Option Answer
  | .busOpen _ a | .transmit _ a => some a
  | .pinDir _ | .setPin _ _ | .delay _ | .busClose => none

/-- How many answers a trace consumed. -/
def answersIn (es : List Event) : Nat := es.countP (fun e => e.answer?.isSome)

/-- A trace contains an answer `fail`. -/
def hasFailure (es : List Event) : Bool := es.any (fun e => e.answer? == some .fail)

/-- A trace cut at its k-th answered event, counted from 1, whose answer becomes `fail`: what is left of a successful
trace when answer k is the first `fail` (40 R127, 41 R145). -/
def failAt : Nat → List Event → List Event
  | _, [] => []
  | k, .busOpen cfg a :: es => if k = 1 then [.busOpen cfg .fail] else .busOpen cfg a :: failAt (k - 1) es
  | k, .transmit bytes a :: es => if k = 1 then [.transmit bytes .fail] else .transmit bytes a :: failAt (k - 1) es
  | k, .pinDir p :: es => .pinDir p :: failAt k es
  | k, .setPin p v :: es => .setPin p v :: failAt k es
  | k, .delay t :: es => .delay t :: failAt k es
  | k, .busClose :: es => .busClose :: failAt k es

/-! ## Answer streams -/

/-- The next n answers are `ok`. -/
def AnswersOk (s : State) (n : Nat) : Prop := ∀ k < n, s.env.answerAt (s.env.consumed + k) = .ok

/-- Of the coming answers, number j, counted from 1, is the first `fail`. -/
def FirstFail (s : State) (j : Nat) : Prop :=
  1 ≤ j ∧ AnswersOk s (j - 1) ∧ s.env.answerAt (s.env.consumed + (j - 1)) = .fail

/-! ## The traces the rules write out -/

/-- `SetPin(DC, 0)`, `Transmit([b])` answered `ok` (20_memory R70). -/
def commandEvents (b : Byte) : List Event := [.setPin .dc .low, .transmit [b] .ok]

/-- `SetPin(DC, 1)`, `Transmit(bytes)` answered `ok` (20_memory R71). -/
def dataEvents (bytes : List Byte) : List Event := [.setPin .dc .high, .transmit bytes .ok]

/-- The 14 bytes of the initialisation sequence (40 R128). -/
def initBytes : List Byte := [0xAE, 0xA0, 0xC8, 0xA3, 0x2C, 0x2E, 0x2F, 0x23, 0x81, 0x1C, 0xA4, 0x40, 0xA6, 0xAF]

/-- The 34 events of a successful CONSTRUCT (40 R128). -/
def initTrace (cfg : BusConfig) : List Event :=
  [.pinDir .rst, .pinDir .dc, .setPin .rst .high, .busOpen cfg .ok] ++
  commandEvents 0xAE ++ commandEvents 0xA0 ++ commandEvents 0xC8 ++ commandEvents 0xA3 ++
  commandEvents 0x2C ++ [.delay 2000] ++ commandEvents 0x2E ++ [.delay 2000] ++ commandEvents 0x2F ++
  commandEvents 0x23 ++ commandEvents 0x81 ++ commandEvents 0x1C ++
  commandEvents 0xA4 ++ commandEvents 0x40 ++ commandEvents 0xA6 ++ commandEvents 0xAF

/-- The eight events of one page of DRAW (41 R143). -/
def pageTrace (pageCommand : Byte) (row : List Byte) : List Event :=
  commandEvents pageCommand ++ commandEvents 0x10 ++ commandEvents 0x00 ++ dataEvents row

/-- The 48 events of a successful DRAW of six rows of bytes (41 R143). -/
def drawTrace (rows : Nat → List Byte) : List Event :=
  pageTrace 0xB0 (rows 0) ++ pageTrace 0xB1 (rows 1) ++ pageTrace 0xB2 (rows 2) ++
  pageTrace 0xB3 (rows 3) ++ pageTrace 0xB4 (rows 4) ++ pageTrace 0xB5 (rows 5)

/-- The shadow after a successful CONSTRUCT (43 R212, the middle column of 10_state R49). -/
def Lcdc.displayable : Lcdc :=
  { Lcdc.allUnknown with
    lcdcKnown := true, displayOn := .known true, scanReverse := .known false, comReverse := .known true
    bias := .known true, power := .known .stage3, ratio := .known 3, ev := .known 0x1C, evPending := .known false
    allPoints := .known false, startLine := .known 0, reverse := .known false }

/-! ## What an operation adds to the environment -/

/-- The environment after an operation that emitted these events, and returned this result. -/
def Env.extended (e : Env) (es : List Event) (r : Result) : Env :=
  { e with consumed := e.consumed + answersIn es, events := e.events ++ es, results := e.results ++ [r] }

/-- The state after a runtime operation that sent these command-space bytes with success, the controller being left in
this shadow (20_memory R70, 42 R167). -/
def State.sent (s : State) (bytes : List Byte) (c : Lcdc) : State where
  seq := { s.seq with dc := .driven .low }
  lcdc := c
  env := s.env.extended (bytes.flatMap commandEvents) .ok

/-- The state after a runtime operation whose last event of these was a failed transfer, DC being left at this level (60
R225). -/
def State.aborted (s : State) (es : List Event) (dc : Level) : State where
  seq := { s.seq with dc := .driven dc }
  lcdc := Lcdc.allUnknown
  env := s.env.extended es .errTransport

/-- The state after a validation error (60 R221): only the result is new. -/
def State.rejected (s : State) : State := { s with env := s.env.extended [] .errValidation }

/-- What a command byte does (43 R181 to R204): in its context it is read as this instruction, and changes the shadow by
this effect and nothing else, whether executed or received by a step (the input that hands a step a bare byte is log
9). -/
def CommandDoes (b : Byte) (i : Instr) (effect : Lcdc → Lcdc) : Prop :=
  decode (.byte .command b) = .ok i ∧
  ∀ s : State, s.lcdc.lcdcKnown = true → s.lcdc.evPending = .known false →
    exec i s = .next { s with lcdc := effect s.lcdc } ∧
    ∀ rest, s.env.inbox = .busByte .low b :: rest →
      step s = .next { s with lcdc := effect s.lcdc, env := { s.env with inbox := rest } }

/-! ## What may be put on the bus -/

/-- The command bytes some operation sends (43 R211), the parameter byte apart. -/
def sentCommand (b : Byte) : Bool :=
  b ≤ 0x27 || [0x2C, 0x2E, 0x2F, 0x40, 0x81, 0xA0, 0xA3, 0xA4, 0xA6, 0xA7, 0xAB, 0xAC, 0xAE, 0xAF, 0xC8].contains b ||
  (0xB0 ≤ b && b ≤ 0xBF)

/-- The closure rule 43 R211 on the trace of one operation: in command space one byte a transfer, directly after 0x81 a
parameter of at most 0x3F, otherwise a command some operation sends; in data space exactly 128 bytes, directly after
PAGE p, COL_HI 0, COL_LO 0 with p at most 5. `recent` holds the command-space bytes since the last data, newest first. -/
def closureHolds (recent : List Byte) (dc : Latch) : List Event → Bool
  | [] => true
  | .setPin .dc v :: es => closureHolds recent (.driven v) es
  | .transmit bytes _ :: es =>
    match dc with
    | .driven .low =>
      match bytes with
      | [b] => (if recent.head? = some 0x81 then b ≤ 0x3F else sentCommand b) && closureHolds (b :: recent) dc es
      | _ => false
    | .driven .high =>
      match recent with
      | lo :: hi :: pg :: _ =>
        bytes.length == 128 && lo == 0x00 && hi == 0x10 && (0xB0 ≤ pg && pg ≤ 0xB5) && closureHolds [] dc es
      | _ => false
    | .x => false
  | .setPin .rst _ :: es | .pinDir _ :: es | .busOpen _ _ :: es | .delay _ :: es | .busClose :: es =>
    closureHolds recent dc es

/-- Every transfer directly follows a write of the mode-select pin (70 R260). -/
def pinBeforeTransfers (justSet : Bool) : List Event → Bool
  | [] => true
  | .setPin .dc _ :: es => pinBeforeTransfers true es
  | .transmit _ _ :: es => justSet && pinBeforeTransfers false es
  | .setPin .rst _ :: es | .pinDir _ :: es | .busOpen _ _ :: es | .delay _ :: es | .busClose :: es =>
    pinBeforeTransfers false es

/-- At most one answer of a trace is `fail`, and then nothing follows it (60 R222). -/
def failureEndsTrace : List Event → Bool
  | [] => true
  | e :: es => if e.answer? = some .fail then es.isEmpty else failureEndsTrace es

/-- The longest trace of each host operation (70 R265). -/
def maxEvents : Instr → Nat
  | .construct => 34
  | .draw | .flush => 48
  | .setContrastDetail _ | .setColumnAddress _ => 4
  | .reset => 3
  | .setDisplayMode _ | .setDisplayColor _ | .setContrast _ | .setSleepMode _ | .setPageAddress _ => 2
  | .release => 1
  | .setPixelData _ => 0
  | .colLo _ | .colHi _ | .ratio _ | .pwr1 | .pwr2 | .pwr3 | .startLine _ | .evSet | .scanNormal | .scanReverse
  | .bias19 | .bias17 | .allptsNormal | .allptsOn | .dispNormal | .dispReverse | .sleep | .wake | .dispOff | .dispOn
  | .page _ | .comNormal | .comReverse | .intReset | .evParam _ | .data _ => 0

/-- The table of 60 R231: which host operation is accepted in which lifecycle state. -/
def acceptedIn : Instr → Life → Bool
  | .construct, l => l == .unbuilt
  | .release, l => l == .ready || l == .failed
  | .reset, l | .setPixelData _, l | .flush, l | .draw, l | .setDisplayMode _, l | .setDisplayColor _, l
  | .setContrast _, l | .setContrastDetail _, l | .setSleepMode _, l | .setPageAddress _, l
  | .setColumnAddress _, l => l == .ready
  | .colLo _, _ | .colHi _, _ | .ratio _, _ | .pwr1, _ | .pwr2, _ | .pwr3, _ | .startLine _, _ | .evSet, _
  | .scanNormal, _ | .scanReverse, _ | .bias19, _ | .bias17, _ | .allptsNormal, _ | .allptsOn, _ | .dispNormal, _
  | .dispReverse, _ | .sleep, _ | .wake, _ | .dispOff, _ | .dispOn, _ | .page _, _ | .comNormal, _ | .comReverse, _
  | .intReset, _ | .evParam _, _ | .data _, _ => false

/-! ## What each host operation sends -/

/-- Bytes as they stand in a tagged byte stream, in command space (`C:`) and in data space (`D:`). -/
def inCommandSpace (bytes : List Byte) : List (Latch × Byte) := bytes.map (fun b => (.driven .low, b))
def inDataSpace (bytes : List Byte) : List (Latch × Byte) := bytes.map (fun b => (.driven .high, b))

/-- The stream of six pages of rows: page address, column address 0, the 128 bytes of the row (30_encoding R102). -/
def pagesStream (rows : Nat → List Byte) : List (Latch × Byte) :=
  (List.range 6).flatMap fun p => inCommandSpace [0xB0 ||| BitVec.ofNat 8 p, 0x10, 0x00] ++ inDataSpace (rows p)

/-- The tagged byte stream of each host operation when every transfer succeeds: the table of 30_encoding R102. -/
def expansion (s : State) : Instr → List (Latch × Byte)
  | .construct => inCommandSpace [0xAE, 0xA0, 0xC8, 0xA3, 0x2C, 0x2E, 0x2F, 0x23, 0x81, 0x1C, 0xA4, 0x40, 0xA6, 0xAF]
  | .reset => []
  | .setPixelData _ => []
  | .flush => pagesStream (fun _ => List.replicate 128 0x00)
  | .draw => pagesStream s.fbPage
  | .setDisplayMode .on => inCommandSpace [0xAF]
  | .setDisplayMode .off => inCommandSpace [0xAE]
  | .setDisplayColor .normal => inCommandSpace [0xA6]
  | .setDisplayColor .inverted => inCommandSpace [0xA7]
  | .setContrast r => inCommandSpace [0x20 ||| r]
  | .setContrastDetail v => inCommandSpace [0x81, v]
  | .setSleepMode .enabled => inCommandSpace [0xAB]
  | .setSleepMode .disabled => inCommandSpace [0xAC]
  | .setPageAddress n => inCommandSpace [0xB0 ||| n]
  | .setColumnAddress c => inCommandSpace [0x10 ||| (c >>> 4), 0x00 ||| (c &&& 0x0F)]
  | .release => []
  | .colLo _ | .colHi _ | .ratio _ | .pwr1 | .pwr2 | .pwr3 | .startLine _ | .evSet | .scanNormal | .scanReverse
  | .bias19 | .bias17 | .allptsNormal | .allptsOn | .dispNormal | .dispReverse | .sleep | .wake | .dispOff | .dispOn
  | .page _ | .comNormal | .comReverse | .intReset | .evParam _ | .data _ => []

/-! ## Invariants -/

/-- What every step keeps, whatever arrives. -/
structure Inv (s : State) : Prop where
  /-- the framebuffer is in canonical form, inside 768 bytes (20_memory R61) -/
  fb : s.seq.fb.wf = true ∧ s.seq.fb.below Config.params.fbSize = true
  /-- the display RAM is in canonical form, inside the 6 x 128 window (10_state R34) -/
  ddram : s.lcdc.ddram.wf = true ∧ s.lcdc.ddram.below Config.params.fbSize = true
  /-- nothing has happened to a sequencer before its CONSTRUCT (10_state R49) -/
  unbuilt : s.seq.life = .unbuilt → s.seq = Seq.powerOn s.seq.binding
  /-- ever after the pins are outputs and RST is high (10_state R24, R25, 43 R212 (1)) -/
  built : s.seq.life ≠ .unbuilt → s.seq.pinOut = true ∧ s.seq.rst = .driven .high
  /-- a READY sequencer holds the bus, and DC has been driven (10_state R26, R49) -/
  ready : s.seq.life = .ready → s.seq.bus = .opened ∧ s.seq.dc ≠ .x
  /-- a RELEASED one does not hold it (40 R129) -/
  released : s.seq.life = .released → s.seq.bus = .closed
  /-- `lcdc_known` = 0 means that everything is unknown (10_state R46) -/
  forgotten : s.lcdc.lcdcKnown = false → s.lcdc = Lcdc.allUnknown
  /-- whenever `lcdc_known` = 1, `ev_pending` is 0 or 1, never unknown (43 R180) -/
  decoding : s.lcdc.lcdcKnown = true → s.lcdc.evPending ≠ .unknown

/-- The latches, `pin_out` and `bus` are what the trace of the instance says (10_state R23 to R26). -/
structure TraceFaithful (s : State) : Prop where
  dc : s.seq.dc = levelAfter .dc .x s.env.events
  rst : s.seq.rst = levelAfter .rst .x s.env.events
  pinOut : s.seq.pinOut = pinsOutputBy s.env.events
  bus : s.seq.bus = busAfter .closed s.env.events

/-- The input comes from the HOST or is a power-on: not a byte handed to the controller behind the sequencer. -/
def Input.isHosts : Input → Bool
  | .request _ _ | .overlapping _ _ | .powerOn _ _ _ => true
  | .busByte _ _ => false

/-- The invariants at operation boundaries (43 R212), of a run in which only the sequencer talks to its controller (70
R258). -/
structure Boundary (s : State) : Prop where
  /-- only the HOST's requests are pending -/
  hosts : s.env.inbox.all Input.isHosts = true
  /-- the reset latch is the trace's -/
  rst : s.seq.rst = levelAfter .rst .x s.env.events
  /-- R212 (2): no parameter is awaited -/
  pending : s.lcdc.lcdcKnown = true → s.lcdc.evPending = .known false
  /-- R212 (3): under LCDC_FRESH, the shadow is known exactly if the reset pin has been released and no transfer has
  failed since -/
  known : s.env.lcdcFresh = true → s.lcdc.lcdcKnown = knownAfter .x false s.env.events

end Sys2Proof.Machine
end

