-- ==== Sys2Proof/Certificates/Slice0/Obligations.lean ====
section
/-!
DEFINITION. The statements for the provers. Each docstring names the rule of spec/ it formalises.
-/

open Sys2Proof Sys2Proof.Machine

/-! ## Reset and invariants -/

/-- 10_state R49, first column, and 70 R251: the state before CONSTRUCT. (The framebuffer's contents are unspecified:
nothing is listed.) That the framebuffer is unspecified, the pins X and the controller unknown are the spec's own
choices (92 D9, D19, D23, log 29), and listing nothing for it is log 3. -/
def Obligations.ResetIsBeforeConstruct : Prop :=
  State.reset.seq.life = .unbuilt ∧ State.reset.seq.fb = [] ∧ State.reset.seq.dc = .x ∧ State.reset.seq.rst = .x ∧
  State.reset.seq.pinOut = false ∧ State.reset.seq.bus = .closed ∧
  State.reset.lcdc.lcdcKnown = false ∧ State.reset.lcdc.pa = .unknown ∧ State.reset.lcdc.ca = .unknown ∧
  (∀ p c, State.reset.lcdc.cell p c = .unknown) ∧ State.reset.lcdc.displayOn = .unknown ∧
  State.reset.lcdc.reverse = .unknown ∧ State.reset.lcdc.allPoints = .unknown ∧
  State.reset.lcdc.scanReverse = .unknown ∧ State.reset.lcdc.comReverse = .unknown ∧
  State.reset.lcdc.bias = .unknown ∧ State.reset.lcdc.power = .unknown ∧ State.reset.lcdc.ratio = .unknown ∧
  State.reset.lcdc.ev = .unknown ∧ State.reset.lcdc.evPending = .unknown ∧ State.reset.lcdc.sleep = .unknown ∧
  State.reset.lcdc.startLine = .unknown

/-- The reset state meets the invariants the steps keep. They rest on the choices StepKeepsInvariant,
StepKeepsTraceFaithful and StepKeepsOperationBoundary name (92 D14, D18, D19, D23, D26, D27; logs 2, 3, 7, 9, 19). -/
def Obligations.ResetMeetsInvariants : Prop :=
  Inv State.reset ∧ TraceFaithful State.reset ∧ Boundary State.reset

/-- Every step, whatever arrives, keeps `Inv`: the two memories in canonical form and inside their bounds, the pins and
the bus as the lifecycle state says, and the shadow all unknown when `lcdc_known` is 0 (10_state R21 to R26, R34, R46).
That the pins and the bus stay so after RELEASE (92 D14), that the shadow keeps a 6 x 128 window (D18) and that its
decoder is idle after a release of the pin (D27) are the spec's own choices (log 29); that a forgotten shadow is
written unknown is log 2, the form of the memories log 3, the power-on log 14. -/
def Obligations.StepKeepsInvariant : Prop :=
  ∀ s t : State, Inv s → step s = .next t → Inv t

/-- Every step keeps DC, RST, pin_out and bus equal to what the event trace says (10_state R23 to R26). That DC is X at
first (92 D23), that a pin write and BusClose cannot fail (D26), and that the pins stay outputs (D14) are the spec's
own choices (log 29); that the trace stands in the state is log 19. -/
def Obligations.StepKeepsTraceFaithful : Prop :=
  ∀ s t : State, TraceFaithful s → step s = .next t → TraceFaithful t

/-- 43 R212 (2) and (3) at every operation boundary of a run in which only the HOST drives the sequencer. That a
release of the reset pin makes the shadow known (92 D27, log 7) and a failed transfer unknown (D19) are the spec's own
choices (log 29); the input the premise excludes is log 9. -/
def Obligations.StepKeepsOperationBoundary : Prop :=
  ∀ s t : State, Boundary s → step s = .next t → Boundary t

/-- 10_state R46: "a model that will not take it keeps `lcdc_known = 0` throughout". Without the premise LCDC_FRESH
(log 7) no step but the power-on of another instance makes anything known. The premise is the spec's own (92 D27). -/
def Obligations.WithoutFreshPremiseNothingIsKnown : Prop :=
  ∀ s t : State, s.env.lcdcFresh = false → s.lcdc.lcdcKnown = false → step s = .next t →
    t.lcdc.lcdcKnown = false ∧
      (t.env.lcdcFresh = false ∨ ∃ b o rest, s.env.inbox = .powerOn b o true :: rest)

/-- A new instance comes into being in the state before CONSTRUCT (70 R250, R251, 10_state R50). That it takes the
place of one that was never constructed or has been released and is refused over a READY or FAILED one, that it starts
a new trace and new results, and that the answers go on, are the model's choice (log 14); that `instanceNo` steps by
one is its choice too (log 3). One CONSTRUCT for each instance is the spec's own choice (92 D15). -/
def Obligations.PowerOnGivesFreshInstance : Prop :=
  ∀ (s : State) (b : Binding) (o : List Binding) (f : Bool) (rest : List Input),
    s.env.inbox = .powerOn b o f :: rest →
    ((s.seq.life = .unbuilt ∨ s.seq.life = .released) →
      step s = .next
        { seq := Seq.powerOn b, lcdc := Lcdc.allUnknown
          env := { s.env with
            inbox := rest, events := [], results := [], others := o, lcdcFresh := f
            instanceNo := s.env.instanceNo + 1 } }) ∧
    (s.seq.life = .ready → step s = .refused (.liveInstance .ready)) ∧
    (s.seq.life = .failed → step s = .refused (.liveInstance .failed))

/-! ## Encodings -/

/-- Decoding the encoding of an instruction gives it back, every operand at every value (30_encoding R91, R95, R97).
The encoding of requests (92 D2, D3) and the 6-bit start line (D17, log 21) are the spec's own choices (log 29). -/
def Obligations.DecodeOfEncode : Prop :=
  ∀ i : Instr, i.wellFormed = true → decode (encode i) = .ok i

/-- What decodes is an encoding: the bits of the instruction read are the bits given, the payload port counting for
SET_PIXEL_DATA alone (30_encoding R97, 92 D2; that bytes beside another operation are not looked at is the model's
choice, log 11). The encoding of requests (92 D2, D3) and the 6-bit start line (D17, log 21) are the spec's own choices
(log 29). -/
def Obligations.EncodeOfDecode : Prop :=
  (∀ ctx b i, decode (.byte ctx b) = .ok i → encode i = .byte ctx b) ∧
  (∀ w payload i, decode (.request w payload) = .ok i →
    encode i = .request w (if w = 0x2000 then payload else []))

/-- Words written out from 30_encoding R95 and R97 decode to what they stand for. The encoding of requests (92 D2, D3)
is the spec's own choice (log 29). -/
def Obligations.HandEncodedWordsDecode : Prop :=
  decode (.byte .command 0b10110101) = .ok (.page 5) ∧ decode (.byte .command 0b00011100) = .ok (.colHi 12) ∧
  decode (.byte .parameter 0b00011100) = .ok (.evParam 28) ∧ decode (.byte .data 0b00011100) = .ok (.data 28) ∧
  decode (.byte .command 0b00100011) = .ok (.ratio 3) ∧ decode (.byte .command 0b11001000) = .ok .comReverse ∧
  decode (.byte .command 0b01000000) = .ok (.startLine 0) ∧
  decode (.request 0b1000000000011100 []) = .ok (.setContrastDetail 28) ∧
  decode (.request 0b1011000010101011 []) = .ok (.setColumnAddress 171) ∧
  decode (.request 0b1001000000000001 []) = .ok (.setSleepMode .enabled) ∧
  decode (.request 0b0100000000000000 []) = .ok .draw

/-- 30_encoding R95: the reserved command bytes are exactly the ranges the map marks reserved, 117 of 256. That 0x41 to 0x7F
are not among them, and so the count, rests on the 6-bit start line the spec presumes (92 D17, 93 G1, log 21). -/
def Obligations.ReservedCommandBytesAreTheMaps : Prop :=
  (∀ b : Byte, decode (.byte .command b) = .error (.reservedCommand b) ↔
    (0x28 ≤ b ∧ b ≤ 0x2B) ∨ b = 0x2D ∨ (0x30 ≤ b ∧ b ≤ 0x3F) ∨ b = 0x80 ∨ (0x82 ≤ b ∧ b ≤ 0x9F) ∨
    (0xA8 ≤ b ∧ b ≤ 0xAA) ∨ b = 0xAD ∨ (0xC1 ≤ b ∧ b ≤ 0xC7) ∨ (0xC9 ≤ b ∧ b ≤ 0xE1) ∨ 0xE3 ≤ b) ∧
  ((List.range 256).filter
    (fun n => decode (.byte .command (BitVec.ofNat 8 n)) = .error (.reservedCommand (BitVec.ofNat 8 n)))).length = 117

/-- 30_encoding R98: a request word that matches no row (a reserved operation code, bits 11..8 not zero, operand bits
on an operation without operand, bits 7..1 on a two-valued one) is refused as malformed, in every state; every other
word decodes. That such a word is refused, and returns no result code, is the spec's own choice (92 D13, log 29), as
the encoding is (D2, D3). -/
def Obligations.MalformedRequestsAreRefused : Prop :=
  ∀ (op mid : BitVec 4) (arg : Byte) (payload : List Byte) (rest : List Input) (s : State),
    let w : ReqWord := op ++ mid ++ arg
    let malformed := 0xD ≤ op ∨ mid ≠ 0 ∨ ((op ≤ 4 ∨ op = 0xC) ∧ arg ≠ 0) ∨ ((op = 5 ∨ op = 6 ∨ op = 9) ∧ 1 < arg)
    (malformed → s.env.inbox = .request w payload :: rest → step s = .refused (.malformedRequest w)) ∧
    (¬ malformed → ∃ i, decode (.request w payload) = .ok i)

/-! ## The step -/

/-- A step runs the decoded instruction: a pending request, or a byte in the context the shadow gives it (30_encoding
R92), is executed as the instruction it decodes to, off the inbox; with nothing pending the machine waits. That what
arrives is a list of inputs of which a step takes the oldest (log 8), and that a bare byte is such an input (log 9),
are the model's choices. That a request is such a word is the spec's own (92 D2, log 29). -/
def Obligations.StepRunsDecoded : Prop :=
  (∀ (s : State) (w : ReqWord) (payload : List Byte) (rest : List Input) (i : Instr),
    s.env.inbox = .request w payload :: rest → decode (.request w payload) = .ok i →
      step s = exec i { s with env := { s.env with inbox := rest } }) ∧
  (∀ (s : State) (m : Level) (b : Byte) (rest : List Input) (ctx : ByteContext) (i : Instr),
    s.env.inbox = .busByte m b :: rest → contextOf (.driven m) s.lcdc.evPending = some ctx →
    decode (.byte ctx b) = .ok i → step s = exec i { s with env := { s.env with inbox := rest } }) ∧
  (∀ s : State, s.env.inbox = [] → step s = .next s)

/-- 60 R231: a host operation in a lifecycle state that does not accept it is refused; one issued before the previous
one has returned is refused in any state; an accepted one completes, and so does a CONSTRUCT if its configuration
overlaps no other live instance's (R234) and, by the model's choice (log 26), its own pins are distinct. That the rest
is refused (92 D13), that RELEASE is accepted in FAILED (D14) and CONSTRUCT in UNBUILT alone (D15) are the spec's own
choices (log 29); that an overlapping request is an input of its own is the model's (log 13). -/
def Obligations.LifecycleGatesRequests : Prop :=
  (∀ (i : Instr) (s : State), i.isHostOperation = true →
    (acceptedIn i s.seq.life = false → exec i s = .refused (.lifecycle s.seq.life)) ∧
    (acceptedIn i s.seq.life = true → (i = .construct → s.bindingFree = true) → ∃ t, exec i s = .next t)) ∧
  (∀ (s : State) (w : ReqWord) (payload : List Byte) (rest : List Input),
    s.env.inbox = .overlapping w payload :: rest → step s = .refused .busy)

/-- A CONSTRUCT whose configuration shares a pin or the bus peripheral with another live instance is refused (60 R234, 93
U14). That one whose own pins repeat is refused as well is the model's choice, deduced from 00_scope R5 (log 26). It
completes exactly when it does neither. -/
def Obligations.ConstructRefusesOverlappingConfiguration : Prop :=
  ∀ s : State, s.seq.life = .unbuilt →
    ((¬ s.seq.binding.pins.Nodup ∨
      ∃ o ∈ s.env.others, (∃ p ∈ s.seq.binding.pins, p ∈ o.pins) ∨ s.seq.binding.busInstance = o.busInstance) →
      exec .construct s = .refused .bindingConflict) ∧
    ((s.seq.binding.pins.Nodup ∧
      ∀ o ∈ s.env.others, (∀ p ∈ s.seq.binding.pins, p ∉ o.pins) ∧ s.seq.binding.busInstance ≠ o.busInstance) →
      ∃ t, exec .construct s = .next t)

/-! ## Controller commands -/

/-- 43 R181, R182, R185 to R188: each writes its one-bit register and nothing else. Which register a name means is the
spec's own reading (92 D16). That a step receives a byte so is the model's input (log 9). -/
def Obligations.DisplayCommandsWriteOneBit : Prop :=
  CommandDoes 0xAE .dispOff (fun c => { c with displayOn := .known false }) ∧
  CommandDoes 0xAF .dispOn (fun c => { c with displayOn := .known true }) ∧
  CommandDoes 0xA6 .dispNormal (fun c => { c with reverse := .known false }) ∧
  CommandDoes 0xA7 .dispReverse (fun c => { c with reverse := .known true }) ∧
  CommandDoes 0xA4 .allptsNormal (fun c => { c with allPoints := .known false }) ∧
  CommandDoes 0xA5 .allptsOn (fun c => { c with allPoints := .known true })

/-- 43 R183, R184, R189, R190, R192, R193, R200, R201, again by the spec's own reading of the names (92 D16). That a
step receives a byte so is the model's input (log 9). -/
def Obligations.ModeCommandsWriteOneBit : Prop :=
  CommandDoes 0xA0 .scanNormal (fun c => { c with scanReverse := .known false }) ∧
  CommandDoes 0xA1 .scanReverse (fun c => { c with scanReverse := .known true }) ∧
  CommandDoes 0xA2 .bias19 (fun c => { c with bias := .known false }) ∧
  CommandDoes 0xA3 .bias17 (fun c => { c with bias := .known true }) ∧
  CommandDoes 0xAB .sleep (fun c => { c with sleep := .known true }) ∧
  CommandDoes 0xAC .wake (fun c => { c with sleep := .known false }) ∧
  CommandDoes 0xC0 .comNormal (fun c => { c with comReverse := .known false }) ∧
  CommandDoes 0xC8 .comReverse (fun c => { c with comReverse := .known true })

/-- 43 R202 to R204, again by the spec's own reading of the names (92 D16). That a step receives a byte so is the
model's input (log 9). -/
def Obligations.PowerCommandsWriteStage : Prop :=
  CommandDoes 0x2C .pwr1 (fun c => { c with power := .known .stage1 }) ∧
  CommandDoes 0x2E .pwr2 (fun c => { c with power := .known .stage2 }) ∧
  CommandDoes 0x2F .pwr3 (fun c => { c with power := .known .stage3 })

/-- 43 R194, R196: the contrast ratio and the page address are written with the field of their command, and no other
register changes. That registers do not interact is the spec's own choice (92 D16, log 20); that a step receives a byte
so is the model's input (log 9). -/
def Obligations.FieldCommandsWriteField : Prop :=
  (∀ r : BitVec 3, CommandDoes (0x20 ||| r.setWidth 8) (.ratio r) (fun c => { c with ratio := .known r })) ∧
  (∀ n : BitVec 4, CommandDoes (0xB0 ||| n.setWidth 8) (.page n) (fun c => { c with pa := .known n }))

/-- 43 R199: the start line. Its width of 6 bits is the spec's own, from general knowledge (92 D17, log 21). That a
step receives a byte so is the model's input (log 9). -/
def Obligations.StartLineCommandWritesLine : Prop :=
  ∀ l : BitVec 6, CommandDoes (0x40 ||| l.setWidth 8) (.startLine l) (fun c => { c with startLine := .known l })

/-- 43 R197, R198: each half of CA is written and the other stays, known or unknown; after both, CA is known. That each
command leaves the other half alone is the spec's own choice (10_state R33, 92 D16, log 20); that CA is held as two
halves is log 1, and that a step receives a byte so is the model's input (log 9). -/
def Obligations.ColumnCommandsWriteHalves : Prop :=
  (∀ n : BitVec 4, CommandDoes (0x10 ||| n.setWidth 8) (.colHi n) (fun c => { c with caHi := .known n })) ∧
  (∀ n : BitVec 4, CommandDoes (0x00 ||| n.setWidth 8) (.colLo n) (fun c => { c with caLo := .known n })) ∧
  (∀ (s t u : State) (h l : BitVec 4), s.lcdc.lcdcKnown = true →
    exec (.colHi h) s = .next t → exec (.colLo l) t = .next u → u.lcdc.ca = .known (h ++ l))

/-- 43 R195: EV_SET makes the controller await a parameter and changes no other register; a second 0x81 is then a
parameter, not this command. That a step receives a byte so is the model's input (log 9). -/
def Obligations.ContrastModeSetAwaitsParameter : Prop :=
  CommandDoes 0x81 .evSet (fun c => { c with evPending := .known true }) ∧
  ∀ c : Lcdc, c.evPending = .known true → c.decodeFor (.driven .low) 0x81 = some (.evParam 0x81)

/-- 43 R191 and R209: after InternalReset, or a reserved command byte, nothing about the controller is known (10_state
R46). The source defines neither; that nothing is claimed afterwards is the spec's own choice (92 D20, D29). That a
step receives a byte so is the model's input (log 9). -/
def Obligations.UndefinedEffectsForgetController : Prop :=
  CommandDoes 0xE2 .intReset (fun _ => Lcdc.allUnknown) ∧
  (∀ (s : State) (b : Byte) (rest : List Input), s.lcdc.lcdcKnown = true → s.lcdc.evPending = .known false →
    decode (.byte .command b) = .error (.reservedCommand b) → s.env.inbox = .busByte .low b :: rest →
      step s = .next { s with lcdc := Lcdc.allUnknown, env := { s.env with inbox := rest } })

/-- 43 R205: the byte after EV_SET is the volume, whatever command its bits would be; unknown if bits 7..6 are not
zero, which is the spec's own choice (92 D21). That a step receives a byte so is the model's input (log 9). -/
def Obligations.ParameterByteWritesVolume : Prop :=
  ∀ (s : State) (b : Byte), s.lcdc.lcdcKnown = true → s.lcdc.evPending = .known true →
    let c : Lcdc :=
      { s.lcdc with
        ev := if b.extractLsb' 6 2 = 0 then .known (b.extractLsb' 0 6) else .unknown
        evPending := .known false }
    exec (.evParam b) s = .next { s with lcdc := c } ∧
    ∀ rest, s.env.inbox = .busByte .low b :: rest →
      step s = .next { s with lcdc := c, env := { s.env with inbox := rest } }

/-- 43 R206, the write inside the window: the cell at PA, CA takes the byte, every other cell keeps its value, CA steps
up by one or, after column 127, is unknown (the spec's own choice, 92 D18), and nothing else changes; a step receives a
byte with DC high so (log 9). That the write happens whatever `sleep` and `display_on` hold is the spec's own choice
too (92 D16, log 20, unsafe; 70 R264 and 93 U19 name the premise a cautious claim adds). -/
def Obligations.DataByteWritesCell : Prop :=
  ∀ (s : State) (b : Byte) (p : BitVec 4) (a : Byte), s.lcdc.lcdcKnown = true → s.lcdc.evPending = .known false →
    s.lcdc.pa = .known p → s.lcdc.ca = .known a → p ≤ 5 → a ≤ 127 →
    ∃ c : Lcdc, exec (.data b) s = .next { s with lcdc := c } ∧
      (∀ rest, s.env.inbox = .busByte .high b :: rest →
        step s = .next { s with lcdc := c, env := { s.env with inbox := rest } }) ∧
      c.cell p.toNat a.toNat = .known b ∧
      (∀ q col, col ≤ 127 → (q ≠ p.toNat ∨ col ≠ a.toNat) → c.cell q col = s.lcdc.cell q col) ∧
      c.ca = (if a ≤ 126 then .known (a + 1) else .unknown) ∧
      c = { s.lcdc with ddram := c.ddram, caHi := c.caHi, caLo := c.caLo }

/-- A data byte outside the window, or at an address that is not known, makes every cell of the display RAM and CA
unknown; every other register keeps its value (43 R206, 10_state R34; the source has no such effect, and the loss is
the spec's own choice, 92 D18). While a parameter is awaited, a data byte makes the whole shadow unknown (10_state R43,
43 R206, 93 U6). That this is so whatever `sleep` and `display_on` hold is D16 (log 20). -/
def Obligations.DataByteOutsideWindowLosesDisplayRam : Prop :=
  ∀ (s : State) (b : Byte), s.lcdc.lcdcKnown = true →
    (s.lcdc.evPending = .known true → exec (.data b) s = .next { s with lcdc := Lcdc.allUnknown }) ∧
    (s.lcdc.evPending = .known false →
      (s.lcdc.pa = .unknown ∨ s.lcdc.ca = .unknown ∨ (∃ p, s.lcdc.pa = .known p ∧ 5 < p) ∨
        (∃ a, s.lcdc.ca = .known a ∧ 127 < a)) →
      ∃ c : Lcdc, exec (.data b) s = .next { s with lcdc := c } ∧ (∀ q col, c.cell q col = .unknown) ∧
        c.ca = .unknown ∧ c = { s.lcdc with ddram := c.ddram, caHi := c.caHi, caLo := c.caLo })

/-- 43 R180: while `lcdc_known` is 0 a received byte changes nothing, in whatever context it is read. That a step
receives a byte so is the model's input (log 9). -/
def Obligations.UnknownControllerIgnoresBytes : Prop :=
  (∀ (i : Instr) (s : State), i.isHostOperation = false → s.lcdc.lcdcKnown = false → exec i s = .next s) ∧
  (∀ (s : State) (m : Level) (b : Byte) (rest : List Input), s.lcdc.lcdcKnown = false →
    s.env.inbox = .busByte m b :: rest → step s = .next { s with env := { s.env with inbox := rest } })

/-- The frame of the 26 bytes (43 R180 to R206): each completes, and reaches neither the sequencer nor the trace, nor
any register of the shadow but those its rule names. Only INT_RESET, and a data byte while it is not known that no
parameter is awaited, are free to lose the whole shadow. That each one-bit and power command writes its own register
and nothing else is the spec's own reading of the names (92 D16, log 20), and START_LINE's line the spec's own width
(92 D17, log 21). What INT_RESET (92 D29) and a data byte outside the window (D18) lose is its choice too. -/
def Obligations.BytesReachOnlyTheController : Prop :=
  ∀ (i : Instr) (s : State), i.isHostOperation = false →
    ∃ t, exec i s = .next t ∧ t.seq = s.seq ∧ t.env = s.env ∧
      (i ≠ .intReset → (∀ b, i = .data b → s.lcdc.evPending = .known false) →
        t.lcdc.lcdcKnown = s.lcdc.lcdcKnown ∧
        ((∀ b, i ≠ .data b) → t.lcdc.ddram = s.lcdc.ddram) ∧
        ((∀ n, i ≠ .page n) → t.lcdc.pa = s.lcdc.pa) ∧
        ((∀ b, i ≠ .data b) → (∀ n, i ≠ .colHi n) → t.lcdc.caHi = s.lcdc.caHi) ∧
        ((∀ b, i ≠ .data b) → (∀ n, i ≠ .colLo n) → t.lcdc.caLo = s.lcdc.caLo) ∧
        (i ≠ .dispOn → i ≠ .dispOff → t.lcdc.displayOn = s.lcdc.displayOn) ∧
        (i ≠ .dispNormal → i ≠ .dispReverse → t.lcdc.reverse = s.lcdc.reverse) ∧
        (i ≠ .allptsNormal → i ≠ .allptsOn → t.lcdc.allPoints = s.lcdc.allPoints) ∧
        (i ≠ .scanNormal → i ≠ .scanReverse → t.lcdc.scanReverse = s.lcdc.scanReverse) ∧
        (i ≠ .comNormal → i ≠ .comReverse → t.lcdc.comReverse = s.lcdc.comReverse) ∧
        (i ≠ .bias19 → i ≠ .bias17 → t.lcdc.bias = s.lcdc.bias) ∧
        (i ≠ .pwr1 → i ≠ .pwr2 → i ≠ .pwr3 → t.lcdc.power = s.lcdc.power) ∧
        ((∀ r, i ≠ .ratio r) → t.lcdc.ratio = s.lcdc.ratio) ∧
        ((∀ b, i ≠ .evParam b) → t.lcdc.ev = s.lcdc.ev) ∧
        ((∀ b, i ≠ .evParam b) → i ≠ .evSet → t.lcdc.evPending = s.lcdc.evPending) ∧
        (i ≠ .sleep → i ≠ .wake → t.lcdc.sleep = s.lcdc.sleep) ∧
        ((∀ l, i ≠ .startLine l) → t.lcdc.startLine = s.lcdc.startLine))

/-! ## CONSTRUCT and RELEASE -/

/-- 40 R128: the complete trace and end state of a successful CONSTRUCT, the controller displayable under the premise
LCDC_FRESH (10_state R46; without it nothing is known). The reset latch is X, as before every CONSTRUCT (R49). The
spec's own choices (log 29): one transfer for each command byte (92 D6), DC written before each (D7), the order of the
pin events (D25), an answer for BusOpen (D11), the bus record (D28), the framebuffer unspecified at the end (D9), what
the commands do (D16, D17), and the premise (D27). -/
def Obligations.ConstructBringsUpController : Prop :=
  ∀ s : State, s.seq.life = .unbuilt → s.seq.rst = .x → s.bindingFree = true → AnswersOk s 15 →
    exec .construct s = .next
      { seq := { s.seq with
          life := .ready, fb := [], dc := .driven .low, rst := .driven .high, pinOut := true, bus := .opened }
        lcdc := if s.env.lcdcFresh then Lcdc.displayable else Lcdc.allUnknown
        env := s.env.extended (initTrace s.seq.binding.busConfig) .ok } ∧
    (initTrace s.seq.binding.busConfig).length = 34 ∧
    taggedStream s.seq.dc (initTrace s.seq.binding.busConfig) = initBytes.map (fun b => (.driven .low, b))

/-- 40 R127: the first `fail`, at answer k, ends CONSTRUCT: the trace stops there, `life` is FAILED, the result
ERR_CONSTRUCTION, and bus, DC and shadow are as the rule's table says. That opening the bus can fail, that an open bus
stays open, and what is known of the controller are the spec's own choices (92 D11, D14, D19, D27). So are one transfer
for each command byte (92 D6), DC written before each (D7) and the order of the pin events (D25, log 29). -/
def Obligations.ConstructFailureEndsInFailed : Prop :=
  ∀ (s : State) (k : Nat), s.seq.life = .unbuilt → s.seq.rst = .x → s.bindingFree = true → k ≤ 15 → FirstFail s k →
    exec .construct s = .next
      { seq := { s.seq with
          life := .failed, rst := .driven .high, pinOut := true
          dc := if k = 1 then s.seq.dc else .driven .low
          bus := if k = 1 then s.seq.bus else .opened }
        lcdc :=
          if k = 1 ∧ s.env.lcdcFresh = true then { Lcdc.allUnknown with lcdcKnown := true, evPending := .known false }
          else Lcdc.allUnknown
        env := s.env.extended (failAt k (initTrace s.seq.binding.busConfig)) .errConstruction } ∧
    taggedStream s.seq.dc (failAt k (initTrace s.seq.binding.busConfig)) =
      (initBytes.take (k - 2)).map (fun b => (.driven .low, b)) ∧
    (failAt k (initTrace s.seq.binding.busConfig)).count (.delay 2000) = (if k ≤ 6 then 0 else if k = 7 then 1 else 2)

/-- 40 R129: RELEASE gives the bus back, with a `BusClose()` exactly if it was open; pins, framebuffer and controller
are left as they are. In UNBUILT and RELEASED it is refused. What RELEASE does and where it is allowed is the spec's
own choice (92 D14, log 29). That BusClose cannot fail is its choice too (D26), and the refusal is D13. -/
def Obligations.ReleaseClosesBus : Prop :=
  ∀ s : State,
    (s.seq.life = .ready ∨ s.seq.life = .failed →
      exec .release s = .next
        { seq := { s.seq with life := .released, bus := .closed }
          lcdc := s.lcdc
          env := s.env.extended (if s.seq.bus = .opened then [.busClose] else []) .ok }) ∧
    (s.seq.life = .unbuilt ∨ s.seq.life = .released → exec .release s = .refused (.lifecycle s.seq.life))

/-! ## RESET, SET_PIXEL_DATA, DRAW, FLUSH -/

/-- 41 R140 with 43 R208: the reset pulse, and everything about the controller unknown but its decoder, idle under the
premise LCDC_FRESH. The trace of the pulse and its open width (92 D10, log 5), that pin writes cannot fail (D26) and
the premise (D27, log 7) are the spec's own choices (log 29). -/
def Obligations.ResetPulsesPin : Prop :=
  ∀ s : State, s.seq.life = .ready →
    exec .reset s = .next
      { seq := { s.seq with rst := .driven .high }
        lcdc :=
          if s.env.lcdcFresh then { Lcdc.allUnknown with lcdcKnown := true, evPending := .known false }
          else Lcdc.allUnknown
        env := s.env.extended [.setPin .rst .low, .delay Config.tRstLowUs, .setPin .rst .high] .ok }

/-- 41 R141: 768 bytes are copied into the framebuffer with no event; a payload of any other length is rejected and changes
nothing but the result. That byte i goes to FB[i div 128][i mod 128] is the spec's own reading (20_memory R61, 92 D8,
log 27), and so is that the payload brings its length (92 D31). -/
def Obligations.SetPixelDataLoadsFramebuffer : Prop :=
  ∀ (s : State) (payload : List Byte), s.seq.life = .ready →
    (payload.length = 768 →
      ∃ fb, exec (.setPixelData payload) s = .next
          { s with seq := { s.seq with fb := fb }, env := s.env.extended [] .ok } ∧
        ∀ p c, p ≤ 5 → c ≤ 127 →
          payload[128 * p + c]? =
            some (State.fbByte { s with seq := { s.seq with fb := fb } } (128 * p + c))) ∧
    (payload.length ≠ 768 → exec (.setPixelData payload) s = .next s.rejected)

/-- 41 R143: a DRAW whose 24 transfers succeed sends, page by page, the page address, column address 0 and the 128
bytes of the page, 48 events and 786 bytes, and leaves DC high; the framebuffer is read, not written, and the
controller receives the bytes sent, in order. The first transfer answered `fail` ends it with a transport error. That
each command byte and each page is one transfer (92 D6), with DC written before it (D7), is the spec's own choice (log
29). -/
def Obligations.DrawSendsFramebuffer : Prop :=
  ∀ s : State, s.seq.life = .ready →
    (AnswersOk s 24 → exec .draw s = .next
        { seq := { s.seq with dc := .driven .high }
          lcdc := (taggedStream s.seq.dc (drawTrace s.fbPage)).foldl (fun c tb => c.receive tb.1 tb.2) s.lcdc
          env := s.env.extended (drawTrace s.fbPage) .ok }) ∧
    (∀ j, j ≤ 24 → FirstFail s j → ∃ c d, exec .draw s = .next
        { seq := { s.seq with dc := d }
          lcdc := c
          env := s.env.extended (failAt j (drawTrace s.fbPage)) .errTransport }) ∧
    (drawTrace s.fbPage).length = 48 ∧ answersIn (drawTrace s.fbPage) = 24 ∧
    (taggedStream s.seq.dc (drawTrace s.fbPage)).length = 786 ∧
    (∀ p, s.fbPage p = (List.range 128).map (fun i => s.fbByte (128 * p + i)))

/-- 41 R144: after a DRAW whose transfers succeed, from a known controller that awaits no parameter, the display RAM is
the framebuffer, PA is 5, CA unknown, DC 1, and no other shadow register has changed; the same of FLUSH with the
framebuffer all zero. That this holds with `sleep` 1 and the display off as well is the spec's own choice (92 D16, log
20; 70 R264 names the premise a cautious claim adds), and that CA is unknown at the end too (92 D18). -/
def Obligations.PagingFillsDisplayRam : Prop :=
  ∀ s : State, s.seq.life = .ready → s.lcdc.lcdcKnown = true → s.lcdc.evPending = .known false → AnswersOk s 24 →
    (∃ t, exec .draw s = .next t ∧ t.lcdc.ca = .unknown ∧ t.seq.dc = .driven .high ∧
      (∀ p c, p ≤ 5 → c ≤ 127 → t.lcdc.cell p c = .known (t.fbByte (128 * p + c)) ∧
        t.fbByte (128 * p + c) = s.fbByte (128 * p + c)) ∧
      t.lcdc =
        { s.lcdc with ddram := t.lcdc.ddram, pa := .known 5, caHi := t.lcdc.caHi, caLo := t.lcdc.caLo }) ∧
    (∃ t, exec .flush s = .next t ∧ t.lcdc.ca = .unknown ∧ t.seq.dc = .driven .high ∧
      (∀ p c, p ≤ 5 → c ≤ 127 → t.lcdc.cell p c = .known 0 ∧ t.fbByte (128 * p + c) = 0) ∧
      t.lcdc =
        { s.lcdc with ddram := t.lcdc.ddram, pa := .known 5, caHi := t.lcdc.caHi, caLo := t.lcdc.caLo })

/-- 41 R145: transfer j, the first to fail, is the last event of DRAW or FLUSH; 2j events are emitted and j answers
consumed, the tagged byte stream holds the transfers before it, the result is ERR_TRANSPORT, DC is 1 exactly if it was
the data transfer of a page, the framebuffer is unchanged by DRAW and all zero after FLUSH (R142), and nothing about
the controller is known (the spec's own choice, 92 D19, as it is that FLUSH's zeros stand, D32). So are one transfer
for each command byte and each page (D6) and DC written before each (D7, log 29). -/
def Obligations.PagingAbortsOnFirstFailure : Prop :=
  ∀ (s : State) (j : Nat), s.seq.life = .ready → j ≤ 24 → FirstFail s j →
    (exec .draw s = .next
      (s.aborted (failAt j (drawTrace s.fbPage)) (if (j - 1) % 4 = 3 then .high else .low))) ∧
    (∃ fb, exec .flush s = .next
        (State.aborted { s with seq := { s.seq with fb := fb } }
          (failAt j (drawTrace (fun _ => List.replicate 128 0))) (if (j - 1) % 4 = 3 then .high else .low)) ∧
      ∀ a, a < 768 → State.fbByte { s with seq := { s.seq with fb := fb } } a = 0) ∧
    (∀ rows, (failAt j (drawTrace rows)).length = 2 * j ∧ answersIn (failAt j (drawTrace rows)) = j ∧
      taggedStream s.seq.dc (failAt j (drawTrace rows)) =
        taggedStream s.seq.dc ((drawTrace rows).take (2 * (j - 1))))

/-- 41 R142: FLUSH zeroes the framebuffer and then draws it, with the trace of a DRAW of zeros; an unknown controller
stays as it was (43 R180), and so it does in a DRAW. One transfer for each command byte and each page (92 D6) and DC
written before each (D7) are the spec's own choices (log 29). -/
def Obligations.FlushClearsAndSends : Prop :=
  ∀ s : State, s.seq.life = .ready → AnswersOk s 24 →
    (∃ t, exec .flush s = .next t ∧ (∀ a, a < 768 → t.fbByte a = 0) ∧
      t.seq = { s.seq with fb := t.seq.fb, dc := .driven .high } ∧
      t.env = s.env.extended (drawTrace (fun _ => List.replicate 128 0)) .ok ∧
      (s.lcdc.lcdcKnown = false → t.lcdc = s.lcdc)) ∧
    (s.lcdc.lcdcKnown = false → ∃ t, exec .draw s = .next t ∧ t.lcdc = s.lcdc)

/-- 41 R143 (e), 70 R262: what DRAW sends is a function of the framebuffer and the answers alone; in particular not of
DC, of the controller, of PA and CA, or of earlier draws. One transfer for each command byte and each page (92 D6) and
DC written before each (D7) are the spec's own choices (log 29). -/
def Obligations.DrawDependsOnFramebufferAlone : Prop :=
  ∀ s₁ s₂ t₁ t₂ : State, (∀ a, a < 768 → s₁.fbByte a = s₂.fbByte a) →
    (∀ k, k < 24 → s₁.env.answerAt (s₁.env.consumed + k) = s₂.env.answerAt (s₂.env.consumed + k)) →
    exec .draw s₁ = .next t₁ → exec .draw s₂ = .next t₂ →
    ∃ es, t₁.env.events = s₁.env.events ++ es ∧ t₂.env.events = s₂.env.events ++ es

/-! ## The seven register-setting operations -/

/-- 42 R160, R161, R164: each sends the byte its operand selects, and the controller, if known and awaiting no
parameter, sets the one bit (by the spec's own reading of the names, 92 D16); a failed transfer ends it, and nothing is
known about the controller then (the spec's own choice, 92 D19). The pin write before the transfer is its choice as
well (D7, log 29). -/
def Obligations.TwoValuedOperationsSendOneByte : Prop :=
  ∀ s : State, s.seq.life = .ready →
    (AnswersOk s 1 → s.lcdc.lcdcKnown = true → s.lcdc.evPending = .known false →
      exec (.setDisplayMode .on) s = .next (s.sent [0xAF] { s.lcdc with displayOn := .known true }) ∧
      exec (.setDisplayMode .off) s = .next (s.sent [0xAE] { s.lcdc with displayOn := .known false }) ∧
      exec (.setDisplayColor .normal) s = .next (s.sent [0xA6] { s.lcdc with reverse := .known false }) ∧
      exec (.setDisplayColor .inverted) s = .next (s.sent [0xA7] { s.lcdc with reverse := .known true }) ∧
      exec (.setSleepMode .enabled) s = .next (s.sent [0xAB] { s.lcdc with sleep := .known true }) ∧
      exec (.setSleepMode .disabled) s = .next (s.sent [0xAC] { s.lcdc with sleep := .known false })) ∧
    (FirstFail s 1 →
      exec (.setDisplayMode .on) s = .next (s.aborted [.setPin .dc .low, .transmit [0xAF] .fail] .low) ∧
      exec (.setDisplayMode .off) s = .next (s.aborted [.setPin .dc .low, .transmit [0xAE] .fail] .low) ∧
      exec (.setDisplayColor .normal) s = .next (s.aborted [.setPin .dc .low, .transmit [0xA6] .fail] .low) ∧
      exec (.setDisplayColor .inverted) s = .next (s.aborted [.setPin .dc .low, .transmit [0xA7] .fail] .low) ∧
      exec (.setSleepMode .enabled) s = .next (s.aborted [.setPin .dc .low, .transmit [0xAB] .fail] .low) ∧
      exec (.setSleepMode .disabled) s = .next (s.aborted [.setPin .dc .low, .transmit [0xAC] .fail] .low))

/-- 42 R162 and R165, whole: SET_CONTRAST takes every ratio up to 7 and SET_PAGE_ADDRESS every page up to 15, and each
sends one byte and sets its register; a larger operand is rejected before any event; a failed transfer ends the
operation with a transport error. That the byte is one transfer (92 D6), with DC written before it (D7), is the spec's
own choice (log 29). -/
def Obligations.ContrastAndPageSendOneByte : Prop :=
  ∀ (s : State) (arg : Byte), s.seq.life = .ready →
    (7 < arg → exec (.setContrast arg) s = .next s.rejected) ∧
    (15 < arg → exec (.setPageAddress arg) s = .next s.rejected) ∧
    (AnswersOk s 1 → s.lcdc.lcdcKnown = true → s.lcdc.evPending = .known false →
      (arg ≤ 7 → exec (.setContrast arg) s =
        .next (s.sent [0x20 + arg] { s.lcdc with ratio := .known (arg.setWidth 3) })) ∧
      (arg ≤ 15 → exec (.setPageAddress arg) s =
        .next (s.sent [0xB0 + arg] { s.lcdc with pa := .known (arg.setWidth 4) }))) ∧
    (FirstFail s 1 →
      (arg ≤ 7 → ∃ c, exec (.setContrast arg) s =
        .next { s.aborted [.setPin .dc .low, .transmit [0x20 + arg] .fail] .low with lcdc := c }) ∧
      (arg ≤ 15 → ∃ c, exec (.setPageAddress arg) s =
        .next { s.aborted [.setPin .dc .low, .transmit [0xB0 + arg] .fail] .low with lcdc := c }))

/-- 42 R166 whole, and R163 but for the shadow its corner case (c) leaves, which is TransportErrorLeavesSequencer's:
SET_CONTRAST_DETAIL takes every volume up to 63, SET_COLUMN_ADDRESS every column; each sends two bytes, both in command
space, the column's high nibble first, and sets its register; a larger volume is rejected before any event; a failed
transfer ends the operation with a transport error, and after a failed first one the second is not attempted. That each
byte is one transfer (92 D6), with DC written before it (D7), is the spec's own choice (log 29). -/
def Obligations.VolumeAndColumnSendTwoBytes : Prop :=
  ∀ (s : State) (arg : Byte), s.seq.life = .ready →
    (63 < arg → exec (.setContrastDetail arg) s = .next s.rejected) ∧
    (AnswersOk s 2 → s.lcdc.lcdcKnown = true → s.lcdc.evPending = .known false →
      (arg ≤ 63 → exec (.setContrastDetail arg) s =
        .next (s.sent [0x81, arg] { s.lcdc with ev := .known (arg.setWidth 6) })) ∧
      exec (.setColumnAddress arg) s =
        .next (s.sent [0x10 + arg / 16, arg % 16]
          { s.lcdc with caHi := .known (arg.extractLsb' 4 4), caLo := .known (arg.extractLsb' 0 4) })) ∧
    (∀ j, j ≤ 2 → FirstFail s j →
      (arg ≤ 63 → ∃ c, exec (.setContrastDetail arg) s =
        .next { s.aborted (failAt j (commandEvents 0x81 ++ commandEvents arg)) .low with lcdc := c }) ∧
      ∃ c, exec (.setColumnAddress arg) s =
        .next { s.aborted (failAt j (commandEvents (0x10 + arg / 16) ++ commandEvents (arg % 16))) .low with lcdc := c })

/-- 42 R160 to R166 with an unknown controller: the same bytes go out, and nothing becomes known (43 R180). One
transfer for each byte (92 D6) and DC written before each (D7) are the spec's own choices (log 29). -/
def Obligations.RegisterOperationsKeepUnknownController : Prop :=
  ∀ (s : State) (arg : Byte) (m : DisplayMode) (c : DisplayColor) (z : SleepMode), s.seq.life = .ready →
    s.lcdc.lcdcKnown = false →
    (AnswersOk s 1 →
      exec (.setDisplayMode m) s = .next (s.sent [if m = .on then 0xAF else 0xAE] s.lcdc) ∧
      exec (.setDisplayColor c) s = .next (s.sent [if c = .inverted then 0xA7 else 0xA6] s.lcdc) ∧
      exec (.setSleepMode z) s = .next (s.sent [if z = .enabled then 0xAB else 0xAC] s.lcdc) ∧
      (arg ≤ 7 → exec (.setContrast arg) s = .next (s.sent [0x20 + arg] s.lcdc)) ∧
      (arg ≤ 15 → exec (.setPageAddress arg) s = .next (s.sent [0xB0 + arg] s.lcdc))) ∧
    (AnswersOk s 2 →
      (arg ≤ 63 → exec (.setContrastDetail arg) s = .next (s.sent [0x81, arg] s.lcdc)) ∧
      exec (.setColumnAddress arg) s = .next (s.sent [0x10 + arg / 16, arg % 16] s.lcdc))

/-- 60 R221: the four validation errors, and no fifth. The check comes before any hardware access: only the result is
new. -/
def Obligations.ValidationErrorsLeaveNoTrace : Prop :=
  (∀ (s : State) (arg : Byte) (payload : List Byte), s.seq.life = .ready →
    (payload.length ≠ 768 → exec (.setPixelData payload) s = .next s.rejected) ∧
    (7 < arg → exec (.setContrast arg) s = .next s.rejected) ∧
    (63 < arg → exec (.setContrastDetail arg) s = .next s.rejected) ∧
    (15 < arg → exec (.setPageAddress arg) s = .next s.rejected)) ∧
  (∀ s : State, s.rejected = { s with env := { s.env with results := s.env.results ++ [.errValidation] } }) ∧
  (∀ (i : Instr) (s t : State), exec i s = .next t → t.env.results = s.env.results ++ [.errValidation] →
    (∃ payload, i = .setPixelData payload ∧ payload.length ≠ 768) ∨ (∃ arg, i = .setContrast arg ∧ 7 < arg) ∨
    (∃ arg, i = .setContrastDetail arg ∧ 63 < arg) ∨ (∃ arg, i = .setPageAddress arg ∧ 15 < arg))

/-- 42 R167 (2), (3), (4): whatever the answers, each of the seven register-setting operations either is rejected, and then
changes nothing but the results, or returns OK or a transport error and leaves DC low; none writes the framebuffer, RST,
`life`, `bus` or pin_out, and none reads the framebuffer: with any other contents of it, everything else comes out the
same. A controller that awaits no parameter keeps every cell of its display RAM, unless a failed transfer has made the
whole shadow unknown (the spec's own choice, 92 D19). -/
def Obligations.RegisterOperationsFrame : Prop :=
  ∀ (i : Instr) (s t : State),
    ((∃ m, i = .setDisplayMode m) ∨ (∃ c, i = .setDisplayColor c) ∨ (∃ a, i = .setContrast a) ∨
      (∃ a, i = .setContrastDetail a) ∨ (∃ z, i = .setSleepMode z) ∨ (∃ a, i = .setPageAddress a) ∨
      (∃ a, i = .setColumnAddress a)) →
    exec i s = .next t →
    ((t.env.results = s.env.results ++ [.errValidation] ∧ t = s.rejected) ∨
      ((t.env.results = s.env.results ++ [.ok] ∨ t.env.results = s.env.results ++ [.errTransport]) ∧
        t.seq = { s.seq with dc := .driven .low })) ∧
    (∀ fb, exec i { s with seq := { s.seq with fb := fb } } = .next { t with seq := { t.seq with fb := fb } }) ∧
    ((s.lcdc.lcdcKnown = true → s.lcdc.evPending = .known false) →
      (t.env.results = s.env.results ++ [.errTransport] ∧ t.lcdc = Lcdc.allUnknown) ∨
        ∀ p c, t.lcdc.cell p c = s.lcdc.cell p c)

/-! ## The whole machine -/

/-- 10_state R21: only CONSTRUCT and RELEASE change `life`, along the transitions the rule lists. That a transport
error leaves it READY, and that RELEASE is allowed in FAILED, are the spec's own choices (92 D12, D14, log 29). So are
CONSTRUCT in UNBUILT alone (D15) and a BusOpen that can fail (D11). -/
def Obligations.OnlyConstructAndReleaseChangeLife : Prop :=
  ∀ (i : Instr) (s t : State), exec i s = .next t → t.seq.life ≠ s.seq.life →
    (i = .construct ∧ s.seq.life = .unbuilt ∧ (t.seq.life = .ready ∨ t.seq.life = .failed)) ∨
    (i = .release ∧ (s.seq.life = .ready ∨ s.seq.life = .failed) ∧ t.seq.life = .released)

/-- 10_state R22: no instruction but SET_PIXEL_DATA, FLUSH and CONSTRUCT changes any byte of the framebuffer. That
CONSTRUCT leaves it unspecified is the spec's own choice (92 D9, logs 23 and 29). -/
def Obligations.OnlyThreeOperationsWriteFramebuffer : Prop :=
  ∀ (i : Instr) (s t : State), exec i s = .next t → (∀ payload, i ≠ .setPixelData payload) → i ≠ .flush →
    i ≠ .construct → t.seq.fb = s.seq.fb ∧ ∀ a, t.fbByte a = s.fbByte a

/-- 43 R211: what an operation puts on the bus, whatever its operands, the framebuffer and the answers. That a command
byte is a transfer of one byte and a page one of 128 is the spec's own choice (92 D6, log 29). -/
def Obligations.EmittedBytesAreClosed : Prop :=
  ∀ (i : Instr) (s t : State), exec i s = .next t →
    ∃ es, t.env.events = s.env.events ++ es ∧ closureHolds [] s.seq.dc es = true

/-- 70 R260: the mode-select pin is written immediately before every transfer, so no byte is sent at a level an earlier
operation left. That it is written even when the pin has the level already is the spec's own choice (92 D7, log 29). -/
def Obligations.PinIsSetBeforeEveryTransfer : Prop :=
  ∀ (i : Instr) (s t : State), exec i s = .next t →
    ∃ es, t.env.events = s.env.events ++ es ∧ pinBeforeTransfers false es = true

/-- 41 R146: an operation other than DRAW and FLUSH puts no data byte on the bus. -/
def Obligations.OnlyPagingEngineSendsData : Prop :=
  ∀ (i : Instr) (s t : State), exec i s = .next t → i ≠ .draw → i ≠ .flush →
    ∃ es, t.env.events = s.env.events ++ es ∧
      ∀ tb ∈ taggedStream s.seq.dc es, tb.1 = .driven .low

/-- 60 R220, R227, 00_scope R10: a host operation returns exactly one result; it is OK exactly if no answer was `fail`
and nothing was rejected; a `fail` is the last event, and no error is swallowed; one answer is consumed for each
`BusOpen` and each `Transmit`. The numbering of the results (92 D4), an answer for BusOpen (D11), that a transport
error is no end of the instance (D12) and that pin writes and BusClose have no answer (D26) are the spec's own choices
(log 29). -/
def Obligations.EveryFailureBecomesAResult : Prop :=
  ∀ (i : Instr) (s t : State), i.isHostOperation = true → exec i s = .next t →
    ∃ es r, t.env.events = s.env.events ++ es ∧ t.env.results = s.env.results ++ [r] ∧
      failureEndsTrace es = true ∧ (hasFailure es = true ↔ r = .errTransport ∨ r = .errConstruction) ∧
      (r = .errConstruction → i = .construct) ∧ (r = .errTransport → i ≠ .construct) ∧
      (r = .errValidation → es = []) ∧ t.env.consumed = s.env.consumed + answersIn es

/-- 60 R225, 43 R210: what a transport error leaves behind: `life`, RST, bus, pin_out as they were, the framebuffer too
but after FLUSH, and nothing known about the controller. That `life` stays READY (92 D12), that nothing is known of the
controller (D19) and that FLUSH's zeros stand (D32) are the spec's own choices (log 29). -/
def Obligations.TransportErrorLeavesSequencer : Prop :=
  ∀ (i : Instr) (s t : State), exec i s = .next t → t.env.results = s.env.results ++ [.errTransport] →
    t.seq.life = .ready ∧ s.seq.life = .ready ∧ t.lcdc = Lcdc.allUnknown ∧
    t.seq = { s.seq with dc := t.seq.dc, fb := t.seq.fb } ∧ t.seq.dc ≠ .x ∧ (i ≠ .flush → t.seq.fb = s.seq.fb)

/-- 70 R265: every operation terminates after a bounded number of events. The counts rest on the grouping into
transfers (92 D6), the pin writes (D7) and a delay that is one event (D24), the spec's own choices (log 29); that the
transport always answers is log 25. -/
def Obligations.EventCountsAreBounded : Prop :=
  ∀ (i : Instr) (s t : State), exec i s = .next t →
    ∃ es, t.env.events = s.env.events ++ es ∧ es.length ≤ maxEvents i

/-- 20_memory R67 (d): a runtime operation that succeeds, issued again with success, leaves sequencer and controller as
the first left them. The premise `Inv` rules out memories no run reaches, `pending` is 43 R212 (2). What the bytes do
to the shadow is the spec's own choice (92 D16, D18, D27, log 29). -/
def Obligations.RuntimeOperationsAreIdempotent : Prop :=
  ∀ (i : Instr) (s t u : State), Inv s → (s.lcdc.lcdcKnown = true → s.lcdc.evPending = .known false) →
    i.isHostOperation = true → exec i s = .next t → t.env.results = s.env.results ++ [.ok] →
    exec i t = .next u → u.env.results = t.env.results ++ [.ok] → u.seq = t.seq ∧ u.lcdc = t.lcdc

/-! ## The bytes an operation stands for, and what it returns -/

/-- 30_encoding R92: a byte is decoded by the command table only if it arrives with DC low and no parameter awaited; with
DC low and one awaited it is the parameter, whatever its value; with DC high it is data. So 0x1C is column high nibble
0xC, volume 28 or eight pixels. -/
def Obligations.ContextDecidesWhatAByteIs : Prop :=
  (∀ (c : Lcdc) (b : Byte),
    c.decodeFor (.driven .high) b = some (.data b) ∧
    (c.evPending = .known true → c.decodeFor (.driven .low) b = some (.evParam b)) ∧
    (c.evPending = .known false → ∀ i, c.decodeFor (.driven .low) b = some i ↔ decode (.byte .command b) = .ok i)) ∧
  (∀ (c : Lcdc) (m : Latch) (b : Byte) (i : Instr), c.decodeFor m b = some i →
    (∀ v, i ≠ .evParam v) → (∀ v, i ≠ .data v) → m = .driven .low ∧ c.evPending = .known false) ∧
  decode (.byte .command 0x1C) = .ok (.colHi 0xC) ∧ decode (.byte .parameter 0x1C) = .ok (.evParam 28) ∧
  decode (.byte .data 0x1C) = .ok (.data 0x1C)

/-- 30_encoding R102: the tagged byte stream of every host operation that succeeds is its line of the table, and CONSTRUCT's
two delays stand where the table has them. -/
def Obligations.HostOperationsExpandToTheirBytes : Prop :=
  ∀ (i : Instr) (s t : State), i.isHostOperation = true → exec i s = .next t →
    t.env.results = s.env.results ++ [.ok] →
    ∃ es, t.env.events = s.env.events ++ es ∧ taggedStream s.seq.dc es = expansion s i ∧
      (i = .construct → ∃ a b c,
        es = a ++ [.delay Config.params.tSettleUs] ++ b ++ [.delay Config.params.tSettleUs] ++ c ∧
        taggedStream s.seq.dc a = inCommandSpace [0xAE, 0xA0, 0xC8, 0xA3, 0x2C] ∧
        taggedStream (.driven .low) b = inCommandSpace [0x2E] ∧
        taggedStream (.driven .low) c = inCommandSpace [0x2F, 0x23, 0x81, 0x1C, 0xA4, 0x40, 0xA6, 0xAF])

/-- 60 R237: for each request the host gets one result code and nothing else; in particular two failed runs of one
operation return the same, whichever transfer failed. -/
def Obligations.HostGetsOneResultCode : Prop :=
  (∀ (i : Instr) (s t : State), i.isHostOperation = true → exec i s = .next t →
    ∃ r, t.env.results = s.env.results ++ [r]) ∧
  (∀ (i : Instr) (s₁ s₂ t₁ t₂ : State) (r₁ r₂ : Result), i.isHostOperation = true →
    exec i s₁ = .next t₁ → t₁.env.results = s₁.env.results ++ [r₁] → r₁ ≠ .ok → r₁ ≠ .errValidation →
    exec i s₂ = .next t₂ → t₂.env.results = s₂.env.results ++ [r₂] → r₂ ≠ .ok → r₂ ≠ .errValidation → r₁ = r₂)
end

