-- ==== Sys2Proof/Laws/Config.lean ====
section
/-!
SUPPORT. How the parameters of 00_scope R5 hang together, and the types that hold them to their widths.
-/

namespace Sys2Proof.Config

/-- "768 = 6 × 128". -/
theorem fbSize_eq : params.fbSize = params.nPages * params.nCols := rfl

/-- One column of pixels for each column, eight rows for each page. -/
theorem xPixels_eq : params.xPixels = params.nCols := rfl
theorem yPixels_eq : params.yPixels = params.nPages * params.pageBits := rfl

/-- A numeric operand of a host operation is a value of `ARG_WIDTH` bits. -/
theorem byte_eq : Byte = BitVec params.argWidth := rfl

/-- `PAGE_MAX` is the largest value the page field holds. -/
theorem pageMax_eq : params.pageMax.toNat + 1 = 2 ^ params.pageFieldWidth := by decide

/-- SET_COLUMN_ADDRESS needs no check: no operand exceeds `COL_MAX`. -/
theorem arg_le_colMax (arg : Byte) : arg ≤ params.colMax := by
  rw [BitVec.le_def]
  exact Nat.le_of_lt_succ arg.isLt

/-- The four pin levels are the two of each pin, command and data low and high, active and inactive low and high. -/
theorem dcCommand_eq : params.dcCommand = .low := rfl
theorem dcData_eq : params.dcData = .high := rfl
theorem rstActive_eq : params.rstActive = .low := rfl
theorem rstInactive_eq : params.rstInactive = .high := rfl

end Sys2Proof.Config

namespace Sys2Proof.Machine

/-- Every pixel of the display lies in the framebuffer. -/
theorem pixel_in_framebuffer (x : Fin Config.params.xPixels) (y : Fin Config.params.yPixels) :
    linear (y / Config.params.pageBits) x < Config.params.fbSize := by
  have hx : x.1 < 128 := x.2
  have hy : y.1 < 48 := y.2
  simp only [linear]
  omega

end Sys2Proof.Machine
end

