-- ==== Sys2Proof/Laws/Decode.lean ====
section
/-!
SUPPORT. Request words by their three fields: which row of the map a word matches.
-/

namespace Sys2Proof

theorem reqWord_getLsbD (op mid : BitVec 4) (arg : Byte) (i : Nat) :
    (op ++ mid ++ arg : ReqWord).getLsbD i =
      if i < 8 then arg.getLsbD i else if i - 8 < 4 then mid.getLsbD (i - 8) else op.getLsbD (i - 8 - 4) := by
  have h := BitVec.getLsbD_append (x := op ++ mid) (y := arg) (i := i)
  have h' := BitVec.getLsbD_append (x := op) (y := mid) (i := i - 8)
  refine h.trans ?_
  split
  · rfl
  · refine Eq.trans ?_ (h'.trans ?_)
    · rfl
    · split <;> rfl

/-- Two words are equal exactly if their three fields are. -/
theorem reqWord_inj (op mid op' mid' : BitVec 4) (arg arg' : Byte) :
    (op ++ mid ++ arg : ReqWord) = op' ++ mid' ++ arg' ↔ op = op' ∧ mid = mid' ∧ arg = arg' := by
  constructor
  · intro h
    refine ⟨?_, ?_, ?_⟩
    · apply BitVec.eq_of_getLsbD_eq
      intro i hi
      have h' := congrArg (fun w : ReqWord => w.getLsbD (12 + i)) h
      simp only [reqWord_getLsbD, if_neg (show ¬ 12 + i < 8 by omega), if_neg (show ¬ 12 + i - 8 < 4 by omega),
        show 12 + i - 8 - 4 = i by omega] at h'
      exact h'
    · apply BitVec.eq_of_getLsbD_eq
      intro i hi
      have h' := congrArg (fun w : ReqWord => w.getLsbD (8 + i)) h
      simp only [reqWord_getLsbD, if_neg (show ¬ 8 + i < 8 by omega),
        show 8 + i - 8 = i by omega, if_pos hi] at h'
      exact h'
    · apply BitVec.eq_of_getLsbD_eq
      intro i hi
      have h' := congrArg (fun w : ReqWord => w.getLsbD i) h
      simp only [reqWord_getLsbD, if_pos hi] at h'
      exact h'
  · rintro ⟨rfl, rfl, rfl⟩
    rfl

/-- A row's match on a word, field by field: the operation code, bits 11..8 all zero, and the masked operand zero. -/
theorem requestRow_matches (op mid k : BitVec 4) (arg m : Byte) :
    ((op ++ mid ++ arg : ReqWord) &&& (0xF#4 ++ 0xF#4 ++ m) == (k ++ 0#4 ++ 0#8 : ReqWord)) =
      decide (op = k ∧ mid = 0#4 ∧ arg &&& m = 0#8) := by
  have h15 : ∀ x : BitVec 4, x &&& 0xF#4 = x := by decide
  rw [BitVec.and_append, BitVec.and_append, h15, h15, Bool.beq_eq_decide_eq]
  exact decide_eq_decide.2 (reqWord_inj ..)

/-- The masks of an operation without operand, with a two-valued one, and with an 8-bit one. -/
theorem requestMask_none : (0xFFFF : ReqWord) = 0xF#4 ++ 0xF#4 ++ 0xFF#8 := by decide
theorem requestMask_bit : (0xFFFE : ReqWord) = 0xF#4 ++ 0xF#4 ++ 0xFE#8 := by decide
theorem requestMask_byte : (0xFF00 : ReqWord) = 0xF#4 ++ 0xF#4 ++ 0x00#8 := by decide

/-- The thirteen operations a request word can be. -/
theorem decodeRequest_cases {op mid : BitVec 4} {arg : Byte} {payload : List Byte} {i : Instr}
    (h : decodeRequest (op ++ mid ++ arg) payload = .ok i) :
    mid = 0 ∧
    ((op = 0x0 ∧ arg = 0 ∧ i = .construct) ∨ (op = 0x1 ∧ arg = 0 ∧ i = .reset) ∨
      (op = 0x2 ∧ arg = 0 ∧ i = .setPixelData payload) ∨ (op = 0x3 ∧ arg = 0 ∧ i = .flush) ∨
      (op = 0x4 ∧ arg = 0 ∧ i = .draw) ∨
      (op = 0x5 ∧ arg &&& 0xFE = 0 ∧ i = .setDisplayMode (displayModeOf (op ++ mid ++ arg))) ∨
      (op = 0x6 ∧ arg &&& 0xFE = 0 ∧ i = .setDisplayColor (displayColorOf (op ++ mid ++ arg))) ∨
      (op = 0x7 ∧ i = .setContrast arg) ∨ (op = 0x8 ∧ i = .setContrastDetail arg) ∨
      (op = 0x9 ∧ arg &&& 0xFE = 0 ∧ i = .setSleepMode (sleepModeOf (op ++ mid ++ arg))) ∨
      (op = 0xA ∧ i = .setPageAddress arg) ∨ (op = 0xB ∧ i = .setColumnAddress arg) ∨
      (op = 0xC ∧ arg = 0 ∧ i = .release)) := by
  have hff : ∀ x : Byte, x &&& 0xFF#8 = 0#8 → x = 0 := by decide
  have harg : requestArg (op ++ mid ++ arg) = arg := by
    apply BitVec.eq_of_getLsbD_eq
    intro j hj
    rw [requestArg, BitVec.getLsbD_setWidth, reqWord_getLsbD, if_pos hj]
    simp [hj]
  unfold decodeRequest at h
  split at h
  · rename_i r hr
    have hm := List.mem_of_find?_eq_some hr
    have hp := List.find?_some hr
    cases h
    simp only [requestRows, List.cons_append, List.nil_append, List.mem_cons, List.not_mem_nil, or_false] at hm
    have key : ∀ (k : BitVec 4) (m : Byte),
        ((op ++ mid ++ arg : ReqWord) &&& (0xF#4 ++ 0xF#4 ++ m) == (k ++ 0#4 ++ 0#8 : ReqWord)) = true →
        op = k ∧ mid = 0#4 ∧ arg &&& m = 0#8 := fun k m h => by
      rw [requestRow_matches] at h
      exact of_decide_eq_true h
    rcases hm with h | h | h | h | h | h | h | h | h | h | h | h | h <;> subst h
    · obtain ⟨h1, h2, h3⟩ := key 0x0 0xFF hp; replace h3 := hff _ h3; exact ⟨h2, by simp [h1, h3]⟩
    · obtain ⟨h1, h2, h3⟩ := key 0x1 0xFF hp; replace h3 := hff _ h3; exact ⟨h2, by simp [h1, h3]⟩
    · obtain ⟨h1, h2, h3⟩ := key 0x2 0xFF hp; replace h3 := hff _ h3; exact ⟨h2, by simp [h1, h3]⟩
    · obtain ⟨h1, h2, h3⟩ := key 0x3 0xFF hp; replace h3 := hff _ h3; exact ⟨h2, by simp [h1, h3]⟩
    · obtain ⟨h1, h2, h3⟩ := key 0x4 0xFF hp; replace h3 := hff _ h3; exact ⟨h2, by simp [h1, h3]⟩
    · obtain ⟨h1, h2, h3⟩ := key 0x5 0xFE hp; exact ⟨h2, by simp [h1]; exact h3⟩
    · obtain ⟨h1, h2, h3⟩ := key 0x6 0xFE hp; exact ⟨h2, by simp [h1]; exact h3⟩
    · obtain ⟨h1, h2, h3⟩ := key 0x7 0x00 hp
      exact ⟨h2, .inr (.inr (.inr (.inr (.inr (.inr (.inr (.inl ⟨h1, congrArg Instr.setContrast harg⟩)))))))⟩
    · obtain ⟨h1, h2, h3⟩ := key 0x8 0x00 hp
      exact ⟨h2, .inr (.inr (.inr (.inr (.inr (.inr (.inr (.inr (.inl ⟨h1, congrArg Instr.setContrastDetail harg⟩))))))))⟩
    · obtain ⟨h1, h2, h3⟩ := key 0x9 0xFE hp; exact ⟨h2, by simp [h1]; exact h3⟩
    · obtain ⟨h1, h2, h3⟩ := key 0xA 0x00 hp
      exact ⟨h2, .inr (.inr (.inr (.inr (.inr (.inr (.inr (.inr (.inr (.inr (.inl ⟨h1, congrArg Instr.setPageAddress harg⟩))))))))))⟩
    · obtain ⟨h1, h2, h3⟩ := key 0xB 0x00 hp
      exact ⟨h2, .inr (.inr (.inr (.inr (.inr (.inr (.inr (.inr (.inr (.inr (.inr (.inl ⟨h1, congrArg Instr.setColumnAddress harg⟩)))))))))))⟩
    · obtain ⟨h1, h2, h3⟩ := key 0xC 0xFF hp; replace h3 := hff _ h3; exact ⟨h2, by simp [h1, h3]⟩
  · exact absurd h (by simp)

end Sys2Proof
end

