-- ==== Sys2Proof/Laws/Memory.lean ====
section
/-!
SUPPORT. The laws of the byte memory: what a write does to every address, that every write keeps the canonical form and
the bounds, and that equal contents are equal lists.
-/

namespace Sys2Proof.Machine

/-- A byte written is read back; every other address keeps what it held. -/
theorem Memory.get?_put (m : Memory) (a k : Nat) (v : Byte) :
    (Memory.put m a v).get? k = if k = a then some v else m.get? k := by
  induction m with
  | nil => simp [Memory.put, Memory.get?, eq_comm]
  | cons c rest ih =>
    obtain ⟨j, w⟩ := c
    have comm : (a = k) = (k = a) := propext eq_comm
    simp only [Memory.put]
    split
    · by_cases hk : k = a
      · simp only [Memory.get?, comm, if_pos hk]
      · simp only [Memory.get?, comm, if_neg hk]
    · split
      · rename_i hja
        by_cases hk : k = a
        · simp only [Memory.get?, comm, if_pos hk]
        · have hj : ¬ j = k := by omega
          simp only [Memory.get?, comm, if_neg hk, if_neg hj]
      · simp only [Memory.get?, ih]
        by_cases hk : k = a
        · have hj : ¬ j = k := by omega
          simp only [if_pos hk, if_neg hj]
        · simp only [if_neg hk]

/-- `MemWrite`: byte i of the string is at address a + i, every other address keeps what it held. -/
theorem Memory.get?_putBytes (bs : List Byte) (m : Memory) (a k : Nat) :
    (Memory.putBytes m a bs).get? k = if a ≤ k ∧ k < a + bs.length then bs[k - a]? else m.get? k := by
  induction bs generalizing a with
  | nil =>
    have : ¬ (a ≤ k ∧ k < a + ([] : List Byte).length) := by simp
    rw [if_neg this]
    rfl
  | cons b bs ih =>
    simp only [Memory.putBytes, Memory.get?_put, ih, List.length_cons]
    by_cases h : k = a
    · subst h; simp
    · by_cases h₂ : a + 1 ≤ k ∧ k < a + 1 + bs.length
      · have h₃ : a ≤ k ∧ k < a + (bs.length + 1) := by omega
        have h₄ : k - a = (k - (a + 1)) + 1 := by omega
        rw [if_neg h, if_pos h₂, if_pos h₃, h₄, List.getElem?_cons_succ]
      · have h₃ : ¬ (a ≤ k ∧ k < a + (bs.length + 1)) := by omega
        rw [if_neg h, if_neg h₂, if_neg h₃]

theorem Memory.risingFrom_mono {lo lo' : Nat} (h : lo' ≤ lo) {m : Memory} (hm : Memory.risingFrom lo m = true) :
    Memory.risingFrom lo' m = true := by
  cases m with
  | nil => rfl
  | cons c rest =>
    obtain ⟨k, v⟩ := c
    simp only [Memory.risingFrom, Bool.and_eq_true, decide_eq_true_eq] at hm ⊢
    exact ⟨by omega, hm.2⟩

theorem Memory.risingFrom_put {m : Memory} {lo a : Nat} {v : Byte} (hm : Memory.risingFrom lo m = true) (h : lo ≤ a) :
    Memory.risingFrom lo (Memory.put m a v) = true := by
  induction m generalizing lo with
  | nil => simpa [Memory.put, Memory.risingFrom]
  | cons c rest ih =>
    obtain ⟨k, w⟩ := c
    simp only [Memory.risingFrom, Bool.and_eq_true, decide_eq_true_eq] at hm
    simp only [Memory.put]
    split
    · simp only [Memory.risingFrom, Bool.and_eq_true, decide_eq_true_eq]
      exact ⟨h, by omega, hm.2⟩
    · split
      · subst_vars
        simp only [Memory.risingFrom, Bool.and_eq_true, decide_eq_true_eq]
        exact ⟨h, hm.2⟩
      · simp only [Memory.risingFrom, Bool.and_eq_true, decide_eq_true_eq]
        exact ⟨hm.1, ih hm.2 (by omega)⟩

/-- A write keeps the canonical form. -/
theorem Memory.put_wf {m : Memory} (hm : m.wf = true) (a : Nat) (v : Byte) : Memory.wf (Memory.put m a v) = true :=
  Memory.risingFrom_put hm (Nat.zero_le a)

/-- `MemWrite` keeps the canonical form. -/
theorem Memory.putBytes_wf {m : Memory} (hm : m.wf = true) (bs : List Byte) (a : Nat) :
    (Memory.putBytes m a bs).wf = true := by
  induction bs generalizing a with
  | nil => exact hm
  | cons b bs ih => exact Memory.put_wf (ih (a + 1)) a b

theorem Memory.put_below {m : Memory} {n : Nat} (hm : m.below n = true) {a : Nat} (h : a < n) (v : Byte) :
    Memory.below n (Memory.put m a v) = true := by
  induction m with
  | nil => simpa [Memory.put, Memory.below]
  | cons c rest ih =>
    obtain ⟨k, w⟩ := c
    simp only [Memory.below, List.all_cons, Bool.and_eq_true, decide_eq_true_eq] at hm ih ⊢
    simp only [Memory.put]
    split
    · simp only [List.all_cons, Bool.and_eq_true, decide_eq_true_eq]; exact ⟨h, hm⟩
    · split
      · simp only [List.all_cons, Bool.and_eq_true, decide_eq_true_eq]; exact ⟨h, hm.2⟩
      · simp only [List.all_cons, Bool.and_eq_true, decide_eq_true_eq]; exact ⟨hm.1, ih hm.2⟩

theorem Memory.putBytes_below {m : Memory} {n : Nat} (hm : m.below n = true) (bs : List Byte) {a : Nat}
    (h : a + bs.length ≤ n) : (Memory.putBytes m a bs).below n = true := by
  induction bs generalizing a with
  | nil => exact hm
  | cons b bs ih =>
    simp only [List.length_cons] at h
    exact Memory.put_below (ih (by omega)) (by omega) b

theorem Memory.get?_of_lt {m : Memory} {lo k : Nat} (hm : Memory.risingFrom lo m = true) (h : k < lo) :
    m.get? k = none := by
  induction m generalizing lo with
  | nil => rfl
  | cons c rest ih =>
    obtain ⟨j, w⟩ := c
    simp only [Memory.risingFrom, Bool.and_eq_true, decide_eq_true_eq] at hm
    have hj : j ≠ k := by omega
    simp only [Memory.get?, if_neg hj]
    exact ih hm.2 (by omega)

/-- Two memories in canonical form that hold the same bytes are the same list. -/
theorem Memory.ext_of_risingFrom {m m' : Memory} {lo : Nat} (hm : Memory.risingFrom lo m = true)
    (hm' : Memory.risingFrom lo m' = true) (h : ∀ k, m.get? k = m'.get? k) : m = m' := by
  induction m generalizing m' lo with
  | nil =>
    cases m' with
    | nil => rfl
    | cons c rest =>
      obtain ⟨k, v⟩ := c
      have := h k
      simp [Memory.get?] at this
  | cons c rest ih =>
    obtain ⟨k, v⟩ := c
    cases m' with
    | nil =>
      have := h k
      simp [Memory.get?] at this
    | cons c' rest' =>
      obtain ⟨k', v'⟩ := c'
      simp only [Memory.risingFrom, Bool.and_eq_true, decide_eq_true_eq] at hm hm'
      have hk : k = k' := by
        rcases Nat.lt_trichotomy k k' with hlt | heq | hgt
        · have := h k
          simp only [Memory.get?, if_true] at this
          rw [if_neg (by omega), Memory.get?_of_lt hm'.2 (by omega)] at this
          exact absurd this (by simp)
        · exact heq
        · have := h k'
          simp only [Memory.get?, if_true] at this
          rw [if_neg (by omega), Memory.get?_of_lt hm.2 (by omega)] at this
          exact absurd this (by simp)
      subst hk
      have hv : v = v' := by simpa [Memory.get?] using h k
      subst hv
      congr 1
      refine ih hm.2 hm'.2 fun j => ?_
      by_cases hj : k = j
      · subst hj
        rw [Memory.get?_of_lt hm.2 (by omega), Memory.get?_of_lt hm'.2 (by omega)]
      · simpa [Memory.get?, if_neg hj] using h j

theorem Memory.ext_of_wf {m m' : Memory} (hm : m.wf = true) (hm' : m'.wf = true)
    (h : ∀ k, m.get? k = m'.get? k) : m = m' :=
  Memory.ext_of_risingFrom hm hm' h

/-! ## The framebuffer -/

@[simp] theorem State.fbPage_length (s : State) (p : Nat) : (s.fbPage p).length = 128 := by
  simp [State.fbPage, State.fbRead]

/-- A page read is its 128 bytes, column after column (20_memory R61). -/
theorem State.fbPage_eq (s : State) (p : Nat) :
    s.fbPage p = (List.range 128).map (fun i => s.fbByte (128 * p + i)) := rfl

/-- After `MemWrite` of a byte string from address 0 the framebuffer reads as the string. -/
theorem State.fbByte_fbWrite (s : State) (bs : List Byte) {a : Nat} (h : a < bs.length) :
    (s.fbWrite 0 bs).fbByte a = bs[a] := by
  have : (Memory.putBytes s.seq.fb 0 bs).get? a = some bs[a] := by
    rw [Memory.get?_putBytes, if_pos ⟨Nat.zero_le a, by omega⟩]
    simp [h]
  simp [State.fbByte, State.fbWrite, this]

end Sys2Proof.Machine
end

