-- ==== Sys2Proof/Laws/State.lean ====
section
/-!
SUPPORT. One lemma for each record of the state under each update, so that no later proof unfolds an update.
-/

namespace Sys2Proof.Machine

variable (s : State)

@[simp] theorem State.setLife_seq (l : Life) : (s.setLife l).seq = { s.seq with life := l } := rfl
@[simp] theorem State.setLife_lcdc (l : Life) : (s.setLife l).lcdc = s.lcdc := rfl
@[simp] theorem State.setLife_env (l : Life) : (s.setLife l).env = s.env := rfl

@[simp] theorem State.setPinOut_seq : s.setPinOut.seq = { s.seq with pinOut := true } := rfl
@[simp] theorem State.setPinOut_lcdc : s.setPinOut.lcdc = s.lcdc := rfl
@[simp] theorem State.setPinOut_env : s.setPinOut.env = s.env := rfl

@[simp] theorem State.setBus_seq (b : BusState) : (s.setBus b).seq = { s.seq with bus := b } := rfl
@[simp] theorem State.setBus_lcdc (b : BusState) : (s.setBus b).lcdc = s.lcdc := rfl
@[simp] theorem State.setBus_env (b : BusState) : (s.setBus b).env = s.env := rfl

@[simp] theorem State.setLcdc_seq (c : Lcdc) : (s.setLcdc c).seq = s.seq := rfl
@[simp] theorem State.setLcdc_lcdc (c : Lcdc) : (s.setLcdc c).lcdc = c := rfl
@[simp] theorem State.setLcdc_env (c : Lcdc) : (s.setLcdc c).env = s.env := rfl

@[simp] theorem State.setLatch_dc_seq (l : Level) : (s.setLatch .dc l).seq = { s.seq with dc := .driven l } := rfl
@[simp] theorem State.setLatch_rst_seq (l : Level) : (s.setLatch .rst l).seq = { s.seq with rst := .driven l } := rfl
@[simp] theorem State.setLatch_lcdc (p : CtlPin) (l : Level) : (s.setLatch p l).lcdc = s.lcdc := by cases p <;> rfl
@[simp] theorem State.setLatch_env (p : CtlPin) (l : Level) : (s.setLatch p l).env = s.env := by cases p <;> rfl

@[simp] theorem State.fbWrite_seq (a : Nat) (bs : List Byte) :
    (s.fbWrite a bs).seq = { s.seq with fb := s.seq.fb.putBytes a bs } := rfl
@[simp] theorem State.fbWrite_lcdc (a : Nat) (bs : List Byte) : (s.fbWrite a bs).lcdc = s.lcdc := rfl
@[simp] theorem State.fbWrite_env (a : Nat) (bs : List Byte) : (s.fbWrite a bs).env = s.env := rfl

@[simp] theorem State.fbUnspecified_seq : s.fbUnspecified.seq = { s.seq with fb := [] } := rfl
@[simp] theorem State.fbUnspecified_lcdc : s.fbUnspecified.lcdc = s.lcdc := rfl
@[simp] theorem State.fbUnspecified_env : s.fbUnspecified.env = s.env := rfl

@[simp] theorem State.emit_seq (e : Event) : (s.emit e).seq = s.seq := rfl
@[simp] theorem State.emit_lcdc (e : Event) : (s.emit e).lcdc = s.lcdc := rfl
@[simp] theorem State.emit_env (e : Event) : (s.emit e).env = { s.env with events := s.env.events ++ [e] } := rfl

@[simp] theorem State.consume_seq : s.consume.seq = s.seq := rfl
@[simp] theorem State.consume_lcdc : s.consume.lcdc = s.lcdc := rfl
@[simp] theorem State.consume_env : s.consume.env = { s.env with consumed := s.env.consumed + 1 } := rfl

@[simp] theorem State.report_seq (r : Result) : (s.report r).seq = s.seq := rfl
@[simp] theorem State.report_lcdc (r : Result) : (s.report r).lcdc = s.lcdc := rfl
@[simp] theorem State.report_env (r : Result) :
    (s.report r).env = { s.env with results := s.env.results ++ [r] } := rfl

@[simp] theorem State.withInbox_seq (rest : List Input) : (s.withInbox rest).seq = s.seq := rfl
@[simp] theorem State.withInbox_lcdc (rest : List Input) : (s.withInbox rest).lcdc = s.lcdc := rfl
@[simp] theorem State.withInbox_env (rest : List Input) :
    (s.withInbox rest).env = { s.env with inbox := rest } := rfl

/-- Driving a pin, whichever: the latch, the event, and the reset pin's action on the controller. -/
@[simp] theorem State.drivePin_dc (l : Level) :
    s.drivePin .dc l =
      { seq := { s.seq with dc := .driven l }, lcdc := s.lcdc
        env := { s.env with events := s.env.events ++ [.setPin .dc l] } } := rfl

@[simp] theorem State.drivePin_rst (l : Level) :
    s.drivePin .rst l =
      { seq := { s.seq with rst := .driven l }, lcdc := s.lcdc.resetPin s.env.lcdcFresh s.seq.rst l
        env := { s.env with events := s.env.events ++ [.setPin .rst l] } } := rfl

/-- The answers depend on the written-down stream alone. -/
theorem Env.answerAt_eq (e : Env) (k : Nat) : e.answerAt k = answerFrom e.answers k := rfl

theorem State.nextAnswer_eq : s.nextAnswer = answerFrom s.env.answers s.env.consumed := rfl

end Sys2Proof.Machine
end

