-- ==== Sys2Proof/Laws/Script.lean ====
section
/-!
SUPPORT. Everything a script can do, said once: the trace it leaves is a function of the script and the answers, and the
state after it is a function of that trace.
-/

namespace Sys2Proof.Machine

/-! ## The trace of a script -/

/-- The events a statement emits if it is answered `ok`. -/
def Action.events (cfg : BusConfig) : Action → List Event
  | .pinDir pin => [.pinDir pin]
  | .pinsAreOutputs => []
  | .setPin pin level => [.setPin pin level]
  | .busOpen => [.busOpen cfg .ok]
  | .transmit bytes _ => [.transmit bytes .ok]
  | .delay t => [.delay t]
  | .busClose => [.busClose]

/-- The trace of a script all of whose answers are `ok`. -/
def scriptTrace (cfg : BusConfig) (script : List Action) : List Event := script.flatMap (Action.events cfg)

/-- The trace of a script under a stream of answers, from position k of it. -/
def traceOf (cfg : BusConfig) (ans : Nat → Answer) : Nat → List Action → List Event
  | _, [] => []
  | k, .busOpen :: rest =>
    match ans k with
    | .ok => .busOpen cfg .ok :: traceOf cfg ans (k + 1) rest
    | .fail => [.busOpen cfg .fail]
  | k, .transmit bytes _ :: rest =>
    match ans k with
    | .ok => .transmit bytes .ok :: traceOf cfg ans (k + 1) rest
    | .fail => [.transmit bytes .fail]
  | k, .pinDir pin :: rest => .pinDir pin :: traceOf cfg ans k rest
  | k, .pinsAreOutputs :: rest => traceOf cfg ans k rest
  | k, .setPin pin level :: rest => .setPin pin level :: traceOf cfg ans k rest
  | k, .delay t :: rest => .delay t :: traceOf cfg ans k rest
  | k, .busClose :: rest => .busClose :: traceOf cfg ans k rest

/-- The trace a script leaves when it is run in a state. -/
def State.traceFor (s : State) (script : List Action) : List Event :=
  traceOf s.seq.binding.busConfig (answerFrom s.env.answers) s.env.consumed script

@[simp] theorem scriptTrace_append (cfg : BusConfig) (xs ys : List Action) :
    scriptTrace cfg (xs ++ ys) = scriptTrace cfg xs ++ scriptTrace cfg ys := by
  simp [scriptTrace]

@[simp] theorem answersIn_nil : answersIn [] = 0 := rfl
@[simp] theorem answersIn_append (xs ys : List Event) : answersIn (xs ++ ys) = answersIn xs + answersIn ys := by
  simp [answersIn]
theorem answersIn_cons (e : Event) (es : List Event) :
    answersIn (e :: es) = answersIn es + if e.answer?.isSome then 1 else 0 := by
  simp [answersIn, List.countP_cons]

/-- With enough answers `ok` the trace is the script's whole trace. -/
theorem traceOf_ok (cfg : BusConfig) (ans : Nat → Answer) (script : List Action) (k : Nat)
    (h : ∀ j < answersIn (scriptTrace cfg script), ans (k + j) = .ok) :
    traceOf cfg ans k script = scriptTrace cfg script := by
  induction script generalizing k with
  | nil => rfl
  | cons a rest ih =>
    rw [show scriptTrace cfg (a :: rest) = a.events cfg ++ scriptTrace cfg rest from rfl] at h ⊢
    cases a
    case busOpen =>
      have h0 := h 0 (by simp [Action.events, answersIn_cons, Event.answer?])
      simp only [Nat.add_zero] at h0
      simp only [traceOf, h0, Action.events, List.cons_append, List.nil_append]
      rw [ih]
      intro j hj
      have := h (j + 1) (by simp [Action.events, answersIn_cons, Event.answer?]; omega)
      rwa [show k + 1 + j = k + (j + 1) by omega]
    case transmit bytes at_ =>
      have h0 := h 0 (by simp [Action.events, answersIn_cons, Event.answer?])
      simp only [Nat.add_zero] at h0
      simp only [traceOf, h0, Action.events, List.cons_append, List.nil_append]
      rw [ih]
      intro j hj
      have := h (j + 1) (by simp [Action.events, answersIn_cons, Event.answer?]; omega)
      rwa [show k + 1 + j = k + (j + 1) by omega]
    all_goals
      simp only [traceOf, Action.events, List.cons_append, List.nil_append]
      rw [ih]
      intro j hj
      exact h j (by simpa [Action.events, answersIn_cons, Event.answer?] using hj)

/-- If answer number n, counted from 1, is the first `fail`, the trace is the whole trace cut there. -/
theorem traceOf_fail (cfg : BusConfig) (ans : Nat → Answer) (script : List Action) (k n : Nat) (h1 : 1 ≤ n)
    (hn : n ≤ answersIn (scriptTrace cfg script)) (hok : ∀ j < n - 1, ans (k + j) = .ok)
    (hfail : ans (k + (n - 1)) = .fail) :
    traceOf cfg ans k script = failAt n (scriptTrace cfg script) := by
  induction script generalizing k n with
  | nil => simp [scriptTrace] at hn; omega
  | cons a rest ih =>
    rw [show scriptTrace cfg (a :: rest) = a.events cfg ++ scriptTrace cfg rest from rfl] at hn ⊢
    cases a
    case busOpen =>
      simp only [Action.events, List.cons_append, List.nil_append, answersIn_cons, Event.answer?] at hn ⊢
      by_cases hn1 : n = 1
      · subst hn1
        simp only [Nat.sub_self, Nat.add_zero] at hfail
        simp [traceOf, hfail, failAt]
      · have h0 := hok 0 (by omega)
        simp only [Nat.add_zero] at h0
        simp only [traceOf, h0, failAt, if_neg hn1]
        rw [ih (k + 1) (n - 1) (by omega) (by simp at hn; omega)]
        · intro j hj
          have := hok (j + 1) (by omega)
          rwa [show k + 1 + j = k + (j + 1) by omega]
        · rwa [show k + 1 + (n - 1 - 1) = k + (n - 1) by omega]
    case transmit bytes at_ =>
      simp only [Action.events, List.cons_append, List.nil_append, answersIn_cons, Event.answer?] at hn ⊢
      by_cases hn1 : n = 1
      · subst hn1
        simp only [Nat.sub_self, Nat.add_zero] at hfail
        simp [traceOf, hfail, failAt]
      · have h0 := hok 0 (by omega)
        simp only [Nat.add_zero] at h0
        simp only [traceOf, h0, failAt, if_neg hn1]
        rw [ih (k + 1) (n - 1) (by omega) (by simp at hn; omega)]
        · intro j hj
          have := hok (j + 1) (by omega)
          rwa [show k + 1 + j = k + (j + 1) by omega]
        · rwa [show k + 1 + (n - 1 - 1) = k + (n - 1) by omega]
    all_goals
      simp only [traceOf, Action.events, List.cons_append, List.nil_append, failAt]
      rw [ih k n h1 (by simpa [Action.events, answersIn_cons, Event.answer?] using hn) hok hfail]

/-- Nothing follows a failed answer in the trace of a script. -/
theorem failureEndsTrace_traceOf (cfg : BusConfig) (ans : Nat → Answer) (script : List Action) (k : Nat) :
    failureEndsTrace (traceOf cfg ans k script) = true := by
  induction script generalizing k with
  | nil => rfl
  | cons a rest ih =>
    cases a <;> simp only [traceOf] <;> try split
    all_goals simp [failureEndsTrace, Event.answer?, ih]

/-- A check that reads a trace from the front, does not look at answers, and holds of every beginning of a trace it holds
of: such a check need only be made of the whole trace. -/
theorem traceOf_check {σ : Type} (check : σ → List Event → Bool) (next : σ → Event → σ) (good : σ → Event → Bool)
    (hnil : ∀ x, check x [] = true)
    (hcons : ∀ x e es, check x (e :: es) = (good x e && check (next x e) es))
    (hopen : ∀ x cfg, good x (.busOpen cfg .fail) = good x (.busOpen cfg .ok))
    (htransmit : ∀ x bytes, good x (.transmit bytes .fail) = good x (.transmit bytes .ok))
    (cfg : BusConfig) (ans : Nat → Answer) (script : List Action) (k : Nat) (x : σ)
    (h : check x (scriptTrace cfg script) = true) : check x (traceOf cfg ans k script) = true := by
  induction script generalizing k x with
  | nil => simpa [traceOf, scriptTrace] using h
  | cons a rest ih =>
    rw [show scriptTrace cfg (a :: rest) = a.events cfg ++ scriptTrace cfg rest from rfl] at h
    cases a <;> simp only [Action.events, List.cons_append, List.nil_append, hcons, Bool.and_eq_true, traceOf] at h ⊢
    case busOpen =>
      split
      · simp only [hcons, h.1, Bool.true_and]; exact ih _ _ h.2
      · simp only [hcons, hopen, h.1, hnil, Bool.and_self]
    case transmit =>
      split
      · simp only [hcons, h.1, Bool.true_and]; exact ih _ _ h.2
      · simp only [hcons, htransmit, h.1, hnil, Bool.and_self]
    case pinsAreOutputs => exact ih _ _ h
    all_goals exact ⟨h.1, ih _ _ h.2⟩

/-- The trace of a script is no longer than its whole trace. -/
theorem traceOf_length_le (cfg : BusConfig) (ans : Nat → Answer) (script : List Action) (k : Nat) :
    (traceOf cfg ans k script).length ≤ (scriptTrace cfg script).length := by
  induction script generalizing k with
  | nil => simp [traceOf]
  | cons a rest ih =>
    rw [show scriptTrace cfg (a :: rest) = a.events cfg ++ scriptTrace cfg rest from rfl]
    cases a <;> simp only [traceOf, Action.events, List.cons_append, List.nil_append] <;> try split
    all_goals first | exact ih k | exact Nat.add_le_add_right (ih _) 1 | simp

/-! ## The state after a script -/

/-- The shadow after a trace, which begins with these levels of RST and DC. -/
def lcdcAfter (fresh : Bool) (rst dc : Latch) (c : Lcdc) : List Event → Lcdc
  | [] => c
  | .setPin .dc v :: es => lcdcAfter fresh rst (.driven v) c es
  | .setPin .rst v :: es => lcdcAfter fresh (.driven v) dc (c.resetPin fresh rst v) es
  | .transmit bytes .ok :: es => lcdcAfter fresh rst dc (c.receiveAll dc bytes) es
  | .transmit _ .fail :: es => lcdcAfter fresh rst dc c.forget es
  | .pinDir _ :: es | .busOpen _ _ :: es | .delay _ :: es | .busClose :: es => lcdcAfter fresh rst dc c es

/-- Whether a run reaches the statement `pin_out <- true`, under a stream of answers. -/
def pinOutAfter (ans : Nat → Answer) (was : Bool) : Nat → List Action → Bool
  | _, [] => was
  | k, .busOpen :: rest | k, .transmit _ _ :: rest =>
    match ans k with
    | .ok => pinOutAfter ans was (k + 1) rest
    | .fail => was
  | k, .pinsAreOutputs :: rest => pinOutAfter ans true k rest
  | k, .pinDir _ :: rest | k, .setPin _ _ :: rest | k, .delay _ :: rest | k, .busClose :: rest =>
    pinOutAfter ans was k rest

/-- The state after a trace. -/
def State.after (s : State) (pinOut : Bool) (es : List Event) : State where
  seq := { s.seq with
    dc := levelAfter .dc s.seq.dc es, rst := levelAfter .rst s.seq.rst es, pinOut := pinOut
    bus := busAfter s.seq.bus es }
  lcdc := lcdcAfter s.env.lcdcFresh s.seq.rst s.seq.dc s.lcdc es
  env := { s.env with consumed := s.env.consumed + answersIn es, events := s.env.events ++ es }

/-- The state after a script is the state after its trace. -/
theorem runScript_state (s : State) (script : List Action) :
    (runScript s script).1 =
      s.after (pinOutAfter (answerFrom s.env.answers) s.seq.pinOut s.env.consumed script) (s.traceFor script) := by
  induction script generalizing s with
  | nil => simp [runScript, State.traceFor, traceOf, State.after, levelAfter, busAfter, lcdcAfter, pinOutAfter]
  | cons a rest ih =>
    cases a
    case busOpen =>
      cases h : s.nextAnswer <;> have h' := h <;> rw [State.nextAnswer_eq] at h'
      all_goals
        simp only [runScript, Action.run, State.openBus, h, ih]
        simp [State.traceFor, traceOf, State.after, levelAfter, busAfter, lcdcAfter, pinOutAfter, h', answersIn_cons,
          Event.answer?, Nat.add_assoc, Nat.add_comm 1, State.consume, State.emit]
    case transmit bytes at_ =>
      cases h : s.nextAnswer <;> have h' := h <;> rw [State.nextAnswer_eq] at h'
      all_goals
        simp only [runScript, Action.run, State.transmit, h, ih]
        simp [State.traceFor, traceOf, State.after, levelAfter, busAfter, lcdcAfter, pinOutAfter, h', answersIn_cons,
          Event.answer?, Nat.add_assoc, Nat.add_comm 1, State.consume, State.emit, State.setLcdc]
    case setPin pin l =>
      cases pin <;> simp only [runScript, Action.run, ih] <;>
        simp [State.traceFor, traceOf, State.after, levelAfter, busAfter, lcdcAfter, pinOutAfter, answersIn_cons,
          Event.answer?]
    all_goals
      simp only [runScript, Action.run, ih]
      simp [State.traceFor, traceOf, State.after, levelAfter, busAfter, lcdcAfter, pinOutAfter, answersIn_cons,
          Event.answer?]

/-- A script failed exactly if its trace holds a failed answer. -/
theorem runScript_failed (s : State) (script : List Action) :
    (runScript s script).2.isSome = hasFailure (s.traceFor script) := by
  induction script generalizing s with
  | nil => rfl
  | cons a rest ih =>
    cases a
    case busOpen =>
      cases h : s.nextAnswer <;> have h' := h <;> rw [State.nextAnswer_eq] at h'
      all_goals
        simp only [runScript, Action.run, State.openBus, h, ih]
        simp [State.traceFor, traceOf, h', hasFailure, Event.answer?]
    case transmit bytes at_ =>
      cases h : s.nextAnswer <;> have h' := h <;> rw [State.nextAnswer_eq] at h'
      all_goals
        simp only [runScript, Action.run, State.transmit, h, ih]
        simp [State.traceFor, traceOf, h', hasFailure, Event.answer?]
    case setPin pin l =>
      cases pin <;> simp only [runScript, Action.run, ih] <;> simp [State.traceFor, traceOf, hasFailure, Event.answer?]
    all_goals
      simp only [runScript, Action.run, ih]
      simp [State.traceFor, traceOf, hasFailure, Event.answer?]

/-- A script with no `pin_out <- true` leaves `pin_out` as it was. -/
theorem pinOutAfter_of_not_mem (ans : Nat → Answer) (was : Bool) (script : List Action) (k : Nat)
    (h : Action.pinsAreOutputs ∉ script) : pinOutAfter ans was k script = was := by
  induction script generalizing k with
  | nil => rfl
  | cons a rest ih =>
    simp only [List.mem_cons, not_or] at h
    cases a <;> simp only [pinOutAfter] <;> try split
    all_goals first | rfl | exact ih _ h.2 | exact absurd rfl h.1

/-! ## The two cases of a run -/

/-- With enough answers `ok`, a script runs to its end and leaves its whole trace. -/
theorem runScript_of_ok {s : State} {script : List Action} {es : List Event}
    (hes : scriptTrace s.seq.binding.busConfig script = es) (h : AnswersOk s (answersIn es)) :
    s.traceFor script = es ∧ hasFailure es = false ∧ (runScript s script).2 = none := by
  have ht : s.traceFor script = es := by
    subst hes
    exact traceOf_ok _ _ _ _ h
  have hf : hasFailure es = false := by
    subst hes
    simp only [hasFailure, List.any_eq_false, scriptTrace, List.mem_flatMap]
    rintro e ⟨a, -, he⟩
    cases a <;> simp_all [Action.events, Event.answer?]
  refine ⟨ht, hf, ?_⟩
  have := runScript_failed s script
  rw [ht, hf] at this
  simpa using this

/-- If the first `fail` is at answer n of a script's, the script stops there. -/
theorem runScript_of_fail {s : State} {script : List Action} {es : List Event} {n : Nat}
    (hes : scriptTrace s.seq.binding.busConfig script = es) (h : FirstFail s n) (hn : n ≤ answersIn es) :
    s.traceFor script = failAt n es := by
  subst hes
  exact traceOf_fail _ _ _ _ n h.1 hn h.2.1 h.2.2

/-- Of the next n answers, all are `ok` or one is the first `fail`. -/
theorem answersOk_or_firstFail (s : State) (n : Nat) : AnswersOk s n ∨ ∃ j, j ≤ n ∧ FirstFail s j := by
  induction n with
  | zero => exact .inl fun k hk => absurd hk (by omega)
  | succ n ih =>
    rcases ih with hok | ⟨j, hj, hf⟩
    · cases h : s.env.answerAt (s.env.consumed + n) with
      | ok =>
        refine .inl fun k hk => ?_
        rcases Nat.lt_succ_iff_lt_or_eq.1 hk with hlt | heq
        · exact hok k hlt
        · exact heq ▸ h
      | fail => exact .inr ⟨n + 1, le_refl _, by omega, by simpa using hok, by simpa using h⟩
    · exact .inr ⟨j, by omega, hf⟩

end Sys2Proof.Machine
end

