-- ==== Sys2Proof/Laws/Shadow.lean ====
section
/-!
SUPPORT. What a received byte, a transfer and the reset pin can do to the shadow of the controller, said once.
-/

namespace Sys2Proof.Machine

@[simp] theorem Lcdc.forget_eq (c : Lcdc) : c.forget = Lcdc.allUnknown := rfl
@[simp] theorem Lcdc.allUnknown_lcdcKnown : Lcdc.allUnknown.lcdcKnown = false := rfl
@[simp] theorem Lcdc.allUnknown_ddram : Lcdc.allUnknown.ddram = [] := rfl

theorem Lcdc.whenKnown_of_known {c : Lcdc} (h : c.lcdcKnown = true) (f : Lcdc → Lcdc) : c.whenKnown f = f c := by
  simp [Lcdc.whenKnown, h]

theorem Lcdc.whenKnown_of_unknown {c : Lcdc} (h : c.lcdcKnown = false) (f : Lcdc → Lcdc) : c.whenKnown f = c := by
  simp [Lcdc.whenKnown, h]

/-! ## One byte -/

/-- While the shadow is unknown a byte changes nothing (43 R180). -/
theorem Lcdc.apply_of_unknown {c : Lcdc} (h : c.lcdcKnown = false) (i : Instr) : c.apply i = c := by
  cases i <;>
    simp only [Lcdc.apply, Lcdc.colLo, Lcdc.colHi, Lcdc.setRatio, Lcdc.setPower, Lcdc.setStartLine, Lcdc.awaitParam,
      Lcdc.setScanReverse, Lcdc.setBias, Lcdc.setAllPoints, Lcdc.setReverse, Lcdc.setSleep, Lcdc.setDisplayOn,
      Lcdc.setPage, Lcdc.setComReverse, Lcdc.internalReset, Lcdc.takeParam, Lcdc.dataWrite,
      Lcdc.whenKnown_of_unknown h]

theorem Lcdc.receive_of_unknown {c : Lcdc} (h : c.lcdcKnown = false) (m : Latch) (b : Byte) : c.receive m b = c := by
  unfold Lcdc.receive
  split
  · exact Lcdc.apply_of_unknown h _
  · exact Lcdc.whenKnown_of_unknown h _

theorem Lcdc.receiveAll_of_unknown {c : Lcdc} (h : c.lcdcKnown = false) (m : Latch) (bs : List Byte) :
    c.receiveAll m bs = c := by
  induction bs with
  | nil => rfl
  | cons b bs ih =>
    show Lcdc.receiveAll m (c.receive m b) bs = c
    rw [Lcdc.receive_of_unknown h, ih]

/-- A byte with DC low and no parameter awaited is the command of the map (43 R180). -/
theorem Lcdc.receive_command {c : Lcdc} (hp : c.evPending = .known false) {b : Byte} {i : Instr}
    (hd : decodeCommand b = .ok i) : c.receive (.driven .low) b = c.apply i := by
  simp [Lcdc.receive, Lcdc.decodeFor, contextOf, hp, decodeByte, hd]

/-- A byte with DC low and a parameter awaited is the parameter (43 R205). -/
theorem Lcdc.receive_parameter {c : Lcdc} (hp : c.evPending = .known true) (b : Byte) :
    c.receive (.driven .low) b = c.takeParam b := by
  simp [Lcdc.receive, Lcdc.decodeFor, contextOf, hp, decodeByte, Lcdc.apply]

/-- A byte with DC high is data (43 R206). -/
theorem Lcdc.receive_data (c : Lcdc) (b : Byte) : c.receive (.driven .high) b = c.dataWrite b := by
  simp [Lcdc.receive, Lcdc.decodeFor, contextOf, decodeByte, Lcdc.apply]

@[simp] theorem Lcdc.receiveAll_nil (m : Latch) (c : Lcdc) : c.receiveAll m [] = c := rfl
@[simp] theorem Lcdc.receiveAll_cons (m : Latch) (c : Lcdc) (b : Byte) (bs : List Byte) :
    c.receiveAll m (b :: bs) = (c.receive m b).receiveAll m bs := rfl

/-! ## The column address -/

theorem Lcdc.ca_of_halves {c : Lcdc} {h l : BitVec 4} (hh : c.caHi = .known h) (hl : c.caLo = .known l) :
    c.ca = .known (h ++ l) := by
  simp [Lcdc.ca, hh, hl]

@[simp] theorem Lcdc.ca_setCa (c : Lcdc) (v : Byte) : (c.setCa v).ca = .known v := by
  simp only [Lcdc.setCa, Lcdc.ca, Shadow.known.injEq]
  apply BitVec.eq_of_getLsbD_eq
  intro i hi
  simp only [BitVec.getLsbD_append, BitVec.getLsbD_extractLsb']
  by_cases h : i < 4
  · simp [h]
  · simp [h]
    have h4 : i - 4 < 4 := by omega
    simp [h4, show 4 + (i - 4) = i by omega]

@[simp] theorem Lcdc.ca_loseCa (c : Lcdc) : c.loseCa.ca = .unknown := rfl

theorem Lcdc.ca_known {c : Lcdc} {v : Byte} (h : c.ca = .known v) :
    ∃ hi lo, c.caHi = .known hi ∧ c.caLo = .known lo ∧ v = hi ++ lo := by
  unfold Lcdc.ca at h
  split at h
  · rename_i hi lo hhi hlo
    refine ⟨hi, lo, hhi, hlo, ?_⟩
    simpa using h.symm
  · exact absurd h (by simp)

/-! ## Data bytes -/

/-- The window in numbers (10_state R34). -/
theorem inWindow_iff {p : BitVec 4} {a : Byte} : inWindow p a = true ↔ p ≤ 5 ∧ a ≤ 127 := by
  simp only [inWindow, Bool.and_eq_true, decide_eq_true_eq, BitVec.le_def]
  exact and_congr Nat.lt_succ_iff Nat.lt_succ_iff

/-- A data byte inside the window (43 R206). -/
theorem Lcdc.dataWrite_inside {c : Lcdc} {p : BitVec 4} {a b : Byte} (hk : c.lcdcKnown = true)
    (hv : c.evPending = .known false) (hp : c.pa = .known p) (ha : c.ca = .known a) (h : p ≤ 5 ∧ a ≤ 127) :
    c.dataWrite b = c.writeCell p a b := by
  rw [Lcdc.dataWrite, Lcdc.whenKnown_of_known hk]
  simp only [hv, hp, ha]
  rw [if_pos (inWindow_iff.2 h)]

/-- A run of data bytes inside one page, starting at column a (43 R206, R207): byte i lands in column a + i, no other
cell changes, CA steps past the last byte, and nothing else of the shadow changes. -/
theorem Lcdc.receiveAll_data {p : BitVec 4} (hp5 : p ≤ 5) (bs : List Byte) {c : Lcdc} {a : Nat}
    (hk : c.lcdcKnown = true) (hv : c.evPending = .known false) (hp : c.pa = .known p)
    (ha : c.ca = .known (BitVec.ofNat 8 a)) (hlen : a + bs.length ≤ 128) (hne : bs ≠ []) :
    ∃ m, c.receiveAll (.driven .high) bs =
        (if a + bs.length ≤ 127 then ({ c with ddram := m } : Lcdc).setCa (BitVec.ofNat 8 (a + bs.length))
         else ({ c with ddram := m } : Lcdc).loseCa) ∧
      (∀ k, m.get? k =
        if linear p.toNat a ≤ k ∧ k < linear p.toNat a + bs.length then bs[k - linear p.toNat a]?
        else c.ddram.get? k) ∧
      (c.ddram.wf = true → m.wf = true) ∧
      (c.ddram.below Config.params.fbSize = true → m.below Config.params.fbSize = true) := by
  induction bs generalizing c a with
  | nil => exact absurd rfl hne
  | cons b bs ih =>
    simp only [List.length_cons] at hlen
    have hpn : p.toNat ≤ 5 := by have := BitVec.le_def.1 hp5; simpa using this
    have han : (BitVec.ofNat 8 a).toNat = a := by simp; omega
    have ha127 : (BitVec.ofNat 8 a) ≤ (127 : Byte) := by
      rw [BitVec.le_def, han]; simp; omega
    rw [Lcdc.receiveAll_cons, Lcdc.receive_data, Lcdc.dataWrite_inside hk hv hp ha ⟨hp5, ha127⟩]
    have hput : ∀ k, (c.ddram.put (linear p.toNat a) b).get? k =
        if k = linear p.toNat a then some b else c.ddram.get? k := fun k => Memory.get?_put ..
    have hput_wf : c.ddram.wf = true → (c.ddram.put (linear p.toNat a) b).wf = true := fun h => Memory.put_wf h _ _
    have hput_below : c.ddram.below Config.params.fbSize = true →
        (c.ddram.put (linear p.toNat a) b).below Config.params.fbSize = true := fun h =>
      Memory.put_below h (by simp only [linear]; omega) b
    by_cases hbs : bs = []
    · subst hbs
      refine ⟨c.ddram.put (linear p.toNat a) b, ?_, ?_, hput_wf, hput_below⟩
      · simp only [Lcdc.writeCell, han, Lcdc.receiveAll_nil, List.length_cons, List.length_nil]
        by_cases h126 : a ≤ 126
        · rw [if_pos (by omega), if_pos (by omega)]
          congr 1
          apply BitVec.eq_of_toNat_eq
          simp
        · rw [if_neg (by omega), if_neg (by omega)]
      · intro k
        rw [hput]
        by_cases hk : k = linear p.toNat a
        · subst hk; simp
        · rw [if_neg hk, if_neg (by simp; omega)]
    · have hpos : 0 < bs.length := List.length_pos_iff.2 hbs
      have h126 : a + 1 < 128 := by omega
      simp only [Lcdc.writeCell, han, if_pos h126]
      have hnext : BitVec.ofNat 8 a + 1 = BitVec.ofNat 8 (a + 1) := by
        apply BitVec.eq_of_toNat_eq; simp
      rw [hnext]
      obtain ⟨m, hm, hget, hwf, hbelow⟩ :=
        ih (c := ({ c with ddram := c.ddram.put (linear p.toNat a) b } : Lcdc).setCa (BitVec.ofNat 8 (a + 1)))
          (a := a + 1) hk hv hp (Lcdc.ca_setCa _ _) (by omega) hbs
      refine ⟨m, ?_, ?_, fun h => hwf (hput_wf h), fun h => hbelow (hput_below h)⟩
      · rw [hm]
        simp only [List.length_cons, show a + 1 + bs.length = a + (bs.length + 1) by omega]
        split <;> rfl
      · intro k
        rw [hget k]
        have hlin : linear p.toNat (a + 1) = linear p.toNat a + 1 := by simp [linear]; omega
        have hdd : (({ c with ddram := c.ddram.put (linear p.toNat a) b } : Lcdc).setCa (BitVec.ofNat 8 (a + 1))).ddram
            = c.ddram.put (linear p.toNat a) b := rfl
        rw [hlin, hdd, hput]
        generalize linear p.toNat a = x
        simp only [List.length_cons]
        by_cases h1 : x + 1 ≤ k ∧ k < x + 1 + bs.length
        · have h2 : x ≤ k ∧ k < x + (bs.length + 1) := by omega
          rw [if_pos h1, if_pos h2, show k - x = (k - (x + 1)) + 1 by omega, List.getElem?_cons_succ]
        · rw [if_neg h1]
          by_cases h3 : k = x
          · subst h3; simp
          · rw [if_neg h3, if_neg (by omega)]

/-! ## The reset pin (43 R208) -/

/-- Driving the pin low resets the controller. -/
@[simp] theorem Lcdc.resetPin_low (c : Lcdc) (f : Bool) (was : Latch) : c.resetPin f was .low = Lcdc.allUnknown := rfl

/-- Driving it high from X, or from low, releases it. -/
@[simp] theorem Lcdc.resetPin_high_of_x (c : Lcdc) (f : Bool) : c.resetPin f .x .high = Lcdc.released f := rfl
@[simp] theorem Lcdc.resetPin_high_of_low (c : Lcdc) (f : Bool) :
    c.resetPin f (.driven .low) .high = Lcdc.released f := rfl

/-- Driving it high again does nothing. -/
@[simp] theorem Lcdc.resetPin_high_of_high (c : Lcdc) (f : Bool) : c.resetPin f (.driven .high) .high = c := rfl

/-! ## What holds of every shadow a run reaches -/

/-- The part of the invariant that is about the controller. -/
structure Lcdc.Ok (c : Lcdc) : Prop where
  ddram : c.ddram.wf = true ∧ c.ddram.below Config.params.fbSize = true
  forgotten : c.lcdcKnown = false → c = Lcdc.allUnknown
  decoding : c.lcdcKnown = true → c.evPending ≠ .unknown

theorem Lcdc.ok_allUnknown : Lcdc.allUnknown.Ok := ⟨⟨rfl, rfl⟩, fun _ => rfl, by simp⟩

theorem Lcdc.ok_released (f : Bool) : (Lcdc.released f).Ok := by
  cases f
  · exact Lcdc.ok_allUnknown
  · exact ⟨⟨rfl, rfl⟩, by simp [Lcdc.released], by simp [Lcdc.released]⟩

theorem Lcdc.Ok.loseCells {c : Lcdc} (h : c.Ok) (hk : c.lcdcKnown = true) : c.writeOutside.Ok :=
  ⟨⟨rfl, rfl⟩, fun h' => absurd h' (by simp [Lcdc.writeOutside, Lcdc.loseCa, hk]), h.decoding⟩

theorem Lcdc.Ok.writeCell {c : Lcdc} (h : c.Ok) (hk : c.lcdcKnown = true) {p : BitVec 4} {a : Byte} (hpa : p ≤ 5 ∧ a ≤ 127)
    (b : Byte) : (c.writeCell p a b).Ok := by
  have hp : p.toNat ≤ 5 := by simpa [BitVec.le_def] using hpa.1
  have ha : a.toNat ≤ 127 := by simpa [BitVec.le_def] using hpa.2
  have hd : (c.ddram.put (linear p.toNat a.toNat) b).wf = true ∧
      (c.ddram.put (linear p.toNat a.toNat) b).below Config.params.fbSize = true :=
    ⟨Memory.put_wf h.ddram.1 _ _,
      Memory.put_below h.ddram.2 (by simp only [linear]; omega) b⟩
  unfold Lcdc.writeCell
  dsimp only
  split
  · exact ⟨hd, fun h' => absurd h' (by simp [Lcdc.setCa, hk]), h.decoding⟩
  · exact ⟨hd, fun h' => absurd h' (by simp [Lcdc.loseCa, hk]), h.decoding⟩

theorem Lcdc.Ok.dataWrite {c : Lcdc} (h : c.Ok) (b : Byte) : (c.dataWrite b).Ok := by
  cases hk : c.lcdcKnown with
  | false => rw [Lcdc.dataWrite, Lcdc.whenKnown_of_unknown hk]; exact h
  | true =>
    rw [Lcdc.dataWrite, Lcdc.whenKnown_of_known hk]
    split
    · split
      · split
        · rename_i hpa; exact h.writeCell hk (inWindow_iff.1 hpa) b
        · exact h.loseCells hk
      · exact h.loseCells hk
    · exact Lcdc.ok_allUnknown

/-- Every byte keeps it. -/
theorem Lcdc.Ok.apply {c : Lcdc} (h : c.Ok) (i : Instr) : (c.apply i).Ok := by
  cases hk : c.lcdcKnown with
  | false => rw [Lcdc.apply_of_unknown hk]; exact h
  | true =>
    have hf : ¬ c.lcdcKnown = false := by simp [hk]
    cases i
    case data b => exact h.dataWrite b
    case intReset => simp only [Lcdc.apply, Lcdc.internalReset, Lcdc.whenKnown_of_known hk]; exact Lcdc.ok_allUnknown
    case evParam b =>
      simp only [Lcdc.apply, Lcdc.takeParam, Lcdc.whenKnown_of_known hk]
      exact ⟨h.ddram, fun h' => absurd h' hf, fun _ => by simp⟩
    case evSet =>
      simp only [Lcdc.apply, Lcdc.awaitParam, Lcdc.whenKnown_of_known hk]
      exact ⟨h.ddram, fun h' => absurd h' hf, fun _ => by simp⟩
    all_goals first
      | exact h
      | (simp only [Lcdc.apply, Lcdc.colLo, Lcdc.colHi, Lcdc.setRatio, Lcdc.setPower, Lcdc.setStartLine,
          Lcdc.setScanReverse, Lcdc.setBias, Lcdc.setAllPoints, Lcdc.setReverse, Lcdc.setSleep, Lcdc.setDisplayOn,
          Lcdc.setPage, Lcdc.setComReverse, Lcdc.whenKnown_of_known hk]
         exact ⟨h.ddram, fun h' => absurd h' hf, h.decoding⟩)

theorem Lcdc.Ok.undefinedByte {c : Lcdc} (h : c.Ok) : c.undefinedByte.Ok := by
  cases hk : c.lcdcKnown with
  | false => rw [Lcdc.undefinedByte, Lcdc.whenKnown_of_unknown hk]; exact h
  | true => rw [Lcdc.undefinedByte, Lcdc.whenKnown_of_known hk]; exact Lcdc.ok_allUnknown

theorem Lcdc.Ok.receive {c : Lcdc} (h : c.Ok) (m : Latch) (b : Byte) : (c.receive m b).Ok := by
  unfold Lcdc.receive
  split
  · exact h.apply _
  · exact h.undefinedByte

theorem Lcdc.Ok.receiveAll {c : Lcdc} (h : c.Ok) (m : Latch) (bs : List Byte) : (c.receiveAll m bs).Ok := by
  induction bs generalizing c with
  | nil => exact h
  | cons b bs ih => exact ih (h.receive m b)

theorem Lcdc.Ok.resetPin {c : Lcdc} (h : c.Ok) (f : Bool) (was : Latch) (l : Level) : (c.resetPin f was l).Ok := by
  unfold Lcdc.resetPin
  split
  · exact Lcdc.ok_allUnknown
  · split
    · exact h
    · exact Lcdc.ok_released f

end Sys2Proof.Machine
end

