-- ==== Sys2Proof/Laws/Exec.lean ====
section
/-!
SUPPORT. What an instruction can do, said once: if `exec` answers a next state, one of six cases holds.
-/

namespace Sys2Proof.Machine

/-- The statements of a runtime operation that uses pins or bus (41 R140 to R143, 42 R160 to R166). -/
def runtimeScript (s : State) : Instr → List Action
  | .reset => resetScript
  | .flush | .draw => drawScript s
  | .setDisplayMode sel => sendCmd (displayModeByte sel)
  | .setDisplayColor sel => sendCmd (displayColorByte sel)
  | .setContrast arg => sendCmd (ratioByte arg)
  | .setContrastDetail arg => sendCmd Opcode.evSet ++ sendCmd arg
  | .setSleepMode sel => sendCmd (sleepModeByte sel)
  | .setPageAddress arg => sendCmd (pageByte arg)
  | .setColumnAddress arg => sendCmd (colHiByte arg) ++ sendCmd (colLoByte arg)
  | .construct | .setPixelData _ | .release => []
  | .colLo _ | .colHi _ | .ratio _ | .pwr1 | .pwr2 | .pwr3 | .startLine _ | .evSet | .scanNormal | .scanReverse
  | .bias19 | .bias17 | .allptsNormal | .allptsOn | .dispNormal | .dispReverse | .sleep | .wake | .dispOff | .dispOn
  | .page _ | .comNormal | .comReverse | .intReset | .evParam _ | .data _ => []

/-- The check an operation makes of its operand (60 R221). -/
def operandCheck : Instr → Option ValidationCause
  | .setPixelData payload => lengthCheck payload
  | .setContrast arg => ratioCheck arg
  | .setContrastDetail arg => volumeCheck arg
  | .setPageAddress arg => pageCheck arg
  | .construct | .reset | .flush | .draw | .setDisplayMode _ | .setDisplayColor _ | .setSleepMode _
  | .setColumnAddress _ | .release => none
  | .colLo _ | .colHi _ | .ratio _ | .pwr1 | .pwr2 | .pwr3 | .startLine _ | .evSet | .scanNormal | .scanReverse
  | .bias19 | .bias17 | .allptsNormal | .allptsOn | .dispNormal | .dispReverse | .sleep | .wake | .dispOff | .dispOn
  | .page _ | .comNormal | .comReverse | .intReset | .evParam _ | .data _ => none

/-- The operations that run a script in READY. -/
def isScripted : Instr → Bool
  | .reset | .flush | .draw | .setDisplayMode _ | .setDisplayColor _ | .setContrast _ | .setContrastDetail _
  | .setSleepMode _ | .setPageAddress _ | .setColumnAddress _ => true
  | .construct | .setPixelData _ | .release => false
  | .colLo _ | .colHi _ | .ratio _ | .pwr1 | .pwr2 | .pwr3 | .startLine _ | .evSet | .scanNormal | .scanReverse
  | .bias19 | .bias17 | .allptsNormal | .allptsOn | .dispNormal | .dispReverse | .sleep | .wake | .dispOff | .dispOn
  | .page _ | .comNormal | .comReverse | .intReset | .evParam _ | .data _ => false

/-- The state an operation's script starts from: FLUSH zeroes the framebuffer first (41 R142). -/
def scriptBase (s : State) (i : Instr) : State := if i = .flush then s.fbClear else s

theorem gated_eq_next {accepts : Life → Bool} {s t : State} {op : State → Host.Outcome State Fault Refusal} :
    gated accepts s op = .next t ↔ accepts s.seq.life = true ∧ op s = .next t := by
  unfold gated
  split <;> simp_all

theorem Life.acceptsRuntime_iff {l : Life} : l.acceptsRuntime = true ↔ l = .ready := by cases l <;> decide
theorem Life.acceptsConstruct_iff {l : Life} : l.acceptsConstruct = true ↔ l = .unbuilt := by cases l <;> decide
theorem Life.acceptsRelease_iff {l : Life} : l.acceptsRelease = true ↔ l = .ready ∨ l = .failed := by
  cases l <;> decide

/-- A byte on the bus: the shadow alone changes (43 R180). -/
theorem exec_byte {i : Instr} (h : i.isHostOperation = false) (s : State) :
    exec i s = .next (s.setLcdc (s.lcdc.apply i)) := by
  cases i <;> first | rfl | simp [Instr.isHostOperation] at h

/-- A runtime operation in READY whose operand passes its check runs its script. -/
theorem exec_scripted {i : Instr} (h : isScripted i = true) {s : State} (hl : s.seq.life = .ready)
    (hc : operandCheck i = none) :
    exec i s = .next (runOperation (scriptBase s i) (runtimeScript (scriptBase s i) i)) := by
  cases i <;> first
    | (simp [isScripted] at h; done)
    | simp [exec, execReset, execFlush, execDraw, execSetDisplayMode, execSetDisplayColor, execSetContrast,
        execSetContrastDetail, execSetSleepMode, execSetPageAddress, execSetColumnAddress, gated, hl,
        Life.acceptsRuntime, scriptBase, runtimeScript, runChecked] <;> simp_all [operandCheck]

/-- An operation in READY whose operand fails its check is rejected, and only the result is new (60 R221). -/
theorem exec_rejected {i : Instr} {s : State} (hl : s.seq.life = .ready) {cause : ValidationCause}
    (hc : operandCheck i = some cause) : exec i s = .next (s.report .errValidation) := by
  cases i <;> first
    | (simp [operandCheck] at hc; done)
    | (simp only [operandCheck] at hc
       simp [exec, execSetPixelData, execSetContrast, execSetContrastDetail, execSetPageAddress, gated, hl,
         Life.acceptsRuntime, runChecked, hc, State.raise, Raise.result])

/-- What `exec` can answer. -/
theorem exec_cases {i : Instr} {s t : State} (h : exec i s = .next t) :
    (i.isHostOperation = false ∧ t = s.setLcdc (s.lcdc.apply i)) ∨
    (i = .construct ∧ s.seq.life = .unbuilt ∧ s.bindingFree = true ∧ t = constructEnd (runScript s constructScript)) ∨
    (i = .release ∧ (s.seq.life = .ready ∨ s.seq.life = .failed) ∧
      t = finish ((runScript s (releaseScript s)).1.setLife .released) none) ∨
    (s.seq.life = .ready ∧ (∃ cause, operandCheck i = some cause) ∧ t = s.report .errValidation) ∨
    (s.seq.life = .ready ∧ (∃ payload, i = .setPixelData payload ∧ payload.length = 768 ∧
      t = (s.fbWrite 0 payload).report .ok)) ∨
    (s.seq.life = .ready ∧ isScripted i = true ∧ operandCheck i = none ∧
      t = runOperation (scriptBase s i) (runtimeScript (scriptBase s i) i)) := by
  cases hb : i.isHostOperation with
  | false =>
    rw [exec_byte hb] at h
    exact .inl ⟨rfl, by simpa using h.symm⟩
  | true =>
    cases hs : isScripted i with
    | true =>
      have hl : s.seq.life = .ready := by
        cases i <;> first
          | (simp [isScripted] at hs; done)
          | (simp only [exec, execReset, execFlush, execDraw, execSetDisplayMode, execSetDisplayColor, execSetContrast,
               execSetContrastDetail, execSetSleepMode, execSetPageAddress, execSetColumnAddress] at h
             exact Life.acceptsRuntime_iff.1 (gated_eq_next.1 h).1)
      cases hc : operandCheck i with
      | none =>
        rw [exec_scripted hs hl hc] at h
        exact .inr (.inr (.inr (.inr (.inr ⟨hl, rfl, rfl, by simpa using h.symm⟩))))
      | some cause =>
        rw [exec_rejected hl hc] at h
        exact .inr (.inr (.inr (.inl ⟨hl, ⟨cause, rfl⟩, by simpa using h.symm⟩)))
    | false =>
      cases i <;> first
        | (simp [Instr.isHostOperation] at hb; done)
        | (simp [isScripted] at hs; done)
        | skip
      case construct =>
        simp only [exec, execConstruct] at h
        obtain ⟨hl, h⟩ := gated_eq_next.1 h
        split at h
        · rename_i hf
          exact .inr (.inl ⟨rfl, Life.acceptsConstruct_iff.1 hl, hf, by simpa using h.symm⟩)
        · exact absurd h (by simp)
      case release =>
        simp only [exec, execRelease] at h
        obtain ⟨hl, h⟩ := gated_eq_next.1 h
        exact .inr (.inr (.inl ⟨rfl, Life.acceptsRelease_iff.1 hl, by simpa using h.symm⟩))
      case setPixelData payload =>
        have hl := Life.acceptsRuntime_iff.1 (gated_eq_next.1 (show execSetPixelData payload s = _ from h)).1
        cases hc : operandCheck (.setPixelData payload) with
        | some cause =>
          rw [exec_rejected hl hc] at h
          exact .inr (.inr (.inr (.inl ⟨hl, ⟨cause, rfl⟩, by simpa using h.symm⟩)))
        | none =>
          refine .inr (.inr (.inr (.inr (.inl ⟨hl, payload, rfl, ?_, ?_⟩))))
          · simp only [operandCheck, lengthCheck] at hc
            split at hc
            · assumption
            · exact absurd hc (by simp)
          · simp only [exec, execSetPixelData] at h
            obtain ⟨-, h⟩ := gated_eq_next.1 h
            simp only [operandCheck] at hc
            simp only [runChecked, hc, finish] at h
            simpa using h.symm

/-! ## The end of an operation -/

/-- The result of a script that is not CONSTRUCT's. -/
def resultOf (es : List Event) : Result := if hasFailure es then .errTransport else .ok

/-- A runtime operation: the state after its trace, and its result. -/
theorem runOperation_eq (s : State) (script : List Action) (h : Action.pinsAreOutputs ∉ script) :
    runOperation s script = (s.after s.seq.pinOut (s.traceFor script)).report (resultOf (s.traceFor script)) := by
  have hs := runScript_state s script
  rw [pinOutAfter_of_not_mem _ _ _ _ h] at hs
  have hf := runScript_failed s script
  unfold runOperation resultOf
  rw [hs]
  cases hw : (runScript s script).2 with
  | none =>
    rw [hw] at hf
    simp only [Option.isSome_none] at hf
    simp [finish, ← hf]
  | some w =>
    rw [hw] at hf
    simp only [Option.isSome_some] at hf
    simp [finish, ← hf, State.raise, Raise.result]

theorem pinsAreOutputs_not_mem_runtimeScript (s : State) (i : Instr) : Action.pinsAreOutputs ∉ runtimeScript s i := by
  cases i <;> simp [runtimeScript, resetScript, sendCmd, sendData, drawScript, pageScript]

theorem pinsAreOutputs_not_mem_releaseScript (s : State) : Action.pinsAreOutputs ∉ releaseScript s := by
  unfold releaseScript
  split <;> simp

/-- CONSTRUCT reaches `pin_out <- true` whatever is answered. -/
theorem pinOutAfter_constructScript (ans : Nat → Answer) (was : Bool) (k : Nat) :
    pinOutAfter ans was k constructScript = true := by
  simp only [constructScript, List.cons_append, List.nil_append, pinOutAfter]
  split
  · exact pinOutAfter_of_not_mem _ _ _ _ (by simp [sendCmd])
  · rfl

/-- CONSTRUCT: the state after its trace, and READY and OK, or FAILED and ERR_CONSTRUCTION. -/
theorem constructEnd_eq (s : State) :
    constructEnd (runScript s constructScript) =
      if hasFailure (s.traceFor constructScript) then
        ((s.after true (s.traceFor constructScript)).setLife .failed).report .errConstruction
      else ((s.after true (s.traceFor constructScript)).fbUnspecified.setLife .ready).report .ok := by
  have hs := runScript_state s constructScript
  rw [pinOutAfter_constructScript] at hs
  have hf := runScript_failed s constructScript
  unfold constructEnd
  rw [hs]
  cases hw : (runScript s constructScript).2 with
  | none =>
    rw [hw] at hf
    simp only [Option.isSome_none] at hf
    simp [finish, ← hf]
  | some w =>
    rw [hw] at hf
    simp only [Option.isSome_some] at hf
    simp [finish, ← hf, State.raise, Raise.result]

/-- RELEASE closes the bus if it was open. -/
theorem releaseEnd_eq (s : State) :
    finish ((runScript s (releaseScript s)).1.setLife .released) none =
      { seq := { s.seq with life := .released, bus := .closed }
        lcdc := s.lcdc
        env := s.env.extended (if s.seq.bus = .opened then [.busClose] else []) .ok } := by
  cases s with
  | mk q c e =>
    cases q with
    | mk life fb dc rst pinOut bus binding =>
      cases bus <;> simp [releaseScript, runScript, Action.run, finish, Env.extended, answersIn, Event.answer?,
        State.setLife, State.setBus, State.emit, State.report]

end Sys2Proof.Machine
end

