-- ==== Sys2Proof/Laws/Trace.lean ====
section
/-!
SUPPORT. What each function that reads a trace says of the events of one command byte and of one data string, so that a
trace is read transfer by transfer; and the traces of the operations' scripts.
-/

namespace Sys2Proof.Machine

variable (b : Byte) (bytes : List Byte) (es : List Event)

/-! ## One transfer answered `ok` -/

@[simp] theorem levelAfter_dc_commandEvents (l : Latch) :
    levelAfter .dc l (commandEvents b ++ es) = levelAfter .dc (.driven .low) es := rfl
@[simp] theorem levelAfter_rst_commandEvents (l : Latch) :
    levelAfter .rst l (commandEvents b ++ es) = levelAfter .rst l es := rfl
@[simp] theorem levelAfter_dc_dataEvents (l : Latch) :
    levelAfter .dc l (dataEvents bytes ++ es) = levelAfter .dc (.driven .high) es := rfl
@[simp] theorem levelAfter_rst_dataEvents (l : Latch) :
    levelAfter .rst l (dataEvents bytes ++ es) = levelAfter .rst l es := rfl

@[simp] theorem busAfter_commandEvents (s : BusState) : busAfter s (commandEvents b ++ es) = busAfter s es := rfl
@[simp] theorem busAfter_dataEvents (s : BusState) : busAfter s (dataEvents bytes ++ es) = busAfter s es := rfl

@[simp] theorem lcdcAfter_commandEvents (f : Bool) (r d : Latch) (c : Lcdc) :
    lcdcAfter f r d c (commandEvents b ++ es) =
      lcdcAfter f r (.driven .low) (c.receive (.driven .low) b) es := rfl
@[simp] theorem lcdcAfter_dataEvents (f : Bool) (r d : Latch) (c : Lcdc) :
    lcdcAfter f r d c (dataEvents bytes ++ es) =
      lcdcAfter f r (.driven .high) (c.receiveAll (.driven .high) bytes) es := rfl

@[simp] theorem taggedStream_commandEvents (m : Latch) :
    taggedStream m (commandEvents b ++ es) = (.driven .low, b) :: taggedStream (.driven .low) es := rfl
@[simp] theorem taggedStream_dataEvents (m : Latch) :
    taggedStream m (dataEvents bytes ++ es) =
      bytes.map (fun b => (.driven .high, b)) ++ taggedStream (.driven .high) es := rfl

@[simp] theorem answersIn_commandEvents : answersIn (commandEvents b) = 1 := rfl
@[simp] theorem answersIn_dataEvents : answersIn (dataEvents bytes) = 1 := rfl

/-! ## The traces of the scripts -/

@[simp] theorem scriptTrace_sendCmd (cfg : BusConfig) : scriptTrace cfg (sendCmd b) = commandEvents b := rfl
@[simp] theorem scriptTrace_sendData (cfg : BusConfig) : scriptTrace cfg (sendData bytes) = dataEvents bytes := rfl

theorem scriptTrace_constructScript (cfg : BusConfig) : scriptTrace cfg constructScript = initTrace cfg := by
  have h1 : ratioByte Config.params.defaultRatio = 0x23 := by decide
  have h2 : startLineByte Config.params.defaultStartLine = 0x40 := by decide
  simp only [constructScript, initTrace, scriptTrace_append, scriptTrace_sendCmd, h1, h2]
  rfl

theorem scriptTrace_pageScript (cfg : BusConfig) (s : State) (p : Nat) :
    scriptTrace cfg (pageScript s p) = pageTrace (pageByte (BitVec.ofNat 8 p)) (s.fbPage p) := by
  simp only [pageScript, scriptTrace_append, scriptTrace_sendCmd, scriptTrace_sendData, pageTrace]
  rfl

theorem scriptTrace_drawScript (cfg : BusConfig) (s : State) : scriptTrace cfg (drawScript s) = drawTrace s.fbPage := by
  have h : drawScript s = pageScript s 0 ++ pageScript s 1 ++ pageScript s 2 ++ pageScript s 3 ++ pageScript s 4 ++
      pageScript s 5 := by
    simp [drawScript, List.range_succ]
  simp only [h, scriptTrace_append, scriptTrace_pageScript]
  rfl

/-! ## The shadow after a trace that does not touch the reset pin -/

/-- An unknown shadow stays unknown until the reset pin is released (10_state R46). -/
theorem lcdcAfter_of_unknown {f : Bool} {r d : Latch} {c : Lcdc} {es : List Event} (h : c = Lcdc.allUnknown)
    (hes : ∀ v, Event.setPin .rst v ∉ es) : lcdcAfter f r d c es = Lcdc.allUnknown := by
  induction es generalizing d c with
  | nil => exact h
  | cons e es ih =>
    have hrest : ∀ v, Event.setPin .rst v ∉ es := fun v hv => hes v (List.mem_cons_of_mem _ hv)
    cases e with
    | setPin p v =>
      cases p with
      | dc => exact ih h hrest
      | rst => exact absurd List.mem_cons_self (hes v)
    | transmit bs a =>
      cases a with
      | ok => exact ih (by rw [Lcdc.receiveAll_of_unknown (by rw [h]; rfl), h]) hrest
      | fail => exact ih rfl hrest
    | pinDir _ | busOpen _ _ | delay _ | busClose => exact ih h hrest

/-- In a trace without a failed transfer and without a write of the reset pin the controller is what the tagged byte
stream makes of it, byte by byte (43 R207). -/
theorem lcdcAfter_eq_received {f : Bool} {r d : Latch} {c : Lcdc} {es : List Event} (hok : hasFailure es = false)
    (hes : ∀ v, Event.setPin .rst v ∉ es) :
    lcdcAfter f r d c es = (taggedStream d es).foldl (fun c tb => c.receive tb.1 tb.2) c := by
  induction es generalizing d c with
  | nil => rfl
  | cons e es ih =>
    have hes' : ∀ v, Event.setPin .rst v ∉ es := fun v h => hes v (List.mem_cons_of_mem _ h)
    have hok' : hasFailure es = false := by
      simp only [hasFailure, List.any_cons, Bool.or_eq_false_iff] at hok
      exact hok.2
    match e with
    | .setPin .rst v => exact absurd List.mem_cons_self (hes v)
    | .transmit bytes .fail => simp [hasFailure, Event.answer?] at hok
    | .transmit bytes .ok =>
      simp only [lcdcAfter, taggedStream, List.foldl_append, List.foldl_map]
      exact ih hok' hes'
    | .setPin .dc v | .pinDir _ | .busOpen _ _ | .delay _ | .busClose => exact ih hok' hes'

/-- After a failed transfer, which ends a trace, nothing is known (43 R210). -/
theorem lcdcAfter_of_failure {f : Bool} {r d : Latch} {c : Lcdc} {es : List Event} (hopen : ∀ cfg a, Event.busOpen cfg a ∉ es)
    (hend : failureEndsTrace es = true) (hfail : hasFailure es = true) :
    lcdcAfter f r d c es = Lcdc.allUnknown := by
  induction es generalizing r d c with
  | nil => simp [hasFailure] at hfail
  | cons e es ih =>
    have hrest : ∀ cfg a, Event.busOpen cfg a ∉ es := fun g a h => hopen g a (List.mem_cons_of_mem _ h)
    cases e with
    | busOpen g a => exact absurd List.mem_cons_self (hopen g a)
    | transmit bs a =>
      cases a with
      | ok =>
        exact ih hrest (by simpa [failureEndsTrace, Event.answer?] using hend)
          (by simpa [hasFailure, Event.answer?] using hfail)
      | fail =>
        have : es = [] := by simpa [failureEndsTrace, Event.answer?] using hend
        subst this
        rfl
    | setPin p v =>
      have h1 : failureEndsTrace es = true := by simpa [failureEndsTrace, Event.answer?] using hend
      have h2 : hasFailure es = true := by simpa [hasFailure, Event.answer?] using hfail
      cases p with
      | dc => exact ih hrest h1 h2
      | rst => exact ih hrest h1 h2
    | pinDir _ | delay _ | busClose =>
      exact ih hrest (by simpa [failureEndsTrace, Event.answer?] using hend)
        (by simpa [hasFailure, Event.answer?] using hfail)

/-! ## The written-out traces -/

theorem answersIn_initTrace (cfg : BusConfig) : answersIn (initTrace cfg) = 15 := by
  simp only [initTrace, answersIn_append, answersIn_commandEvents]
  rfl

theorem answersIn_pageTrace : answersIn (pageTrace b bytes) = 4 := by
  simp only [pageTrace, answersIn_append, answersIn_commandEvents, answersIn_dataEvents]

theorem answersIn_drawTrace (rows : Nat → List Byte) : answersIn (drawTrace rows) = 24 := by
  simp only [drawTrace, answersIn_append, answersIn_pageTrace]

/-- The controller that has received the 14 bytes of the initialisation sequence after its release. -/
theorem receiveAll_initBytes : (Lcdc.released true).receiveAll (.driven .low) initBytes = Lcdc.displayable := by
  decide +kernel

/-- The shadow after the initialisation sequence, from a reset pin not yet driven. -/
theorem lcdcAfter_initTrace (f : Bool) (d : Latch) (c : Lcdc) (cfg : BusConfig) :
    lcdcAfter f .x d c (initTrace cfg) = if f then Lcdc.displayable else Lcdc.allUnknown := by
  have h : lcdcAfter f .x d c (initTrace cfg) = (Lcdc.released f).receiveAll (.driven .low) initBytes := by
    simp only [initTrace, List.append_assoc, List.cons_append, List.nil_append, lcdcAfter, lcdcAfter_commandEvents,
      Lcdc.resetPin_high_of_x]
    simp only [commandEvents, lcdcAfter, initBytes, Lcdc.receiveAll_cons, Lcdc.receiveAll_nil]
  rw [h]
  cases f
  · exact Lcdc.receiveAll_of_unknown rfl _ _
  · exact receiveAll_initBytes

/-- The latches and the bus after the initialisation sequence (40 R128). -/
theorem latchesAfter_initTrace (d r : Latch) (u : BusState) (cfg : BusConfig) :
    levelAfter .dc d (initTrace cfg) = .driven .low ∧ levelAfter .rst r (initTrace cfg) = .driven .high ∧
    busAfter u (initTrace cfg) = .opened := by
  simp only [initTrace, List.append_assoc, List.cons_append, List.nil_append, levelAfter, busAfter,
    levelAfter_dc_commandEvents, levelAfter_rst_commandEvents, busAfter_commandEvents]
  exact ⟨rfl, rfl, rfl⟩

/-- The latches and the bus after DRAW (41 R143, R144). -/
theorem latchesAfter_drawTrace (d r : Latch) (u : BusState) (rows : Nat → List Byte) :
    levelAfter .dc d (drawTrace rows) = .driven .high ∧ levelAfter .rst r (drawTrace rows) = r ∧
    busAfter u (drawTrace rows) = u := by
  simp only [drawTrace, pageTrace, List.append_assoc, levelAfter_dc_commandEvents, levelAfter_rst_commandEvents,
    busAfter_commandEvents, levelAfter_dc_dataEvents, levelAfter_rst_dataEvents, busAfter_dataEvents]
  exact ⟨rfl, rfl, rfl⟩

/-! ## A trace cut at its first failure -/

/-- A cut in a trace of two parts falls into the one or the other. -/
theorem failAt_append {n : Nat} (h : 1 ≤ n) (xs ys : List Event) :
    failAt n (xs ++ ys) = if n ≤ answersIn xs then failAt n xs else xs ++ failAt (n - answersIn xs) ys := by
  induction xs generalizing n with
  | nil => simp [show ¬ n ≤ 0 by omega]
  | cons e xs ih =>
    cases e
    case busOpen cfg a =>
      simp only [List.cons_append, failAt, answersIn_cons, Event.answer?, Option.isSome_some, if_true]
      by_cases h1 : n = 1
      · simp [h1]
      · rw [if_neg h1, if_neg h1, ih (by omega)]
        by_cases h2 : n - 1 ≤ answersIn xs
        · rw [if_pos h2, if_pos (by omega)]
        · rw [if_neg h2, if_neg (by omega), show n - 1 - answersIn xs = n - (answersIn xs + 1) by omega]
    case transmit bs a =>
      simp only [List.cons_append, failAt, answersIn_cons, Event.answer?, Option.isSome_some, if_true]
      by_cases h1 : n = 1
      · simp [h1]
      · rw [if_neg h1, if_neg h1, ih (by omega)]
        by_cases h2 : n - 1 ≤ answersIn xs
        · rw [if_pos h2, if_pos (by omega)]
        · rw [if_neg h2, if_neg (by omega), show n - 1 - answersIn xs = n - (answersIn xs + 1) by omega]
    all_goals
      simp only [List.cons_append, failAt, answersIn_cons, Event.answer?, Option.isSome_none, Bool.false_eq_true,
        if_false, Nat.add_zero]
      rw [ih h]
      split <;> rfl

theorem hasFailure_cons (e : Event) (es : List Event) :
    hasFailure (e :: es) = (e.answer? == some .fail || hasFailure es) := rfl
@[simp] theorem hasFailure_append (xs ys : List Event) :
    hasFailure (xs ++ ys) = (hasFailure xs || hasFailure ys) := by simp [hasFailure]
@[simp] theorem hasFailure_commandEvents : hasFailure (commandEvents b) = false := rfl
@[simp] theorem hasFailure_dataEvents : hasFailure (dataEvents bytes) = false := rfl

/-- A cut trace ends with its only failure. -/
theorem failAt_failure {n : Nat} {es : List Event} (h : 1 ≤ n) (hn : n ≤ answersIn es) (hes : hasFailure es = false) :
    hasFailure (failAt n es) = true ∧ failureEndsTrace (failAt n es) = true ∧ answersIn (failAt n es) = n := by
  induction es generalizing n with
  | nil => simp at hn; omega
  | cons e es ih =>
    simp only [hasFailure_cons, Bool.or_eq_false_iff] at hes
    cases e
    case busOpen cfg a =>
      simp only [answersIn_cons, Event.answer?, Option.isSome_some, if_true] at hn
      by_cases h1 : n = 1
      · subst h1
        exact ⟨rfl, rfl, rfl⟩
      · obtain ⟨h2, h3, h4⟩ := ih (n := n - 1) (by omega) (by omega) hes.2
        have ha : ¬ a = .fail := by simpa [Event.answer?] using hes.1
        simp only [failAt, if_neg h1, hasFailure_cons, h2, failureEndsTrace, Event.answer?, Option.some.injEq, if_neg ha,
          answersIn_cons, h4, h3, Option.isSome_some, if_true]
        exact ⟨Bool.or_true _, trivial, by omega⟩
    case transmit bs a =>
      simp only [answersIn_cons, Event.answer?, Option.isSome_some, if_true] at hn
      by_cases h1 : n = 1
      · subst h1
        exact ⟨rfl, rfl, rfl⟩
      · obtain ⟨h2, h3, h4⟩ := ih (n := n - 1) (by omega) (by omega) hes.2
        have ha : ¬ a = .fail := by simpa [Event.answer?] using hes.1
        simp only [failAt, if_neg h1, hasFailure_cons, h2, failureEndsTrace, Event.answer?, Option.some.injEq, if_neg ha,
          answersIn_cons, h4, h3, Option.isSome_some, if_true]
        exact ⟨Bool.or_true _, trivial, by omega⟩
    all_goals
      simp only [answersIn_cons, Event.answer?, Option.isSome_none, Bool.false_eq_true, if_false, Nat.add_zero] at hn
      obtain ⟨h2, h3, h4⟩ := ih h hn hes.2
      simp [failAt, hasFailure_cons, failureEndsTrace, Event.answer?, answersIn_cons, h2, h3, h4]

theorem failAt_one_commandEvents : failAt 1 (commandEvents b) = [.setPin .dc .low, .transmit [b] .fail] := rfl
theorem failAt_one_dataEvents : failAt 1 (dataEvents bytes) = [.setPin .dc .high, .transmit bytes .fail] := rfl

end Sys2Proof.Machine
end

