-- ==== Sys2Proof/Laws/Paging.lean ====
section
/-!
SUPPORT. What one page of the paging engine's trace does to a known controller (41 R143), said once.
-/

namespace Sys2Proof.Machine

/-- The three command bytes that precede a page's data: PA is the page, CA is 0, nothing else changes. -/
theorem receive_pageCommands {c : Lcdc} (hk : c.lcdcKnown = true) (hv : c.evPending = .known false) {b : Byte}
    {p : BitVec 4} (hb : decodeCommand b = .ok (.page p)) :
    ((c.receive (.driven .low) b).receive (.driven .low) 0x10).receive (.driven .low) 0x00 =
      { c with pa := .known p, caHi := .known 0, caLo := .known 0 } := by
  rw [Lcdc.receive_command hv hb]
  have h1 : c.apply (.page p) = { c with pa := .known p } := by simp [Lcdc.apply, Lcdc.setPage, Lcdc.whenKnown, hk]
  rw [h1, Lcdc.receive_command (c := { c with pa := .known p }) hv (i := .colHi 0) (by decide)]
  have h2 : ({ c with pa := .known p } : Lcdc).apply (.colHi 0) = { c with pa := .known p, caHi := .known 0 } := by
    simp [Lcdc.apply, Lcdc.colHi, Lcdc.whenKnown, hk]
  rw [h2, Lcdc.receive_command (c := { c with pa := .known p, caHi := .known 0 }) hv (i := .colLo 0) (by decide)]
  simp [Lcdc.apply, Lcdc.colLo, Lcdc.whenKnown, hk]

/-- One page of the trace: its row of the display RAM holds the page's bytes, PA is the page, CA is unknown, and nothing
else of the shadow changes. -/
theorem lcdcAfter_pageTrace {f : Bool} {r d : Latch} {c : Lcdc} (hk : c.lcdcKnown = true)
    (hv : c.evPending = .known false) {b : Byte} {p : BitVec 4} (hb : decodeCommand b = .ok (.page p)) (hp : p ≤ 5)
    {row : List Byte} (hrow : row.length = 128) (es : List Event) :
    ∃ m, lcdcAfter f r d c (pageTrace b row ++ es) =
        lcdcAfter f r (.driven .high)
          { c with ddram := m, pa := .known p, caHi := .unknown, caLo := .unknown } es ∧
      (∀ k, m.get? k =
        if linear p.toNat 0 ≤ k ∧ k < linear p.toNat 0 + 128 then row[k - linear p.toNat 0]? else c.ddram.get? k) ∧
      (c.ddram.wf = true → m.wf = true) ∧ (c.ddram.below Config.params.fbSize = true → m.below Config.params.fbSize = true) := by
  have hne : row ≠ [] := by rintro rfl; simp at hrow
  obtain ⟨m, hm, hget, hwf, hbelow⟩ :=
    Lcdc.receiveAll_data hp row (c := { c with pa := .known p, caHi := .known 0, caLo := .known 0 }) (a := 0) hk hv rfl
      rfl (by omega) hne
  refine ⟨m, ?_, fun k => by rw [hget k, hrow], hwf, hbelow⟩
  simp only [pageTrace, List.append_assoc, lcdcAfter_commandEvents, lcdcAfter_dataEvents]
  rw [receive_pageCommands hk hv hb, hm, if_neg (by omega)]
  rfl

/-- The whole of DRAW's trace from a known controller: the display RAM holds the rows, PA is 5, CA is unknown, and
nothing else of the shadow changes (41 R144). -/
theorem lcdcAfter_drawTrace {f : Bool} {r d : Latch} {c : Lcdc} (hk : c.lcdcKnown = true)
    (hv : c.evPending = .known false) {rows : Nat → List Byte} (hrows : ∀ p, (rows p).length = 128) :
    ∃ m, lcdcAfter f r d c (drawTrace rows) =
        { c with ddram := m, pa := .known 5, caHi := .unknown, caLo := .unknown } ∧
      (∀ p q, p ≤ 5 → q ≤ 127 → m.get? (linear p q) = (rows p)[q]?) ∧
      (c.ddram.wf = true → m.wf = true) ∧ (c.ddram.below Config.params.fbSize = true → m.below Config.params.fbSize = true) := by
  simp only [drawTrace, List.append_assoc]
  obtain ⟨m0, h0, g0, w0, b0⟩ := lcdcAfter_pageTrace (f := f) (r := r) (d := d) hk hv (b := 0xB0) (p := 0) (by decide)
    (by decide) (hrows 0) (pageTrace 0xB1 (rows 1) ++ (pageTrace 0xB2 (rows 2) ++ (pageTrace 0xB3 (rows 3) ++
      (pageTrace 0xB4 (rows 4) ++ pageTrace 0xB5 (rows 5)))))
  rw [h0]
  obtain ⟨m1, h1, g1, w1, b1⟩ := lcdcAfter_pageTrace (f := f) (r := r) (d := .driven .high)
    (c := { c with ddram := m0, pa := .known 0, caHi := .unknown, caLo := .unknown }) hk hv (b := 0xB1) (p := 1)
    (by decide) (by decide) (hrows 1) (pageTrace 0xB2 (rows 2) ++ (pageTrace 0xB3 (rows 3) ++
      (pageTrace 0xB4 (rows 4) ++ pageTrace 0xB5 (rows 5))))
  rw [h1]
  obtain ⟨m2, h2, g2, w2, b2⟩ := lcdcAfter_pageTrace (f := f) (r := r) (d := .driven .high)
    (c := { c with ddram := m1, pa := .known 1, caHi := .unknown, caLo := .unknown }) hk hv (b := 0xB2) (p := 2)
    (by decide) (by decide) (hrows 2) (pageTrace 0xB3 (rows 3) ++ (pageTrace 0xB4 (rows 4) ++ pageTrace 0xB5 (rows 5)))
  rw [h2]
  obtain ⟨m3, h3, g3, w3, b3⟩ := lcdcAfter_pageTrace (f := f) (r := r) (d := .driven .high)
    (c := { c with ddram := m2, pa := .known 2, caHi := .unknown, caLo := .unknown }) hk hv (b := 0xB3) (p := 3)
    (by decide) (by decide) (hrows 3) (pageTrace 0xB4 (rows 4) ++ pageTrace 0xB5 (rows 5))
  rw [h3]
  obtain ⟨m4, h4, g4, w4, b4⟩ := lcdcAfter_pageTrace (f := f) (r := r) (d := .driven .high)
    (c := { c with ddram := m3, pa := .known 3, caHi := .unknown, caLo := .unknown }) hk hv (b := 0xB4) (p := 4)
    (by decide) (by decide) (hrows 4) (pageTrace 0xB5 (rows 5))
  rw [h4]
  obtain ⟨m5, h5, g5, w5, b5⟩ := lcdcAfter_pageTrace (f := f) (r := r) (d := .driven .high)
    (c := { c with ddram := m4, pa := .known 4, caHi := .unknown, caLo := .unknown }) hk hv (b := 0xB5) (p := 5)
    (by decide) (by decide) (hrows 5) []
  rw [List.append_nil] at h5
  rw [h5]
  refine ⟨m5, rfl, ?_, fun h => w5 (w4 (w3 (w2 (w1 (w0 h))))), fun h => b5 (b4 (b3 (b2 (b1 (b0 h)))))⟩
  intro p q hp hq
  simp only [linear] at g0 g1 g2 g3 g4 g5 ⊢
  rw [g5, g4, g3, g2, g1, g0]
  have e0 : (0 : BitVec 4).toNat = 0 := rfl
  have e1 : (1 : BitVec 4).toNat = 1 := rfl
  have e2 : (2 : BitVec 4).toNat = 2 := rfl
  have e3 : (3 : BitVec 4).toNat = 3 := rfl
  have e4 : (4 : BitVec 4).toNat = 4 := rfl
  have e5 : (5 : BitVec 4).toNat = 5 := rfl
  simp only [e0, e1, e2, e3, e4, e5]
  have hsub : ∀ n, 128 * n + q - (128 * n + 0) = q := by omega
  interval_cases p
  · rw [if_neg (by omega), if_neg (by omega), if_neg (by omega), if_neg (by omega), if_neg (by omega), if_pos (by omega)]
    rw [hsub]
  · rw [if_neg (by omega), if_neg (by omega), if_neg (by omega), if_neg (by omega), if_pos (by omega)]; rw [hsub]
  · rw [if_neg (by omega), if_neg (by omega), if_neg (by omega), if_pos (by omega)]; rw [hsub]
  · rw [if_neg (by omega), if_neg (by omega), if_pos (by omega)]; rw [hsub]
  · rw [if_neg (by omega), if_pos (by omega)]; rw [hsub]
  · rw [if_pos (by omega)]; rw [hsub]

/-! ## FLUSH's zeroing -/

@[simp] theorem State.fbClear_lcdc (s : State) : s.fbClear.lcdc = s.lcdc := by rw [State.fbClear, State.fbWrite_lcdc]
@[simp] theorem State.fbClear_env (s : State) : s.fbClear.env = s.env := by rw [State.fbClear, State.fbWrite_env]

/-- Of the sequencer's record, the zeroing changes the framebuffer alone. -/
theorem State.fbClear_seq (s : State) : s.fbClear.seq = { s.seq with fb := s.fbClear.seq.fb } := by
  rw [State.fbClear, State.fbWrite_seq]

@[simp] theorem State.fbClear_life (s : State) : s.fbClear.seq.life = s.seq.life := by rw [State.fbClear_seq]
@[simp] theorem State.fbClear_dc (s : State) : s.fbClear.seq.dc = s.seq.dc := by rw [State.fbClear_seq]
@[simp] theorem State.fbClear_rst (s : State) : s.fbClear.seq.rst = s.seq.rst := by rw [State.fbClear_seq]
@[simp] theorem State.fbClear_pinOut (s : State) : s.fbClear.seq.pinOut = s.seq.pinOut := by rw [State.fbClear_seq]
@[simp] theorem State.fbClear_bus (s : State) : s.fbClear.seq.bus = s.seq.bus := by rw [State.fbClear_seq]
@[simp] theorem State.fbClear_binding (s : State) : s.fbClear.seq.binding = s.seq.binding := by rw [State.fbClear_seq]

theorem answersOk_fbClear {s : State} {n : Nat} : AnswersOk s.fbClear n ↔ AnswersOk s n := by
  simp only [AnswersOk, State.fbClear_env]

theorem firstFail_fbClear {s : State} {j : Nat} : FirstFail s.fbClear j ↔ FirstFail s j := by
  simp only [FirstFail, answersOk_fbClear, State.fbClear_env]

/-- A framebuffer byte depends on the memory and on which instance it is of. -/
theorem State.fbByte_congr {s t : State} (h : t.seq.fb = s.seq.fb) (hi : t.env.instanceNo = s.env.instanceNo)
    (a : Nat) : t.fbByte a = s.fbByte a := by
  simp only [State.fbByte, h, hi]

@[simp] theorem State.fbByte_after_report (s : State) (o : Bool) (es : List Event) (r : Result) (a : Nat) :
    ((s.after o es).report r).fbByte a = s.fbByte a := State.fbByte_congr rfl rfl a

theorem State.fbByte_fbClear (s : State) {a : Nat} (h : a < 768) : s.fbClear.fbByte a = 0 := by
  have h' : a < (List.replicate Config.params.fbSize (0 : Byte)).length := by rw [List.length_replicate]; exact h
  rw [State.fbClear, State.fbByte_fbWrite s _ h', List.getElem_replicate]

theorem State.fbPage_getElem? (s : State) (p : Nat) {q : Nat} (hq : q ≤ 127) :
    (s.fbPage p)[q]? = some (s.fbByte (128 * p + q)) := by
  rw [State.fbPage_eq, List.getElem?_map, List.getElem?_range (by omega)]
  rfl

theorem State.fbPage_fbClear (s : State) {p : Nat} (h : p ≤ 5) : s.fbClear.fbPage p = List.replicate 128 0 := by
  apply List.ext_getElem?
  intro i
  by_cases hi : i ≤ 127
  · rw [State.fbPage_getElem? _ _ hi, State.fbByte_fbClear _ (by omega), List.getElem?_replicate, if_pos (by omega)]
  · rw [List.getElem?_eq_none (by rw [State.fbPage_length]; omega),
      List.getElem?_eq_none (by rw [List.length_replicate]; omega)]

/-- A draw's trace is a function of the six pages. -/
theorem drawTrace_congr {rows rows' : Nat → List Byte} (h : ∀ p ≤ 5, rows p = rows' p) :
    drawTrace rows = drawTrace rows' := by
  simp only [drawTrace]
  rw [h 0 (by omega), h 1 (by omega), h 2 (by omega), h 3 (by omega), h 4 (by omega), h 5 (by omega)]

theorem hasFailure_drawTrace (rows : Nat → List Byte) : hasFailure (drawTrace rows) = false := by
  simp only [drawTrace, pageTrace, hasFailure_append, hasFailure_commandEvents, hasFailure_dataEvents]
  rfl

/-! ## The ends of DRAW and FLUSH -/

theorem execDraw_eq {s : State} (hl : s.seq.life = .ready) :
    exec .draw s = .next ((s.after s.seq.pinOut (s.traceFor (drawScript s))).report
      (resultOf (s.traceFor (drawScript s)))) := by
  rw [exec_scripted (i := .draw) rfl hl rfl, runOperation_eq _ _ (pinsAreOutputs_not_mem_runtimeScript _ _)]
  simp only [scriptBase, runtimeScript, reduceCtorEq, if_false]

theorem execFlush_eq {s : State} (hl : s.seq.life = .ready) :
    exec .flush s = .next ((s.fbClear.after s.seq.pinOut (s.fbClear.traceFor (drawScript s.fbClear))).report
      (resultOf (s.fbClear.traceFor (drawScript s.fbClear)))) := by
  rw [exec_scripted (i := .flush) rfl hl rfl, runOperation_eq _ _ (pinsAreOutputs_not_mem_runtimeScript _ _)]
  simp only [scriptBase, runtimeScript, if_true, State.fbClear_pinOut]

end Sys2Proof.Machine
end

