-- ==== Sys2Proof/Laws/PerInstr.lean ====
section
/-!
SUPPORT. Family `MatchesRow`: the encoding of every instruction matches its own row of spec/opcode_table.json, so that no
instruction's bits fall into another row of the same context.
-/

namespace Sys2Proof.Laws.MatchesRow

/-- The width, match and mask of a row. -/
structure Row where
  width : Nat
  pat : Nat
  mask : Nat
deriving DecidableEq, Repr

/-- Each instruction's row, copied from spec/opcode_table.json. -/
def row : Instr → Row
  | .colLo _ => ⟨8, 0x00, 0xF0⟩
  | .colHi _ => ⟨8, 0x10, 0xF0⟩
  | .ratio _ => ⟨8, 0x20, 0xF8⟩
  | .pwr1 => ⟨8, 0x2C, 0xFF⟩
  | .pwr2 => ⟨8, 0x2E, 0xFF⟩
  | .pwr3 => ⟨8, 0x2F, 0xFF⟩
  | .startLine _ => ⟨8, 0x40, 0xC0⟩
  | .evSet => ⟨8, 0x81, 0xFF⟩
  | .scanNormal => ⟨8, 0xA0, 0xFF⟩
  | .scanReverse => ⟨8, 0xA1, 0xFF⟩
  | .bias19 => ⟨8, 0xA2, 0xFF⟩
  | .bias17 => ⟨8, 0xA3, 0xFF⟩
  | .allptsNormal => ⟨8, 0xA4, 0xFF⟩
  | .allptsOn => ⟨8, 0xA5, 0xFF⟩
  | .dispNormal => ⟨8, 0xA6, 0xFF⟩
  | .dispReverse => ⟨8, 0xA7, 0xFF⟩
  | .sleep => ⟨8, 0xAB, 0xFF⟩
  | .wake => ⟨8, 0xAC, 0xFF⟩
  | .dispOff => ⟨8, 0xAE, 0xFF⟩
  | .dispOn => ⟨8, 0xAF, 0xFF⟩
  | .page _ => ⟨8, 0xB0, 0xF0⟩
  | .comNormal => ⟨8, 0xC0, 0xFF⟩
  | .comReverse => ⟨8, 0xC8, 0xFF⟩
  | .intReset => ⟨8, 0xE2, 0xFF⟩
  | .evParam _ => ⟨8, 0x00, 0xC0⟩
  | .data _ => ⟨8, 0x00, 0x00⟩
  | .construct => ⟨16, 0x0000, 0xFFFF⟩
  | .reset => ⟨16, 0x1000, 0xFFFF⟩
  | .setPixelData _ => ⟨16, 0x2000, 0xFFFF⟩
  | .flush => ⟨16, 0x3000, 0xFFFF⟩
  | .draw => ⟨16, 0x4000, 0xFFFF⟩
  | .setDisplayMode _ => ⟨16, 0x5000, 0xFFFE⟩
  | .setDisplayColor _ => ⟨16, 0x6000, 0xFFFE⟩
  | .setContrast _ => ⟨16, 0x7000, 0xFF00⟩
  | .setContrastDetail _ => ⟨16, 0x8000, 0xFF00⟩
  | .setSleepMode _ => ⟨16, 0x9000, 0xFFFE⟩
  | .setPageAddress _ => ⟨16, 0xA000, 0xFF00⟩
  | .setColumnAddress _ => ⟨16, 0xB000, 0xFF00⟩
  | .release => ⟨16, 0xC000, 0xFFFF⟩

/-- The bits of an encoding, and how many there are. -/
def bits : Encoded → Nat × Nat
  | .byte _ b => (8, b.toNat)
  | .request w _ => (16, w.toNat)

/-- The encoding of a well-formed instruction has its row's width and matches it. -/
def Statement (i : Instr) : Prop :=
  i.wellFormed = true →
    (bits (encode i)).1 = (row i).width ∧ Nat.land (bits (encode i)).2 (row i).mask = (row i).pat

theorem colLo (n : BitVec 4) : Statement (.colLo n) := by revert n; unfold Statement; decide
theorem colHi (n : BitVec 4) : Statement (.colHi n) := by revert n; unfold Statement; decide
theorem ratio (r : BitVec 3) : Statement (.ratio r) := by revert r; unfold Statement; decide
theorem pwr1 : Statement .pwr1 := fun _ => by decide
theorem pwr2 : Statement .pwr2 := fun _ => by decide
theorem pwr3 : Statement .pwr3 := fun _ => by decide
theorem startLine (l : BitVec 6) : Statement (.startLine l) := by revert l; unfold Statement; decide
theorem evSet : Statement .evSet := fun _ => by decide
theorem scanNormal : Statement .scanNormal := fun _ => by decide
theorem scanReverse : Statement .scanReverse := fun _ => by decide
theorem bias19 : Statement .bias19 := fun _ => by decide
theorem bias17 : Statement .bias17 := fun _ => by decide
theorem allptsNormal : Statement .allptsNormal := fun _ => by decide
theorem allptsOn : Statement .allptsOn := fun _ => by decide
theorem dispNormal : Statement .dispNormal := fun _ => by decide
theorem dispReverse : Statement .dispReverse := fun _ => by decide
theorem sleep : Statement .sleep := fun _ => by decide
theorem wake : Statement .wake := fun _ => by decide
theorem dispOff : Statement .dispOff := fun _ => by decide
theorem dispOn : Statement .dispOn := fun _ => by decide
theorem page (n : BitVec 4) : Statement (.page n) := by revert n; unfold Statement; decide
theorem comNormal : Statement .comNormal := fun _ => by decide
theorem comReverse : Statement .comReverse := fun _ => by decide
theorem intReset : Statement .intReset := fun _ => by decide
theorem evParam (b : Byte) : Statement (.evParam b) := by revert b; unfold Statement; decide
theorem data (b : Byte) : Statement (.data b) := by revert b; unfold Statement; decide
theorem construct : Statement .construct := fun _ => by decide
theorem reset : Statement .reset := fun _ => by decide
theorem setPixelData (payload : List Byte) : Statement (.setPixelData payload) := by
  intro _
  simp only [encode, bits, row]
  decide
theorem flush : Statement .flush := fun _ => by decide
theorem draw : Statement .draw := fun _ => by decide
theorem setDisplayMode (sel : DisplayMode) : Statement (.setDisplayMode sel) := by cases sel <;> exact fun _ => by decide
theorem setDisplayColor (sel : DisplayColor) : Statement (.setDisplayColor sel) := by cases sel <;> exact fun _ => by decide
theorem setContrast (arg : Byte) : Statement (.setContrast arg) := by revert arg; unfold Statement; decide
theorem setContrastDetail (arg : Byte) : Statement (.setContrastDetail arg) := by revert arg; unfold Statement; decide
theorem setSleepMode (sel : SleepMode) : Statement (.setSleepMode sel) := by cases sel <;> exact fun _ => by decide
theorem setPageAddress (arg : Byte) : Statement (.setPageAddress arg) := by revert arg; unfold Statement; decide
theorem setColumnAddress (arg : Byte) : Statement (.setColumnAddress arg) := by revert arg; unfold Statement; decide
theorem release : Statement .release := fun _ => by decide

end Sys2Proof.Laws.MatchesRow
end

