-- ==== Sys2Proof/Laws/Runs.lean ====
section
/-!
SUPPORT. The end state of every host operation as the state after its trace, and the trace every operation adds.
-/

namespace Sys2Proof.Machine

/-! ## The state a script starts from -/

@[simp] theorem scriptBase_env (s : State) (i : Instr) : (scriptBase s i).env = s.env := by
  unfold scriptBase
  split
  · exact State.fbClear_env s
  · rfl

@[simp] theorem scriptBase_lcdc (s : State) (i : Instr) : (scriptBase s i).lcdc = s.lcdc := by
  unfold scriptBase
  split
  · exact State.fbClear_lcdc s
  · rfl

theorem scriptBase_seq (s : State) (i : Instr) :
    (scriptBase s i).seq = { s.seq with fb := (scriptBase s i).seq.fb } := by
  unfold scriptBase
  split
  · exact State.fbClear_seq s
  · rfl

/-- The trace a runtime operation leaves when it is run in a state. -/
def runtimeTrace (s : State) (i : Instr) : List Event :=
  traceOf s.seq.binding.busConfig (answerFrom s.env.answers) s.env.consumed (runtimeScript (scriptBase s i) i)

/-- A runtime operation: each part of the state after it. -/
theorem runOperation_base (s : State) (i : Instr) :
    runOperation (scriptBase s i) (runtimeScript (scriptBase s i) i) =
      { seq := { s.seq with
          fb := (scriptBase s i).seq.fb
          dc := levelAfter .dc s.seq.dc (runtimeTrace s i), rst := levelAfter .rst s.seq.rst (runtimeTrace s i)
          bus := busAfter s.seq.bus (runtimeTrace s i) }
        lcdc := lcdcAfter s.env.lcdcFresh s.seq.rst s.seq.dc s.lcdc (runtimeTrace s i)
        env := s.env.extended (runtimeTrace s i) (resultOf (runtimeTrace s i)) } := by
  have ht : (scriptBase s i).traceFor (runtimeScript (scriptBase s i) i) = runtimeTrace s i := by
    rw [State.traceFor, runtimeTrace, scriptBase_env, scriptBase_seq]
  rw [runOperation_eq _ _ (pinsAreOutputs_not_mem_runtimeScript _ _), ht]
  simp only [State.after, State.report, scriptBase_env, scriptBase_lcdc, Env.extended]
  rw [scriptBase_seq]

/-- CONSTRUCT: each part of the state after it. -/
theorem constructEnd_parts (s : State) :
    constructEnd (runScript s constructScript) =
      { seq := { s.seq with
          life := if hasFailure (s.traceFor constructScript) then .failed else .ready
          fb := if hasFailure (s.traceFor constructScript) then s.seq.fb else []
          dc := levelAfter .dc s.seq.dc (s.traceFor constructScript)
          rst := levelAfter .rst s.seq.rst (s.traceFor constructScript), pinOut := true
          bus := busAfter s.seq.bus (s.traceFor constructScript) }
        lcdc := lcdcAfter s.env.lcdcFresh s.seq.rst s.seq.dc s.lcdc (s.traceFor constructScript)
        env := s.env.extended (s.traceFor constructScript)
          (if hasFailure (s.traceFor constructScript) then .errConstruction else .ok) } := by
  rw [constructEnd_eq]
  split <;> rfl

/-- The trace every operation adds to the events. -/
theorem exec_events {i : Instr} {s t : State} (h : exec i s = .next t) :
    t.env.events = s.env.events ∨
    (i = .construct ∧ t.env.events = s.env.events ++ s.traceFor constructScript) ∨
    (i = .release ∧ t.env.events = s.env.events ++ (if s.seq.bus = .opened then [.busClose] else [])) ∨
    (isScripted i = true ∧ operandCheck i = none ∧ t.env.events = s.env.events ++ runtimeTrace s i) := by
  rcases exec_cases h with ⟨_, rfl⟩ | ⟨hi, _, _, rfl⟩ | ⟨hi, _, rfl⟩ | ⟨_, _, rfl⟩ | ⟨_, _, _, _, rfl⟩ | ⟨_, hi, hc, rfl⟩
  · exact .inl rfl
  · exact .inr (.inl ⟨hi, by rw [constructEnd_parts]; rfl⟩)
  · exact .inr (.inr (.inl ⟨hi, by rw [releaseEnd_eq]; rfl⟩))
  · exact .inl rfl
  · exact .inl rfl
  · exact .inr (.inr (.inr ⟨hi, hc, by rw [runOperation_base]; rfl⟩))

/-- A runtime operation opens no bus. -/
theorem busOpen_not_mem_traceOf {cfg : BusConfig} {ans : Nat → Answer} {script : List Action} (h : Action.busOpen ∉ script)
    (k : Nat) : ∀ g a, Event.busOpen g a ∉ traceOf cfg ans k script := by
  induction script generalizing k with
  | nil => simp [traceOf]
  | cons a rest ih =>
    simp only [List.mem_cons, not_or] at h
    intro g b
    cases a <;> simp only [traceOf] <;> try split
    all_goals first
      | exact absurd rfl h.1
      | simp [ih h.2]

theorem busOpen_not_mem_runtimeScript (s : State) (i : Instr) : Action.busOpen ∉ runtimeScript s i := by
  cases i <;> simp [runtimeScript, resetScript, sendCmd, sendData, drawScript, pageScript]

/-- A runtime operation that failed leaves nothing known (43 R210). -/
theorem lcdcAfter_runtimeTrace_of_failure {s : State} {i : Instr} (h : hasFailure (runtimeTrace s i) = true) :
    lcdcAfter s.env.lcdcFresh s.seq.rst s.seq.dc s.lcdc (runtimeTrace s i) = Lcdc.allUnknown :=
  lcdcAfter_of_failure (busOpen_not_mem_traceOf (busOpen_not_mem_runtimeScript _ _) _)
    (failureEndsTrace_traceOf _ _ _ _) h

/-! ## Reading a trace in two parts -/

theorem levelAfter_append (p : CtlPin) (l : Latch) (xs ys : List Event) :
    levelAfter p l (xs ++ ys) = levelAfter p (levelAfter p l xs) ys := by
  induction xs generalizing l with
  | nil => rfl
  | cons e xs ih => cases e <;> exact ih _

theorem busAfter_append (b : BusState) (xs ys : List Event) : busAfter b (xs ++ ys) = busAfter (busAfter b xs) ys := by
  induction xs generalizing b with
  | nil => rfl
  | cons e xs ih =>
    cases e
    case busOpen c a => cases a <;> exact ih _
    all_goals exact ih _

theorem knownAfter_append (l : Latch) (k : Bool) (xs ys : List Event) :
    knownAfter l k (xs ++ ys) = knownAfter (levelAfter .rst l xs) (knownAfter l k xs) ys := by
  induction xs generalizing l k with
  | nil => rfl
  | cons e xs ih =>
    cases e
    case setPin p v => cases p <;> cases v <;> exact ih _ _
    case transmit bs a => cases a <;> exact ih _ _
    all_goals exact ih _ _

/-! ## What a trace keeps -/

/-- A trace keeps the part of the invariant that is about the controller. -/
theorem Lcdc.Ok.after {f : Bool} {r d : Latch} {c : Lcdc} (h : c.Ok) (es : List Event) : (lcdcAfter f r d c es).Ok := by
  induction es generalizing r d c with
  | nil => exact h
  | cons e es ih =>
    cases e
    case setPin p v =>
      cases p
      · exact ih h
      · exact ih (h.resetPin _ _ _)
    case transmit bs a =>
      cases a
      · exact ih (h.receiveAll _ _)
      · exact ih Lcdc.ok_allUnknown
    all_goals exact ih h

/-- A latch that has been driven stays driven. -/
theorem levelAfter_ne_x {p : CtlPin} {l : Latch} (h : l ≠ .x) (es : List Event) : levelAfter p l es ≠ .x := by
  induction es generalizing l with
  | nil => exact h
  | cons e es ih =>
    cases e
    case setPin q v =>
      simp only [levelAfter]
      split
      · exact ih (by simp)
      · exact ih h
    all_goals exact ih h

/-- A script that does not drive the reset pin leaves its latch. -/
theorem levelAfter_rst_traceOf {cfg : BusConfig} {ans : Nat → Answer} {script : List Action}
    (h : ∀ v, Action.setPin .rst v ∉ script) (k : Nat) (l : Latch) :
    levelAfter .rst l (traceOf cfg ans k script) = l := by
  induction script generalizing k with
  | nil => rfl
  | cons a rest ih =>
    have h' : ∀ v, Action.setPin .rst v ∉ rest := fun v hv => h v (List.mem_cons_of_mem _ hv)
    cases a <;> simp only [traceOf] <;> try split
    case setPin p v =>
      cases p
      · exact ih h' k
      · exact absurd List.mem_cons_self (h v)
    all_goals first | exact ih h' _ | rfl

/-- The latch of the reset pin after a runtime operation. -/
theorem levelAfter_rst_runtimeTrace (s : State) (i : Instr) (l : Latch) :
    levelAfter .rst l (runtimeTrace s i) = if i = .reset then .driven .high else l := by
  split
  · rename_i h
    subst h
    rfl
  · rename_i h
    refine levelAfter_rst_traceOf (fun v => ?_) _ _
    cases i <;> first | exact absurd rfl h | simp [runtimeScript, sendCmd, sendData, drawScript, pageScript]

/-- A runtime operation leaves the bus as it was. -/
theorem busAfter_runtimeTrace (s : State) (i : Instr) (b : BusState) : busAfter b (runtimeTrace s i) = b := by
  have key : ∀ (script : List Action) (k : Nat), Action.busOpen ∉ script → Action.busClose ∉ script →
      busAfter b (traceOf s.seq.binding.busConfig (answerFrom s.env.answers) k script) = b := by
    intro script
    induction script with
    | nil => intros; rfl
    | cons a rest ih =>
      intro k h1 h2
      simp only [List.mem_cons, not_or] at h1 h2
      cases a <;> simp only [traceOf] <;> try split
      all_goals first | exact ih _ h1.2 h2.2 | rfl | exact absurd rfl h1.1 | exact absurd rfl h2.1
  refine key _ _ (busOpen_not_mem_runtimeScript _ _) ?_
  cases i <;> simp [runtimeScript, resetScript, sendCmd, sendData, drawScript, pageScript]

/-! ## The trace of CONSTRUCT -/

/-- All answers `ok` and the whole trace, or cut at the first `fail`. -/
theorem traceFor_constructScript (s : State) :
    s.traceFor constructScript = initTrace s.seq.binding.busConfig ∨
    ∃ j, 1 ≤ j ∧ j ≤ 15 ∧ s.traceFor constructScript = failAt j (initTrace s.seq.binding.busConfig) := by
  rcases answersOk_or_firstFail s 15 with hok | ⟨j, hj, hf⟩
  · exact .inl (runScript_of_ok (s := s) (scriptTrace_constructScript _) (by rw [answersIn_initTrace]; exact hok)).1
  · exact .inr ⟨j, hf.1, hj, runScript_of_fail (s := s) (scriptTrace_constructScript _) hf
      (by rw [answersIn_initTrace]; exact hj)⟩

theorem hasFailure_initTrace (cfg : BusConfig) : hasFailure (initTrace cfg) = false := by
  simp [initTrace, hasFailure_cons, Event.answer?]

/-- Without a failure it is the whole trace. -/
theorem traceFor_constructScript_of_ok {s : State} (h : hasFailure (s.traceFor constructScript) = false) :
    s.traceFor constructScript = initTrace s.seq.binding.busConfig := by
  rcases traceFor_constructScript s with he | ⟨j, h1, h2, he⟩
  · exact he
  · rw [he, (failAt_failure h1 (by rw [answersIn_initTrace]; exact h2) (hasFailure_initTrace _)).1] at h
    exact absurd h (by simp)

/-- CONSTRUCT drives the reset pin high, whatever is answered. -/
theorem levelAfter_rst_constructTrace (s : State) (r : Latch) :
    levelAfter .rst r (s.traceFor constructScript) = .driven .high := by
  rcases traceFor_constructScript s with he | ⟨j, h1, h2, he⟩
  · rw [he]
    exact (latchesAfter_initTrace .x r .closed _).2.1
  · rw [he]
    interval_cases j <;> simp [initTrace, failAt, commandEvents, levelAfter]

end Sys2Proof.Machine
end

