-- ==== Sys2Proof/Laws/Step.lean ====
section
/-!
SUPPORT. What a step can do, said once: it waits, runs a host operation, hands a byte to the controller, or brings a new
sequencer into being.
-/

namespace Sys2Proof.Machine

/-- A command byte decodes to a byte form. -/
theorem isHostOperation_of_decodeCommand {b : Byte} {i : Instr} (h : decodeCommand b = .ok i) :
    i.isHostOperation = false := by
  unfold decodeCommand at h
  split at h
  · rename_i r hr
    have hm := List.mem_of_find?_eq_some hr
    cases h
    simp only [commandRows, List.cons_append, List.nil_append, List.mem_cons, List.not_mem_nil, or_false] at hm
    rcases hm with h | h | h | h | h | h | h | h | h | h | h | h | h | h | h | h | h | h | h | h | h | h | h | h <;>
      subst h <;> rfl
  · exact absurd h (by simp)

/-- What the controller reads from a byte is a byte form. -/
theorem isHostOperation_of_decodeFor {c : Lcdc} {m : Latch} {b : Byte} {i : Instr} (h : c.decodeFor m b = some i) :
    i.isHostOperation = false := by
  unfold Lcdc.decodeFor at h
  split at h
  · rename_i ctx hctx
    split at h
    · rename_i j hj
      obtain rfl : j = i := by simpa using h
      cases ctx
      · exact isHostOperation_of_decodeCommand hj
      · obtain rfl : Instr.evParam b = j := by simpa [decodeByte] using hj
        rfl
      · obtain rfl : Instr.data b = j := by simpa [decodeByte] using hj
        rfl
    · exact absurd h (by simp)
  · exact absurd h (by simp)

/-- A request decodes to a host operation. -/
theorem isHostOperation_of_decodeRequest {w : ReqWord} {payload : List Byte} {i : Instr}
    (h : decodeRequest w payload = .ok i) : i.isHostOperation = true := by
  unfold decodeRequest at h
  split at h
  · rename_i r hr
    have hm := List.mem_of_find?_eq_some hr
    cases h
    simp only [requestRows, List.cons_append, List.nil_append, List.mem_cons, List.not_mem_nil, or_false] at hm
    rcases hm with h | h | h | h | h | h | h | h | h | h | h | h | h <;> subst h <;> rfl
  · exact absurd h (by simp)

/-- A byte handed to the controller is received, whatever it is (43 R180, R209). -/
theorem stepByte_eq (m : Level) (b : Byte) (s : State) :
    stepByte m b s = .next (s.setLcdc (s.lcdc.receive (.driven m) b)) := by
  unfold stepByte Lcdc.receive
  cases h : s.lcdc.decodeFor (.driven m) b with
  | some i => exact exec_byte (isHostOperation_of_decodeFor h) s
  | none => rfl

/-- What a step can answer. -/
theorem step_cases {s t : State} (h : step s = .next t) :
    (s.env.inbox = [] ∧ t = s) ∨
    ∃ x rest, s.env.inbox = x :: rest ∧
      ((∃ w payload i, x = .request w payload ∧ decodeRequest w payload = .ok i ∧ i.isHostOperation = true ∧
          exec i (s.withInbox rest) = .next t) ∨
        (∃ m b, x = .busByte m b ∧ t = (s.withInbox rest).setLcdc (s.lcdc.receive (.driven m) b)) ∨
        (∃ b o f, x = .powerOn b o f ∧ t = (s.withInbox rest).powerOn b o f ∧
          (s.seq.life = .unbuilt ∨ s.seq.life = .released))) := by
  unfold step at h
  split at h
  · rename_i hx
    exact .inl ⟨hx, by simpa using h.symm⟩
  · rename_i x rest hx
    refine .inr ⟨x, rest, hx, ?_⟩
    cases x with
    | request w payload =>
      simp only [stepInput, stepRequest] at h
      split at h
      · rename_i i hi
        exact .inl ⟨w, payload, i, rfl, hi, isHostOperation_of_decodeRequest hi, h⟩
      · exact absurd h (by simp)
    | overlapping w payload => exact absurd h (by simp [stepInput])
    | busByte m b =>
      simp only [stepInput, stepByte_eq] at h
      exact .inr (.inl ⟨m, b, rfl, by simpa using h.symm⟩)
    | powerOn b o f =>
      simp only [stepInput, acceptPowerOn] at h
      split at h
      · rename_i hl
        exact .inr (.inr ⟨b, o, f, rfl, by simpa using h.symm, .inl hl⟩)
      · rename_i hl
        exact .inr (.inr ⟨b, o, f, rfl, by simpa using h.symm, .inr hl⟩)
      · exact absurd h (by simp)
      · exact absurd h (by simp)

end Sys2Proof.Machine
end

