-- ==== Sys2Proof/Tests/Slice0.lean ====
section
/-!
SUPPORT. Tests: expected values from spec/95_test_vectors and from the encoding tables of spec/30_encoding, worked by
hand; and for every statement with hypotheses a concrete state that meets them.
-/

namespace Sys2Proof.Tests

open Sys2Proof.Machine

/-! ## States -/

/-- A controller all of whose registers are known, at values the vectors change. -/
def knownLcdc : Lcdc :=
  { Lcdc.displayable with
    pa := .known 2, caHi := .known 3, caLo := .known 7, ddram := [(200, 0x11), (262, 0x22)], sleep := .known false }

/-- A READY sequencer with this controller and these answers to come (the start state of 95, part 2). -/
def readyState (c : Lcdc) (answers : List Answer) : State where
  seq :=
    { life := .ready, fb := [(0, 0x80), (767, 0x01)], dc := .driven .high, rst := .driven .high, pinOut := true
      bus := .opened, binding := Binding.default }
  lcdc := c
  env := { State.reset.env with answers := answers }

/-- The same before CONSTRUCT. -/
def unbuiltState (answers : List Answer) : State :=
  { State.reset with env := { State.reset.env with answers := answers } }

def oks (n : Nat) : List Answer := List.replicate n .ok
/-- The first `fail` is answer j. -/
def failsAt (j : Nat) : List Answer := oks (j - 1) ++ [.fail]

def State.with (s : State) (x : Input) : State := { s with env := { s.env with inbox := [x] } }

/-- The shadow after one byte. -/
def received (c : Lcdc) (m : Level) (b : Byte) : Option Lcdc :=
  match step (State.with (readyState c []) (.busByte m b)) with
  | .next t => some t.lcdc
  | .fault _ | .refused _ => none

/-- What a request returns: its results, how many events, its tagged stream, and the state. -/
def requested (s : State) (w : ReqWord) (payload : List Byte) : Option State :=
  match step (State.with s (.request w payload)) with
  | .next t => some t
  | .fault _ | .refused _ => none

def refusal (s : State) (x : Input) : Option Refusal :=
  match step (State.with s x) with
  | .refused r => some r
  | .next _ | .fault _ => none

/-! ## Well-formedness -/

/-- A parameter byte with bits 7..6 not zero is not well formed (30_encoding R91). -/
theorem test_wellFormed_refuses_wide_parameter : (Instr.evParam 0xAE).wellFormed = false := by decide
theorem test_wellFormed_accepts_volume : (Instr.evParam 0x3F).wellFormed = true := by decide

/-! ## Decoding: words written out from 30_encoding R95 and R97 -/

theorem test_decode_addresses :
    decode (.byte .command 0b00001011) = .ok (.colLo 11) ∧ decode (.byte .command 0b00011010) = .ok (.colHi 10) ∧
    decode (.byte .command 0b10110101) = .ok (.page 5) ∧ decode (.byte .command 0b01111111) = .ok (.startLine 63) := by
  decide
theorem test_decode_contrast_and_power :
    decode (.byte .command 0b00100111) = .ok (.ratio 7) ∧ decode (.byte .command 0b10000001) = .ok .evSet ∧
    decode (.byte .command 0b00101100) = .ok .pwr1 ∧ decode (.byte .command 0b00101110) = .ok .pwr2 ∧
    decode (.byte .command 0b00101111) = .ok .pwr3 := by decide
theorem test_decode_modes :
    decode (.byte .command 0b10100000) = .ok .scanNormal ∧ decode (.byte .command 0b10100001) = .ok .scanReverse ∧
    decode (.byte .command 0b10100010) = .ok .bias19 ∧ decode (.byte .command 0b10100011) = .ok .bias17 ∧
    decode (.byte .command 0b10100100) = .ok .allptsNormal ∧ decode (.byte .command 0b10100101) = .ok .allptsOn ∧
    decode (.byte .command 0b10100110) = .ok .dispNormal ∧ decode (.byte .command 0b10100111) = .ok .dispReverse := by
  decide
theorem test_decode_switches :
    decode (.byte .command 0b10101011) = .ok .sleep ∧ decode (.byte .command 0b10101100) = .ok .wake ∧
    decode (.byte .command 0b10101110) = .ok .dispOff ∧ decode (.byte .command 0b10101111) = .ok .dispOn ∧
    decode (.byte .command 0b11000000) = .ok .comNormal ∧ decode (.byte .command 0b11001000) = .ok .comReverse ∧
    decode (.byte .command 0b11100010) = .ok .intReset := by decide
theorem test_decode_by_context :
    decode (.byte .parameter 0b00011100) = .ok (.evParam 28) ∧ decode (.byte .data 0b00011100) = .ok (.data 28) ∧
    decode (.byte .command 0b00011100) = .ok (.colHi 12) := by decide
theorem test_decode_lifecycle_and_paging :
    decode (.request 0b0000000000000000 []) = .ok .construct ∧ decode (.request 0b0001000000000000 []) = .ok .reset ∧
    decode (.request 0b0010000000000000 [1, 2]) = .ok (.setPixelData [1, 2]) ∧
    decode (.request 0b0011000000000000 []) = .ok .flush ∧ decode (.request 0b0100000000000000 []) = .ok .draw ∧
    decode (.request 0b1100000000000000 []) = .ok .release := by decide
theorem test_decode_registers :
    decode (.request 0b0101000000000001 []) = .ok (.setDisplayMode .on) ∧
    decode (.request 0b0110000000000001 []) = .ok (.setDisplayColor .inverted) ∧
    decode (.request 0b0111000011111111 []) = .ok (.setContrast 255) ∧
    decode (.request 0b1000000000011100 []) = .ok (.setContrastDetail 28) ∧
    decode (.request 0b1001000000000001 []) = .ok (.setSleepMode .enabled) ∧
    decode (.request 0b1010000000000101 []) = .ok (.setPageAddress 5) ∧
    decode (.request 0b1011000010101011 []) = .ok (.setColumnAddress 171) := by decide
/-- T30.3, T42.34 to T42.37. -/
theorem test_decode_reserved :
    decode (.byte .command 0x28) = .error (.reservedCommand 0x28) ∧
    decode (.request 0x5002 []) = .error (.reservedRequest 0x5002) ∧
    decode (.request 0x4001 []) = .error (.reservedRequest 0x4001) ∧
    decode (.request 0xD000 []) = .error (.reservedRequest 0xD000) ∧
    decode (.request 0x7103 []) = .error (.reservedRequest 0x7103) := by decide
/-- The opcode table's numbering: what its bits are read as from reset. -/
theorem test_decodeTableWord :
    decodeTableWord 8 0xB5 = some (.page 5) ∧ decodeTableWord 8 0x30 = some (.evParam 0x30) ∧
    decodeTableWord 8 0xFF = some (.data 0xFF) ∧ decodeTableWord 16 0xB0AB = some (.setColumnAddress 171) ∧
    decodeTableWord 16 0xD000 = none := by decide

/-! ## One byte (95, T43) -/

theorem test_T43_1_dispOff : received knownLcdc .low 0xAE = some { knownLcdc with displayOn := .known false } := by decide
theorem test_T43_2_dispOn :
    received { knownLcdc with displayOn := .known false } .low 0xAF = some knownLcdc := by decide
theorem test_T43_3_scanNormal :
    received { knownLcdc with scanReverse := .known true } .low 0xA0 = some knownLcdc := by decide
theorem test_T43_3_scanReverse :
    received knownLcdc .low 0xA1 = some { knownLcdc with scanReverse := .known true } := by decide
theorem test_T43_4_dispNormal : received { knownLcdc with reverse := .known true } .low 0xA6 = some knownLcdc := by decide
theorem test_T43_4_dispReverse : received knownLcdc .low 0xA7 = some { knownLcdc with reverse := .known true } := by decide
theorem test_T43_5_allptsNormal :
    received { knownLcdc with allPoints := .known true } .low 0xA4 = some knownLcdc := by decide
theorem test_T43_5_allptsOn : received knownLcdc .low 0xA5 = some { knownLcdc with allPoints := .known true } := by decide
theorem test_T43_6_bias19 : received knownLcdc .low 0xA2 = some { knownLcdc with bias := .known false } := by decide
theorem test_T43_6_bias17 : received { knownLcdc with bias := .unknown } .low 0xA3 = some knownLcdc := by decide
theorem test_T43_7_intReset : received knownLcdc .low 0xE2 = some Lcdc.allUnknown := by decide
theorem test_T43_8_sleep : received knownLcdc .low 0xAB = some { knownLcdc with sleep := .known true } := by decide
theorem test_T43_8_wake : received { knownLcdc with sleep := .unknown } .low 0xAC = some knownLcdc := by decide
theorem test_T43_9_ratio : received knownLcdc .low 0x27 = some { knownLcdc with ratio := .known 7 } := by decide
theorem test_T43_10_evSet : received knownLcdc .low 0x81 = some { knownLcdc with evPending := .known true } := by decide
/-- The byte is the parameter, not a reserved command. -/
theorem test_T43_11_evParam :
    received { knownLcdc with evPending := .known true } .low 0x2A = some { knownLcdc with ev := .known 0x2A } := by decide
/-- The display does not go off: the byte is the parameter, and too large. -/
theorem test_T43_12_evParam :
    received { knownLcdc with evPending := .known true } .low 0xAE = some { knownLcdc with ev := .unknown } := by decide
theorem test_T43_13_page : received knownLcdc .low 0xBF = some { knownLcdc with pa := .known 15 } := by decide
theorem test_T43_14_colHi : (received knownLcdc .low 0x1A).map Lcdc.ca = some (.known 0xA7) := by decide
theorem test_T43_15_colLo : (received knownLcdc .low 0x0B).map Lcdc.ca = some (.known 0x3B) := by decide
theorem test_T43_18_startLine : received knownLcdc .low 0x7F = some { knownLcdc with startLine := .known 63 } := by decide
theorem test_T43_19_comNormal : received knownLcdc .low 0xC0 = some { knownLcdc with comReverse := .known false } := by
  decide
theorem test_T43_19_comReverse :
    received { knownLcdc with comReverse := .known false } .low 0xC8 = some knownLcdc := by decide
theorem test_T43_20_pwr1 : received knownLcdc .low 0x2C = some { knownLcdc with power := .known .stage1 } := by decide
theorem test_T43_20_pwr2 : received knownLcdc .low 0x2E = some { knownLcdc with power := .known .stage2 } := by decide
theorem test_T43_20_pwr3 : received { knownLcdc with power := .unknown } .low 0x2F = some knownLcdc := by decide
/-- PA = 2, CA = 0x37: the byte lands at 128 * 2 + 55 and CA steps to 0x38; the cells listed before stay. -/
theorem test_T43_21_data :
    received knownLcdc .high 0xFF =
      some { knownLcdc with ddram := [(200, 0x11), (262, 0x22), (311, 0xFF)], caLo := .known 8 } := by decide
/-- PA = 6: every cell and CA are lost. -/
theorem test_T43_23_data :
    received { knownLcdc with pa := .known 6 } .high 0x01 =
      some { knownLcdc with pa := .known 6, ddram := [], caHi := .unknown, caLo := .unknown } := by decide
theorem test_T43_26_reserved : received knownLcdc .low 0xE3 = some Lcdc.allUnknown := by decide

/-! ## One request (95, T40 to T42) -/

/-- T40.2: the bus cannot be opened. -/
theorem test_T40_2_construct :
    (requested (unbuiltState (failsAt 1)) 0x0000 []).map (fun t => (t.seq.life, t.seq.bus, t.seq.dc, t.seq.rst)) =
      some (.failed, .closed, .x, .driven .high) ∧
    (requested (unbuiltState (failsAt 1)) 0x0000 []).map (fun t => (t.env.events.length, t.env.results)) =
      some (4, [.errConstruction]) := by decide
/-- T40.5: the volume byte fails. -/
theorem test_T40_5_construct :
    (requested (unbuiltState (failsAt 11)) 0x0000 []).map
      (fun t => (t.env.events.length, (taggedStream .x t.env.events).map Prod.snd, t.lcdc.lcdcKnown)) =
      some (26, [0xAE, 0xA0, 0xC8, 0xA3, 0x2C, 0x2E, 0x2F, 0x23, 0x81], false) := by decide
/-- T40.7. -/
theorem test_T40_7_release :
    (requested (readyState knownLcdc []) 0xC000 []).map (fun t => (t.seq.life, t.seq.bus, t.env.events, t.env.results)) =
      some (.released, .closed, [.busClose], [.ok]) := by decide
/-- T41.1. -/
theorem test_T41_1_reset :
    (requested (readyState knownLcdc []) 0x1000 []).map (fun t => (t.seq, t.lcdc)) =
      some ((readyState knownLcdc []).seq,
        { Lcdc.allUnknown with lcdcKnown := true, evPending := .known false }) := by decide
/-- T41.2, byte 128 * 2 + 5 of the pattern `i mod 256`. -/
theorem test_T41_2_setPixelData :
    (requested (readyState knownLcdc []) 0x2000 ((List.range 768).map (BitVec.ofNat 8))).map (fun t => t.fbByte 261) =
      some 0x05 := by decide +kernel
/-- T41.3: one byte short. -/
theorem test_T41_3_setPixelData :
    (requested (readyState knownLcdc []) 0x2000 (List.replicate 767 0)).map (fun t => (t.seq.fb, t.env.results)) =
      some ([(0, 0x80), (767, 0x01)], [.errValidation]) := by decide +kernel
/-- T41.8: transfer 10 fails, of page 2 the column-high command. -/
theorem test_T41_8_draw :
    (requested (readyState knownLcdc (failsAt 10)) 0x4000 []).map
      (fun t => (t.env.events.length, t.env.consumed, t.seq.dc, t.lcdc.lcdcKnown)) =
      some (20, 10, .driven .low, false) := by decide +kernel
/-- T41.12: the zeroing stands. -/
theorem test_T41_12_flush :
    (requested (readyState knownLcdc (failsAt 1)) 0x3000 []).map
      (fun t => (t.fbByte 0, t.fbByte 767, t.env.events.length, t.env.results)) =
      some (0, 0, 2, [.errTransport]) := by decide +kernel
/-- T42.1, T42.3, T42.15. -/
theorem test_T42_1_setDisplayMode :
    (requested (readyState knownLcdc (oks 1)) 0x5000 []).map (fun t => (t.env.events, t.lcdc.displayOn)) =
      some (commandEvents 0xAE, .known false) := by decide
theorem test_T42_4_setDisplayColor :
    (requested (readyState knownLcdc (oks 1)) 0x6001 []).map (fun t => (t.env.events, t.lcdc.reverse)) =
      some (commandEvents 0xA7, .known true) := by decide
theorem test_T42_15_setSleepMode :
    (requested (readyState knownLcdc (oks 1)) 0x9001 []).map (fun t => (t.env.events, t.lcdc.sleep)) =
      some (commandEvents 0xAB, .known true) := by decide
/-- T42.7, T42.9: 255 is unsigned. -/
theorem test_T42_7_setContrast :
    (requested (readyState knownLcdc (oks 1)) 0x7007 []).map (fun t => (t.env.events, t.lcdc.ratio)) =
      some (commandEvents 0x27, .known 7) := by decide
theorem test_T42_9_setContrast :
    (requested (readyState knownLcdc (oks 1)) 0x70FF []).map (fun t => (t.env.events, t.env.results)) =
      some ([], [.errValidation]) := by decide
/-- T42.10: the 0x00 is the parameter, not ColumnLow 0. T42.31: the second transfer fails. -/
theorem test_T42_10_setContrastDetail :
    (requested (readyState knownLcdc (oks 2)) 0x8000 []).map (fun t => (t.env.events, t.lcdc.ev, t.lcdc.ca)) =
      some (commandEvents 0x81 ++ commandEvents 0x00, .known 0, .known 0x37) := by decide
theorem test_T42_31_setContrastDetail :
    (requested (readyState knownLcdc (failsAt 2)) 0x8020 []).map
      (fun t => (taggedStream .x t.env.events, t.env.results, t.lcdc.lcdcKnown)) =
      some ([(.driven .low, 0x81)], [.errTransport], false) := by decide
/-- T42.20, T42.21: page 16 is not page 0. -/
theorem test_T42_20_setPageAddress :
    (requested (readyState knownLcdc (oks 1)) 0xA00F []).map (fun t => (t.env.events, t.lcdc.pa)) =
      some (commandEvents 0xBF, .known 15) := by decide
theorem test_T42_21_setPageAddress :
    (requested (readyState knownLcdc (oks 1)) 0xA010 []).map (fun t => (t.env.events, t.env.results, t.lcdc)) =
      some ([], [.errValidation], knownLcdc) := by decide
/-- T42.28. -/
theorem test_T42_28_setColumnAddress :
    (requested (readyState knownLcdc (oks 2)) 0xB0AB []).map (fun t => (t.env.events, t.lcdc.ca)) =
      some (commandEvents 0x1A ++ commandEvents 0x0B, .known 0xAB) := by decide
/-- T40.11, T40.13. -/
theorem test_T40_11_lifecycle :
    refusal (unbuiltState []) (.request 0x4000 []) = some (.lifecycle .unbuilt) ∧
    refusal (readyState knownLcdc []) (.request 0x0000 []) = some (.lifecycle .ready) ∧
    refusal (readyState knownLcdc []) (.overlapping 0x4000 []) = some .busy := by decide
/-- The fetch word of a request and of a byte is what the next step runs. -/
theorem test_withFetchWord :
    step (State.reset.withFetchWord 8 0xAE) = exec .dispOff
      { State.reset with lcdc := { Lcdc.allUnknown with evPending := .known false } } ∧
    step (State.reset.withFetchWord 16 0x4000) = .refused (.lifecycle .unbuilt) := ⟨rfl, rfl⟩
/-- MSB first (20_memory R64): 0x1C on the wire. -/
theorem test_wireBits : wireBits 0x1C = [false, false, false, true, true, true, false, false] := by decide

/-! ## Witnesses: concrete states that meet the hypotheses of the statements -/

theorem answersOk_oks (s : State) (n m : Nat) (h : m ≤ n) :
    AnswersOk { s with env := { s.env with answers := oks n, consumed := 0 } } m := by
  intro k hk
  simp only [Env.answerAt, answerFrom, oks, List.getElem?_replicate, Nat.zero_add]
  rw [if_pos (by omega)]

theorem firstFail_failsAt (s : State) (j : Nat) (h : 1 ≤ j) :
    FirstFail { s with env := { s.env with answers := failsAt j, consumed := 0 } } j := by
  refine ⟨h, fun k hk => ?_, ?_⟩
  · simp only [Env.answerAt, answerFrom, failsAt, oks, Nat.zero_add]
    rw [List.getElem?_append_left (by simpa using hk), List.getElem?_replicate, if_pos hk]
  · simp [Env.answerAt, answerFrom, failsAt, oks]

/-- READY, everything known, n answers `ok` to come. -/
abbrev ready (n : Nat) : State := readyState knownLcdc (oks n)
/-- READY, the first `fail` at answer j. -/
abbrev readyFails (j : Nat) : State := readyState knownLcdc (failsAt j)

theorem ready_answersOk (n : Nat) : AnswersOk (ready n) n := answersOk_oks (ready n) n n (le_refl _)
theorem readyFails_firstFail (j : Nat) (h : 1 ≤ j) : FirstFail (readyFails j) j := firstFail_failsAt (readyFails j) j h

/-- The READY state after a bring-up, its trace written out. -/
def boundaryState (inbox : List Input) : State where
  seq := (ready 0).seq
  lcdc := Lcdc.displayable
  env := { State.reset.env with inbox := inbox, events := initTrace Binding.default.busConfig ++ dataEvents [] }

theorem ready_inv (n : Nat) : Inv (ready n) where
  fb := ⟨rfl, rfl⟩
  ddram := ⟨rfl, rfl⟩
  unbuilt := fun h => absurd (show Life.ready = .unbuilt from h) (by decide)
  built := fun _ => ⟨rfl, rfl⟩
  ready := fun _ => ⟨rfl, show Latch.driven .high ≠ .x by decide⟩
  released := fun h => absurd (show Life.ready = .released from h) (by decide)
  forgotten := fun h => absurd (show true = false from h) (by decide)
  decoding := fun _ => show Shadow.known false ≠ .unknown by decide

theorem withInbox_inv {s : State} (h : Inv s) (inbox : List Input) : Inv (s.withInbox inbox) :=
  ⟨h.fb, h.ddram, h.unbuilt, h.built, h.ready, h.released, h.forgotten, h.decoding⟩

theorem witness_StepKeepsInvariant : ∃ s t, Inv s ∧ step s = .next t ∧ t.lcdc ≠ s.lcdc :=
  ⟨(ready 1).withInbox [.request 0x5000 []], _, withInbox_inv (ready_inv 1) _, rfl, by decide⟩

theorem witness_StepKeepsTraceFaithful :
    ∃ s t, TraceFaithful s ∧ step s = .next t ∧ t.env.events ≠ s.env.events :=
  ⟨boundaryState [.request 0x1000 []], _, ⟨rfl, rfl, rfl, rfl⟩, rfl, fun h => absurd (congrArg List.length h) (by decide)⟩

theorem witness_StepKeepsOperationBoundary :
    ∃ s t, Boundary s ∧ step s = .next t ∧ t.lcdc ≠ s.lcdc :=
  ⟨boundaryState [.request 0x1000 []], _, ⟨rfl, rfl, fun _ => rfl, fun _ => rfl⟩, rfl, by decide⟩

theorem witness_WithoutFreshPremiseNothingIsKnown :
    ∃ s t : State, s.env.lcdcFresh = false ∧ s.lcdc.lcdcKnown = false ∧ step s = .next t ∧
      t.env.events ≠ s.env.events :=
  ⟨{ readyState Lcdc.allUnknown [] with
      env := { State.reset.env with lcdcFresh := false, inbox := [.request 0x1000 []] } }, _, rfl, rfl, rfl,
    fun h => absurd (congrArg List.length h) (by decide)⟩

theorem witness_PowerOnGivesFreshInstance :
    ∀ l ∈ [Life.unbuilt, .released, .ready, .failed], ∃ (s : State) (b : Binding) (rest : List Input),
      s.env.inbox = .powerOn b [] true :: rest ∧ s.seq.life = l := fun l _ =>
  ⟨((ready 0).setLife l).withInbox [.powerOn Binding.default [] true], Binding.default, [], rfl, rfl⟩

theorem witness_DecodeOfEncode :
    (Instr.evParam 0x3F).wellFormed = true ∧ (Instr.evParam 0).wellFormed = true ∧
    (Instr.colLo 15).wellFormed = true ∧ (Instr.setContrast 255).wellFormed = true := by decide

theorem witness_EncodeOfDecode :
    decode (.byte .command 0xE2) = .ok .intReset ∧ decode (.byte .parameter 0xFF) = .ok (.evParam 0xFF) ∧
    decode (.byte .data 0) = .ok (.data 0) ∧ decode (.request 0xC000 [7]) = .ok .release ∧
    decode (.request 0x2000 [7]) = .ok (.setPixelData [7]) := by decide

/-- Each way of being malformed, at its least value; and the largest words that are not. -/
theorem witness_MalformedRequestsAreRefused :
    ((0xD : BitVec 4) ≤ 0xD) ∧ ((1 : BitVec 4) ≠ 0) ∧ (((4 : BitVec 4) ≤ 4 ∨ (4 : BitVec 4) = 0xC) ∧ (1 : Byte) ≠ 0) ∧
    (((9 : BitVec 4) = 5 ∨ (9 : BitVec 4) = 6 ∨ (9 : BitVec 4) = 9) ∧ (1 : Byte) < 2) ∧
    ((ready 0).withInbox [.request 0xD000 []]).env.inbox = .request ((0xD : BitVec 4) ++ (0 : BitVec 4) ++ (0 : Byte)) [] :: [] ∧
    ¬ ((0xD : BitVec 4) ≤ 0xC ∨ (0 : BitVec 4) ≠ 0 ∨
      (((0xC : BitVec 4) ≤ 4 ∨ (0xC : BitVec 4) = 0xC) ∧ (0 : Byte) ≠ 0) ∨
      (((0xC : BitVec 4) = 5 ∨ (0xC : BitVec 4) = 6 ∨ (0xC : BitVec 4) = 9) ∧ (1 : Byte) < 0)) ∧
    ¬ ((0xD : BitVec 4) ≤ 9 ∨ (0 : BitVec 4) ≠ 0 ∨ (((9 : BitVec 4) ≤ 4 ∨ (9 : BitVec 4) = 0xC) ∧ (1 : Byte) ≠ 0) ∨
      (((9 : BitVec 4) = 5 ∨ (9 : BitVec 4) = 6 ∨ (9 : BitVec 4) = 9) ∧ (1 : Byte) < 1)) := by decide

theorem witness_StepRunsDecoded :
    (∃ (s : State) (rest : List Input), s.env.inbox = .request 0x4000 [] :: rest ∧
      decode (.request 0x4000 []) = .ok .draw) ∧
    (∃ (s : State) (rest : List Input), s.env.inbox = .busByte .low 0xAE :: rest ∧
      contextOf (.driven .low) s.lcdc.evPending = some .command ∧ decode (.byte .command 0xAE) = .ok .dispOff) ∧
    (∃ (s : State) (rest : List Input), s.env.inbox = .busByte .low 0xAE :: rest ∧
      contextOf (.driven .low) s.lcdc.evPending = some .parameter ∧
      decode (.byte .parameter 0xAE) = .ok (.evParam 0xAE)) ∧
    (∃ (s : State) (rest : List Input), s.env.inbox = .busByte .high 0 :: rest ∧
      contextOf (.driven .high) s.lcdc.evPending = some .data ∧ decode (.byte .data 0) = .ok (.data 0)) ∧
    State.reset.env.inbox = [] :=
  ⟨⟨(ready 0).withInbox [.request 0x4000 []], [], rfl, rfl⟩, ⟨(ready 0).withInbox [.busByte .low 0xAE], [], rfl, rfl, rfl⟩,
    ⟨(readyState { knownLcdc with evPending := .known true } []).withInbox [.busByte .low 0xAE], [], rfl, rfl, rfl⟩,
    ⟨(ready 0).withInbox [.busByte .high 0], [], rfl, rfl, rfl⟩, rfl⟩

theorem witness_LifecycleGatesRequests :
    Instr.isHostOperation .draw = true ∧ acceptedIn .draw State.reset.seq.life = false ∧
    acceptedIn .draw (ready 0).seq.life = true ∧ acceptedIn .construct State.reset.seq.life = true ∧
    State.reset.bindingFree = true ∧
    ((ready 0).withInbox [.overlapping 0x4000 []]).env.inbox = .overlapping 0x4000 [] :: [] := by decide

/-- A configuration that repeats a pin; one that shares a pin, or the bus alone, with another; one that shares nothing. -/
theorem witness_ConstructRefusesOverlappingConfiguration :
    State.reset.seq.life = .unbuilt ∧ ¬ ({ Binding.default with pinRst := 3 } : Binding).pins.Nodup ∧
    (∃ p ∈ Binding.default.pins, p ∈ (⟨4, 5, 6, 7, 8, 1⟩ : Binding).pins) ∧
    Binding.default.busInstance = (⟨5, 6, 7, 8, 9, 0⟩ : Binding).busInstance ∧
    Binding.default.pins.Nodup ∧ (∀ p ∈ Binding.default.pins, p ∉ (⟨5, 6, 7, 8, 9, 1⟩ : Binding).pins) ∧
    Binding.default.busInstance ≠ (⟨5, 6, 7, 8, 9, 1⟩ : Binding).busInstance := by decide

/-- For the statements on command bytes: a known controller that awaits no parameter, and any byte pending. -/
theorem witness_CommandDoes (b : Byte) :
    let s := (ready 0).withInbox [.busByte .low b]
    s.lcdc.lcdcKnown = true ∧ s.lcdc.evPending = .known false ∧ s.env.inbox = .busByte .low b :: [] :=
  ⟨rfl, rfl, rfl⟩

theorem witness_ColumnCommandsWriteHalves :
    ∃ t u, (ready 0).lcdc.lcdcKnown = true ∧ exec (.colHi 0xA) (ready 0) = .next t ∧ exec (.colLo 0xB) t = .next u ∧
      u.lcdc.ca = .known 0xAB :=
  ⟨_, _, rfl, rfl, rfl, by decide⟩

theorem witness_UndefinedEffectsForgetController :
    (ready 0).lcdc.lcdcKnown = true ∧ (ready 0).lcdc.evPending = .known false ∧
    decode (.byte .command 0x28) = .error (.reservedCommand 0x28) ∧
    decode (.byte .command 0xFF) = .error (.reservedCommand 0xFF) := by decide

theorem witness_ParameterByteWritesVolume :
    let s := (readyState { knownLcdc with evPending := .known true } []).withInbox [.busByte .low 0x3F]
    s.lcdc.lcdcKnown = true ∧ s.lcdc.evPending = .known true ∧ s.env.inbox = .busByte .low 0x3F :: [] ∧
    (0x3F : Byte).extractLsb' 6 2 = 0 ∧ ¬ (0x40 : Byte).extractLsb' 6 2 = 0 := by decide

/-- The corners of the window. -/
theorem witness_DataByteWritesCell :
    (let c := ({ knownLcdc with pa := .known 0 } : Lcdc).setCa 0;
      c.lcdcKnown = true ∧ c.evPending = .known false ∧ c.pa = .known 0 ∧ c.ca = .known 0) ∧
    (let c := ({ knownLcdc with pa := .known 5 } : Lcdc).setCa 127;
      c.lcdcKnown = true ∧ c.evPending = .known false ∧ c.pa = .known 5 ∧ c.ca = .known 127) ∧
    (0 : BitVec 4) ≤ 5 ∧ (5 : BitVec 4) ≤ 5 ∧ (0 : Byte) ≤ 127 ∧ (127 : Byte) ≤ 127 := by decide

theorem witness_DataByteOutsideWindowLosesDisplayRam :
    ({ knownLcdc with evPending := .known true } : Lcdc).lcdcKnown = true ∧
    ({ knownLcdc with pa := .unknown } : Lcdc).pa = .unknown ∧ ({ knownLcdc with caLo := .unknown } : Lcdc).ca = .unknown ∧
    ({ knownLcdc with pa := .known 6 } : Lcdc).pa = .known 6 ∧ (5 : BitVec 4) < 6 ∧
    (knownLcdc.setCa 128).ca = .known 128 ∧ (127 : Byte) < 128 ∧ (knownLcdc.setCa 128).evPending = .known false := by
  decide

theorem witness_UnknownControllerIgnoresBytes :
    Instr.isHostOperation .intReset = false ∧ State.reset.lcdc.lcdcKnown = false ∧
    (State.reset.withInbox [.busByte .low 0xE2]).env.inbox = .busByte .low 0xE2 :: [] := by decide

/-- A data byte with no parameter awaited, and a command. -/
theorem witness_BytesReachOnlyTheController :
    Instr.isHostOperation (.data 0xFF) = false ∧ Instr.data 0xFF ≠ .intReset ∧
    (∀ b, Instr.data 0xFF = .data b → (ready 0).lcdc.evPending = .known false) ∧
    Instr.isHostOperation .dispOn = false ∧ Instr.dispOn ≠ .intReset ∧
    ∀ b, Instr.dispOn = .data b → (ready 0).lcdc.evPending = .known false :=
  ⟨rfl, by simp, fun _ _ => rfl, rfl, by simp, fun _ _ => rfl⟩

theorem witness_ConstructBringsUpController :
    (unbuiltState (oks 15)).seq.life = .unbuilt ∧ (unbuiltState (oks 15)).seq.rst = .x ∧
    (unbuiltState (oks 15)).bindingFree = true ∧ AnswersOk (unbuiltState (oks 15)) 15 :=
  ⟨rfl, rfl, by decide, answersOk_oks State.reset 15 15 (le_refl _)⟩

theorem witness_ConstructFailureEndsInFailed :
    ∀ k, 1 ≤ k → k ≤ 15 → (unbuiltState (failsAt k)).seq.life = .unbuilt ∧ (unbuiltState (failsAt k)).seq.rst = .x ∧
      (unbuiltState (failsAt k)).bindingFree = true ∧ FirstFail (unbuiltState (failsAt k)) k := fun k h _ =>
  ⟨rfl, rfl, rfl, firstFail_failsAt State.reset k h⟩

theorem witness_ReleaseClosesBus :
    (ready 0).seq.life = .ready ∧ ((ready 0).setLife .failed).seq.life = .failed ∧ State.reset.seq.life = .unbuilt ∧
    ((ready 0).setLife .released).seq.life = .released := by decide

/-- For RESET, SET_PIXEL_DATA and the validation errors: READY, and payloads on both sides of the length; and operands at
the least value each check refuses. -/
theorem witness_ReadyStatements :
    (ready 0).seq.life = .ready ∧ (List.replicate 768 (0 : Byte)).length = 768 ∧
    (List.replicate 767 (0 : Byte)).length ≠ 768 ∧ (List.replicate 769 (0 : Byte)).length ≠ 768 ∧
    (7 : Byte) < 8 ∧ (63 : Byte) < 64 ∧ (15 : Byte) < 16 := by
  refine ⟨rfl, List.length_replicate, ?_, ?_, by decide, by decide, by decide⟩ <;> rw [List.length_replicate] <;> decide

/-- For the statements on DRAW and FLUSH with all answers `ok`. -/
theorem witness_PagingStatements :
    (ready 24).seq.life = .ready ∧ (ready 24).lcdc.lcdcKnown = true ∧ (ready 24).lcdc.evPending = .known false ∧
    AnswersOk (ready 24) 24 := ⟨rfl, rfl, rfl, ready_answersOk 24⟩

theorem witness_PagingAbortsOnFirstFailure :
    ∀ j, 1 ≤ j → j ≤ 24 → (readyFails j).seq.life = .ready ∧ FirstFail (readyFails j) j := fun j h _ =>
  ⟨rfl, readyFails_firstFail j h⟩

theorem witness_DrawDependsOnFramebufferAlone :
    ∃ s₁ s₂ t₁ t₂ : State, s₁.lcdc ≠ s₂.lcdc ∧ (∀ a, a < 768 → s₁.fbByte a = s₂.fbByte a) ∧
      (∀ k, k < 24 → s₁.env.answerAt (s₁.env.consumed + k) = s₂.env.answerAt (s₂.env.consumed + k)) ∧
      exec .draw s₁ = .next t₁ ∧ exec .draw s₂ = .next t₂ :=
  ⟨ready 24, readyState Lcdc.allUnknown (oks 24), _, _, by decide, fun _ _ => rfl, fun _ _ => rfl, execDraw_eq rfl,
    execDraw_eq rfl⟩

/-- For the register-setting operations: known and unknown controllers, one and two answers, and the largest operands
accepted. -/
theorem witness_RegisterStatements :
    (ready 2).seq.life = .ready ∧ AnswersOk (ready 2) 1 ∧ AnswersOk (ready 2) 2 ∧ (ready 2).lcdc.lcdcKnown = true ∧
    (ready 2).lcdc.evPending = .known false ∧ (readyState Lcdc.allUnknown (oks 2)).lcdc.lcdcKnown = false ∧
    AnswersOk (readyState Lcdc.allUnknown (oks 2)) 2 ∧ (7 : Byte) ≤ 7 ∧ (15 : Byte) ≤ 15 ∧ (63 : Byte) ≤ 63 ∧
    FirstFail (readyFails 1) 1 ∧ FirstFail (readyFails 2) 2 :=
  ⟨rfl, answersOk_oks (ready 2) 2 1 (by omega), ready_answersOk 2, rfl, rfl, rfl,
    answersOk_oks (readyState Lcdc.allUnknown (oks 2)) 2 2 (le_refl _), by decide, by decide, by decide,
    readyFails_firstFail 1 (by omega), readyFails_firstFail 2 (by omega)⟩

/-- An unknown controller, one answer `ok` and the next `fail`. -/
theorem witness_RegisterOperationsKeepUnknownController :
    (readyState Lcdc.allUnknown (failsAt 2)).seq.life = .ready ∧
    (readyState Lcdc.allUnknown (failsAt 2)).lcdc.lcdcKnown = false ∧
    AnswersOk (readyState Lcdc.allUnknown (failsAt 2)) 1 :=
  ⟨rfl, rfl, (firstFail_failsAt (readyState Lcdc.allUnknown (failsAt 2)) 2 (by omega)).2.1⟩

/-- A rejected operand and a failed second transfer, from a controller that awaits no parameter. -/
theorem witness_RegisterOperationsFrame :
    ((ready 1).lcdc.lcdcKnown = true → (ready 1).lcdc.evPending = .known false) ∧
    (∃ t, exec (.setPageAddress 16) (ready 1) = .next t) ∧ ∃ t, exec (.setColumnAddress 0) (readyFails 2) = .next t :=
  ⟨fun _ => rfl, ⟨_, rfl⟩, _, rfl⟩

theorem witness_OnlyConstructAndReleaseChangeLife :
    (∃ t, exec .construct (unbuiltState (failsAt 1)) = .next t ∧ t.seq.life ≠ (unbuiltState (failsAt 1)).seq.life) ∧
    ∃ t, exec .release (ready 0) = .next t ∧ t.seq.life ≠ (ready 0).seq.life :=
  ⟨⟨_, rfl, by decide⟩, _, rfl, by decide⟩

theorem witness_OnlyThreeOperationsWriteFramebuffer :
    ∃ t, exec .draw (ready 24) = .next t ∧ (∀ payload, Instr.draw ≠ .setPixelData payload) ∧ Instr.draw ≠ .flush ∧
      Instr.draw ≠ .construct := ⟨_, execDraw_eq rfl, by simp, by simp, by simp⟩

/-- For the statements on the trace of any operation: one that emits events. -/
theorem witness_TraceStatements :
    ∃ t, exec (.setContrastDetail 63) (ready 2) = .next t ∧ t.env.events ≠ (ready 2).env.events ∧
      Instr.isHostOperation (.setContrastDetail 63) = true ∧ Instr.setContrastDetail 63 ≠ .draw ∧
      Instr.setContrastDetail 63 ≠ .flush :=
  ⟨_, rfl, by decide, rfl, by simp, by simp⟩

theorem witness_ContrastModeSetAwaitsParameter : ({ knownLcdc with evPending := .known true } : Lcdc).evPending = .known true :=
  rfl

/-- FLUSH and DRAW with an unknown controller. -/
theorem witness_FlushClearsAndSends :
    (readyState Lcdc.allUnknown (oks 24)).seq.life = .ready ∧ AnswersOk (readyState Lcdc.allUnknown (oks 24)) 24 ∧
    (readyState Lcdc.allUnknown (oks 24)).lcdc.lcdcKnown = false :=
  ⟨rfl, answersOk_oks (readyState Lcdc.allUnknown (oks 24)) 24 24 (le_refl _), rfl⟩

theorem witness_ValidationErrorsLeaveNoTrace :
    ∃ t, exec (.setContrast 8) (ready 0) = .next t ∧ t.env.results = (ready 0).env.results ++ [.errValidation] :=
  ⟨_, rfl, rfl⟩

theorem witness_TransportErrorLeavesSequencer :
    ∃ t, exec (.setDisplayMode .on) (readyFails 1) = .next t ∧
      t.env.results = (readyFails 1).env.results ++ [.errTransport] := ⟨_, rfl, by decide⟩

theorem witness_RuntimeOperationsAreIdempotent :
    ∃ t u, Inv (ready 2) ∧ ((ready 2).lcdc.lcdcKnown = true → (ready 2).lcdc.evPending = .known false) ∧
      Instr.isHostOperation (.setDisplayMode .off) = true ∧ exec (.setDisplayMode .off) (ready 2) = .next t ∧
      t.env.results = (ready 2).env.results ++ [.ok] ∧ exec (.setDisplayMode .off) t = .next u ∧
      u.env.results = t.env.results ++ [.ok] :=
  ⟨_, _, ready_inv 2, fun _ => rfl, rfl, rfl, by decide, rfl, by decide⟩

/-- A parameter awaited, and none; and a byte the command table has. -/
theorem witness_ContextDecidesWhatAByteIs :
    ({ knownLcdc with evPending := .known true } : Lcdc).evPending = .known true ∧ knownLcdc.evPending = .known false ∧
    knownLcdc.decodeFor (.driven .low) 0xAE = some .dispOff := by decide

theorem witness_HostOperationsExpandToTheirBytes :
    (∃ t, exec .construct (unbuiltState (oks 15)) = .next t ∧
      t.env.results = (unbuiltState (oks 15)).env.results ++ [.ok]) ∧
    ∃ t, exec (.setColumnAddress 0xAB) (ready 2) = .next t ∧ t.env.results = (ready 2).env.results ++ [.ok] :=
  ⟨⟨_, rfl, by decide⟩, _, rfl, by decide⟩

/-- One operation failing at its first and at its second transfer. -/
theorem witness_HostGetsOneResultCode :
    (∃ t, exec (.setColumnAddress 0) (readyFails 1) = .next t ∧
      t.env.results = (readyFails 1).env.results ++ [.errTransport]) ∧
    ∃ t, exec (.setColumnAddress 0) (readyFails 2) = .next t ∧
      t.env.results = (readyFails 2).env.results ++ [.errTransport] :=
  ⟨⟨_, rfl, by decide⟩, _, rfl, by decide⟩

end Sys2Proof.Tests
end

section
/-!
SUPPORT. What decides which instruction a byte is (30_encoding R92), and what a step does with the oldest pending input.
-/

namespace Sys2Proof.Machine

/-! ## The context of a byte -/

/-- With DC high a byte is data, whatever is awaited. -/
@[simp] theorem contextOf_high (p : Shadow Bool) : contextOf (.driven .high) p = some .data := rfl

@[simp] theorem contextOf_low_awaited : contextOf (.driven .low) (.known true) = some .parameter := rfl

@[simp] theorem contextOf_low_idle : contextOf (.driven .low) (.known false) = some .command := rfl

/-- Only DC low with no parameter awaited is command space. -/
theorem contextOf_eq_command_iff {m : Latch} {p : Shadow Bool} :
    contextOf m p = some .command ↔ m = .driven .low ∧ p = .known false := by
  constructor
  · intro h
    match m, p with
    | .driven .low, .known false => exact ⟨rfl, rfl⟩
    | .driven .low, .known true | .driven .low, .unknown | .driven .high, _ | .x, _ => cases h
  · rintro ⟨rfl, rfl⟩
    exact contextOf_low_idle

/-- In a context a byte is the instruction it decodes to there. -/
theorem Lcdc.decodeFor_iff_of_contextOf {c : Lcdc} {m : Latch} {ctx : ByteContext}
    (h : contextOf m c.evPending = some ctx) (b : Byte) (i : Instr) :
    c.decodeFor m b = some i ↔ decode (.byte ctx b) = .ok i := by
  simp only [Lcdc.decodeFor, h, decode]
  cases decodeByte ctx b <;> simp

/-- A byte that is an instruction has been read in some context. -/
theorem Lcdc.exists_contextOf_of_decodeFor {c : Lcdc} {m : Latch} {b : Byte} {i : Instr} (h : c.decodeFor m b = some i) :
    ∃ ctx, contextOf m c.evPending = some ctx ∧ decode (.byte ctx b) = .ok i := by
  cases hctx : contextOf m c.evPending with
  | none => simp [Lcdc.decodeFor, hctx] at h
  | some ctx => exact ⟨ctx, rfl, (Lcdc.decodeFor_iff_of_contextOf hctx b i).1 h⟩

/-! ## The oldest pending input -/

theorem step_of_idle {s : State} (h : s.env.inbox = []) : step s = .next s := by
  simp only [step, h]

theorem step_of_pending {s : State} {x : Input} {rest : List Input} (h : s.env.inbox = x :: rest) :
    step s = stepInput x (s.withInbox rest) := by
  simp only [step, h]

/-- A pending request runs as what its word decodes to. -/
theorem step_request {s : State} {w : ReqWord} {payload : List Byte} {rest : List Input} {i : Instr}
    (h : s.env.inbox = .request w payload :: rest) (hd : decode (.request w payload) = .ok i) :
    step s = exec i (s.withInbox rest) := by
  rw [step_of_pending h]
  simp only [decode] at hd
  simp only [stepInput, stepRequest, hd]

/-- A pending byte runs as what the controller takes it for. -/
theorem step_busByte_of_decodeFor {s : State} {m : Level} {b : Byte} {rest : List Input} {i : Instr}
    (h : s.env.inbox = .busByte m b :: rest) (hd : s.lcdc.decodeFor (.driven m) b = some i) :
    step s = exec i (s.withInbox rest) := by
  rw [step_of_pending h]
  simp only [stepInput, stepByte, State.withInbox_lcdc, hd]

/-! ## The parameter byte -/

/-- Bits 7..6 are zero exactly in a well-formed parameter (30_encoding R91). -/
theorem wellFormedParam_iff (b : Byte) : wellFormedParam b = true ↔ b.extractLsb' 6 2 = 0 := by
  revert b
  decide

theorem lowField_eq_extractLsb' (w : Nat) (b : Byte) : lowField w b = b.extractLsb' 0 w := by
  apply BitVec.eq_of_toNat_eq
  simp [lowField]

/-- A known controller takes the parameter for its volume, if bits 7..6 are zero (43 R205). -/
theorem Lcdc.takeParam_of_known {c : Lcdc} (h : c.lcdcKnown = true) (b : Byte) :
    c.takeParam b =
      { c with
        ev := if b.extractLsb' 6 2 = 0 then .known (b.extractLsb' 0 6) else .unknown
        evPending := .known false } := by
  simp only [Lcdc.takeParam, Lcdc.whenKnown_of_known h, wellFormedParam_iff, lowField_eq_extractLsb']

end Sys2Proof.Machine
end

section
/-!
SUPPORT. What a host operation that returns OK has put on the bus (30_encoding R102): its script's whole trace, and the
tagged byte stream of that trace.
-/

namespace Sys2Proof.Machine

/-! ## The trace of an operation that returns OK -/

/-- A trace without a failed answer is the script's whole trace. -/
theorem traceOf_of_hasFailure_eq_false {cfg : BusConfig} {ans : Nat → Answer} {script : List Action} {k : Nat}
    (h : hasFailure (traceOf cfg ans k script) = false) : traceOf cfg ans k script = scriptTrace cfg script := by
  induction script generalizing k with
  | nil => rfl
  | cons a rest ih =>
    rw [show scriptTrace cfg (a :: rest) = a.events cfg ++ scriptTrace cfg rest from rfl]
    cases a <;> simp only [traceOf] at h ⊢
    case busOpen =>
      cases hk : ans k <;> simp only [hk] at h ⊢
      · exact congrArg _ (ih h)
      · cases h
    case transmit =>
      cases hk : ans k <;> simp only [hk] at h ⊢
      · exact congrArg _ (ih h)
      · cases h
    case pinsAreOutputs => exact ih h
    all_goals exact congrArg _ (ih h)

theorem resultOf_eq_ok_iff {es : List Event} : resultOf es = .ok ↔ hasFailure es = false := by
  cases h : hasFailure es <;> simp [resultOf, h]

/-- The events a host operation has emitted when it returns OK. -/
theorem exec_ok_events {i : Instr} {s t : State} (hi : i.isHostOperation = true) (h : exec i s = .next t)
    (hr : t.env.results = s.env.results ++ [.ok]) :
    (i = .construct ∧ t.env.events = s.env.events ++ initTrace s.seq.binding.busConfig) ∨
    (i = .release ∧ t.env.events = s.env.events ++ (if s.seq.bus = .opened then [.busClose] else [])) ∨
    (∃ payload, i = .setPixelData payload ∧ t.env.events = s.env.events) ∨
    (isScripted i = true ∧ t.env.events =
      s.env.events ++ scriptTrace s.seq.binding.busConfig (runtimeScript (scriptBase s i) i)) := by
  rcases exec_cases h with ⟨hb, _⟩ | ⟨rfl, _, _, rfl⟩ | ⟨rfl, _, rfl⟩ | ⟨_, _, rfl⟩ | ⟨_, payload, rfl, _, rfl⟩ |
    ⟨_, hs, _, rfl⟩
  · rw [hi] at hb
    cases hb
  · rw [constructEnd_parts] at hr ⊢
    have hf : hasFailure (s.traceFor constructScript) = false := by
      simpa [Env.extended] using hr
    exact .inl ⟨rfl, congrArg _ (traceFor_constructScript_of_ok hf)⟩
  · rw [releaseEnd_eq]
    exact .inr (.inl ⟨rfl, rfl⟩)
  · simp at hr
  · exact .inr (.inr (.inl ⟨payload, rfl, rfl⟩))
  · rw [runOperation_base] at hr ⊢
    have hf : hasFailure (runtimeTrace s i) = false := resultOf_eq_ok_iff.1 (by simpa [Env.extended] using hr)
    exact .inr (.inr (.inr ⟨hs, congrArg _ (traceOf_of_hasFailure_eq_false hf)⟩))

/-! ## The tagged byte stream of a trace -/

/-- Bytes sent one a transfer in command space. -/
theorem taggedStream_flatMap_commandEvents (m : Latch) (bs : List Byte) :
    taggedStream m (bs.flatMap commandEvents) = inCommandSpace bs := by
  induction bs generalizing m with
  | nil => rfl
  | cons b bs ih => rw [List.flatMap_cons, taggedStream_commandEvents, ih]; rfl

theorem taggedStream_pageTrace (m : Latch) (b : Byte) (row : List Byte) (es : List Event) :
    taggedStream m (pageTrace b row ++ es) =
      inCommandSpace [b, 0x10, 0x00] ++ inDataSpace row ++ taggedStream (.driven .high) es := by
  simp only [pageTrace, List.append_assoc, taggedStream_commandEvents, taggedStream_dataEvents]
  rfl

theorem taggedStream_drawTrace (m : Latch) (rows : Nat → List Byte) :
    taggedStream m (drawTrace rows) = pagesStream rows := by
  rw [← List.append_nil (drawTrace rows)]
  simp only [drawTrace, List.append_assoc, taggedStream_pageTrace]
  simp [pagesStream, List.range_succ, taggedStream]

theorem pagesStream_congr {rows rows' : Nat → List Byte} (h : ∀ p ≤ 5, rows p = rows' p) :
    pagesStream rows = pagesStream rows' := by
  rw [← taggedStream_drawTrace .x, ← taggedStream_drawTrace .x, drawTrace_congr h]

/-- CONSTRUCT's trace in three parts, the delays between them (40 R124). -/
theorem initTrace_eq_parts (cfg : BusConfig) :
    initTrace cfg =
      ([.pinDir .rst, .pinDir .dc, .setPin .rst .high, .busOpen cfg .ok] ++
        [0xAE, 0xA0, 0xC8, 0xA3, 0x2C].flatMap commandEvents) ++ [.delay Config.params.tSettleUs] ++
      [0x2E].flatMap commandEvents ++ [.delay Config.params.tSettleUs] ++
      [0x2F, 0x23, 0x81, 0x1C, 0xA4, 0x40, 0xA6, 0xAF].flatMap commandEvents := by
  simp only [initTrace, List.flatMap_cons, List.flatMap_nil, List.append_assoc, List.append_nil, List.cons_append,
    List.nil_append]

theorem taggedStream_initTrace (m : Latch) (cfg : BusConfig) :
    taggedStream m (initTrace cfg) = inCommandSpace initBytes := by
  simp only [initTrace, List.append_assoc, List.cons_append, List.nil_append, taggedStream, taggedStream_commandEvents]
  rfl

/-- The whole trace of a runtime operation sends its line of the expansion table. -/
theorem taggedStream_runtimeScript {i : Instr} (h : isScripted i = true) (m : Latch) (cfg : BusConfig) (s : State) :
    taggedStream m (scriptTrace cfg (runtimeScript (scriptBase s i) i)) = expansion s i := by
  cases i
  case flush =>
    simp only [runtimeScript, scriptTrace_drawScript, taggedStream_drawTrace, expansion, scriptBase, if_true]
    exact pagesStream_congr fun p hp => State.fbPage_fbClear s hp
  case draw =>
    simp only [runtimeScript, scriptTrace_drawScript, taggedStream_drawTrace, expansion, scriptBase, reduceCtorEq,
      if_false]
  case setDisplayMode sel => cases sel <;> rfl
  case setDisplayColor sel => cases sel <;> rfl
  case setSleepMode sel => cases sel <;> rfl
  case reset | setContrast | setContrastDetail | setPageAddress | setColumnAddress => rfl
  all_goals cases h

end Sys2Proof.Machine
end

section
/-!
SUPPORT. The statements on 30_encoding, settled.
-/

namespace Sys2Proof.Machine

/-- Settles O55. An operation that returns OK has left its script's whole trace, whose stream is its line of the table. -/
theorem hostOperationsExpandToTheirBytes : Obligations.HostOperationsExpandToTheirBytes := by
  unfold Obligations.HostOperationsExpandToTheirBytes
  intro i s t hi h hr
  rcases exec_ok_events hi h hr with ⟨rfl, he⟩ | ⟨rfl, he⟩ | ⟨payload, rfl, he⟩ | ⟨hs, he⟩
  · refine ⟨_, he, taggedStream_initTrace _ _, fun _ => ⟨_, _, _, initTrace_eq_parts _, ?_, ?_, ?_⟩⟩
    · exact taggedStream_flatMap_commandEvents _ _
    · exact taggedStream_flatMap_commandEvents _ _
    · exact taggedStream_flatMap_commandEvents _ _
  · refine ⟨_, he, ?_, fun hc => by cases hc⟩
    split <;> rfl
  · exact ⟨[], by rw [he, List.append_nil], rfl, fun hc => by cases hc⟩
  · refine ⟨_, he, taggedStream_runtimeScript hs _ _ _, fun hc => ?_⟩
    subst hc
    cases hs

/-- Settles O13, from the steps of a request and of a byte. -/
theorem stepRunsDecoded : Obligations.StepRunsDecoded := by
  unfold Obligations.StepRunsDecoded
  refine ⟨?_, ?_, ?_⟩
  · intro s w payload rest i h hd
    exact step_request h hd
  · intro s m b rest ctx i h hctx hd
    exact step_busByte_of_decodeFor h ((Lcdc.decodeFor_iff_of_contextOf hctx b i).2 hd)
  · intro s h
    exact step_of_idle h

/-- Settles O24: the awaited byte is read as EV_PARAM, by `exec` and by a step. -/
theorem parameterByteWritesVolume : Obligations.ParameterByteWritesVolume := by
  unfold Obligations.ParameterByteWritesVolume
  intro s b hk hp
  have hexec : ∀ u : State, u.lcdc = s.lcdc → exec (.evParam b) u = .next (u.setLcdc (s.lcdc.takeParam b)) := by
    intro u hu
    rw [exec_byte rfl, hu]
    rfl
  rw [Lcdc.takeParam_of_known hk] at hexec
  refine ⟨hexec s rfl, fun rest h => ?_⟩
  have hd : s.lcdc.decodeFor (.driven .low) b = some (.evParam b) :=
    (Lcdc.decodeFor_iff_of_contextOf (by rw [hp, contextOf_low_awaited]) b _).2 rfl
  rw [step_busByte_of_decodeFor h hd]
  exact hexec _ rfl

/-- Settles O54, from the context each DC level and awaited parameter give. -/
theorem contextDecidesWhatAByteIs : Obligations.ContextDecidesWhatAByteIs := by
  unfold Obligations.ContextDecidesWhatAByteIs
  refine ⟨fun c b => ⟨?_, ?_, ?_⟩, ?_, by decide, by decide, by decide⟩
  · exact (Lcdc.decodeFor_iff_of_contextOf (contextOf_high _) b _).2 rfl
  · intro hp
    exact (Lcdc.decodeFor_iff_of_contextOf (by rw [hp, contextOf_low_awaited]) b _).2 rfl
  · intro hp i
    exact Lcdc.decodeFor_iff_of_contextOf (by rw [hp, contextOf_low_idle]) b i
  · intro c m b i h hparam hdata
    obtain ⟨ctx, hctx, hd⟩ := Lcdc.exists_contextOf_of_decodeFor h
    cases ctx with
    | command => exact contextOf_eq_command_iff.1 hctx
    | parameter => cases hd; exact absurd rfl (hparam b)
    | data => cases hd; exact absurd rfl (hdata b)

end Sys2Proof.Machine
end

section
/-!
SUPPORT. The seven register-setting operations (42 R160 to R166): the bytes each sends in command space, and the state
after it, with every transfer answered `ok` and with a first `fail`.
-/

namespace Sys2Proof.Machine

/-! ## What the operations send -/

/-- The bytes a register-setting operation sends, each in a transfer of its own (42 R160 to R166); none for any other
instruction. -/
def registerBytes : Instr → List Byte
  | .setDisplayMode sel => [displayModeByte sel]
  | .setDisplayColor sel => [displayColorByte sel]
  | .setContrast arg => [ratioByte arg]
  | .setContrastDetail arg => [Opcode.evSet, arg]
  | .setSleepMode sel => [sleepModeByte sel]
  | .setPageAddress arg => [pageByte arg]
  | .setColumnAddress arg => [colHiByte arg, colLoByte arg]
  | _ => []

/-- A register-setting operation runs a script, starts it from the state it finds and does not drive the reset pin; its
script sends its bytes. -/
theorem scripted_of_registerBytes {i : Instr} (hi : registerBytes i ≠ []) :
    isScripted i = true ∧ i ≠ .flush ∧ i ≠ .reset ∧ ∀ s, runtimeScript s i = (registerBytes i).flatMap sendCmd := by
  cases i
  case setDisplayMode | setDisplayColor | setContrast | setContrastDetail | setSleepMode | setPageAddress |
      setColumnAddress =>
    exact ⟨rfl, nofun, nofun, fun _ => rfl⟩
  all_goals exact absurd rfl hi

theorem scriptTrace_flatMap_sendCmd (cfg : BusConfig) (bs : List Byte) :
    scriptTrace cfg (bs.flatMap sendCmd) = bs.flatMap commandEvents := by
  simp only [scriptTrace, List.flatMap_assoc]
  rfl

theorem answersIn_flatMap_commandEvents (bs : List Byte) : answersIn (bs.flatMap commandEvents) = bs.length := by
  induction bs with
  | nil => rfl
  | cons b bs ih =>
    rw [List.flatMap_cons, answersIn_append, answersIn_commandEvents, ih, List.length_cons, Nat.add_comm]

/-! ## The trace they leave -/

theorem levelAfter_dc_traceOf_sendCmds (cfg : BusConfig) (ans : Nat → Answer) (bs : List Byte) (k : Nat) :
    levelAfter .dc (.driven .low) (traceOf cfg ans k (bs.flatMap sendCmd)) = .driven .low := by
  induction bs generalizing k with
  | nil => rfl
  | cons b bs ih =>
    show levelAfter .dc (.driven .low) (traceOf cfg ans k (.transmit [b] (.command b) :: bs.flatMap sendCmd)) = _
    rw [traceOf]
    split
    · exact ih _
    · rfl

section
variable {i : Instr} (hi : registerBytes i ≠ []) {s : State}
include hi

theorem runtimeTrace_eq_traceFor : runtimeTrace s i = s.traceFor ((registerBytes i).flatMap sendCmd) := by
  obtain ⟨-, -, -, hscript⟩ := scripted_of_registerBytes hi
  rw [runtimeTrace, hscript]
  rfl

/-- Whatever is answered, DC is left low: the first statement drives it so, and no other drives it high. -/
theorem levelAfter_dc_runtimeTrace (l : Latch) : levelAfter .dc l (runtimeTrace s i) = .driven .low := by
  rw [runtimeTrace_eq_traceFor hi]
  cases hbs : registerBytes i with
  | nil => exact absurd hbs hi
  | cons b bs => exact levelAfter_dc_traceOf_sendCmds _ _ (b :: bs) _

/-! ## The state they leave -/

/-- A register-setting operation whose operand passes its check adds its trace and leaves DC low; the rest of the
sequencer stays (42 R167). -/
theorem exec_registerOperation (hl : s.seq.life = .ready) (hc : operandCheck i = none) :
    exec i s = .next
      { seq := { s.seq with dc := .driven .low }
        lcdc := lcdcAfter s.env.lcdcFresh s.seq.rst s.seq.dc s.lcdc (runtimeTrace s i)
        env := s.env.extended (runtimeTrace s i) (resultOf (runtimeTrace s i)) } := by
  obtain ⟨hs, hflush, hreset, -⟩ := scripted_of_registerBytes hi
  have hbase : scriptBase s i = s := if_neg hflush
  rw [exec_scripted hs hl hc, runOperation_base, hbase, levelAfter_dc_runtimeTrace hi, levelAfter_rst_runtimeTrace,
    if_neg hreset, busAfter_runtimeTrace]

/-- Every transfer answered `ok`: the controller receives the bytes in order. -/
theorem exec_registerOperation_of_ok (hl : s.seq.life = .ready) (hc : operandCheck i = none)
    (h : AnswersOk s (registerBytes i).length) :
    exec i s = .next (s.sent (registerBytes i) (s.lcdc.receiveAll (.driven .low) (registerBytes i))) := by
  obtain ⟨htrace, hok, -⟩ := runScript_of_ok (s := s) (scriptTrace_flatMap_sendCmd _ (registerBytes i))
    (by rwa [answersIn_flatMap_commandEvents])
  have hrst : ∀ v, Event.setPin .rst v ∉ (registerBytes i).flatMap commandEvents := by simp [commandEvents]
  rw [exec_registerOperation hi hl hc, runtimeTrace_eq_traceFor hi, htrace, resultOf_eq_ok_iff.2 hok,
    lcdcAfter_eq_received hok hrst, taggedStream_flatMap_commandEvents, inCommandSpace, List.foldl_map]
  rfl

/-- The first `fail` ends the operation, DC low and nothing known of the controller (60 R222, R225). -/
theorem exec_registerOperation_of_fail (hl : s.seq.life = .ready) (hc : operandCheck i = none) {j : Nat}
    (hj : j ≤ (registerBytes i).length) (h : FirstFail s j) :
    exec i s = .next (s.aborted (failAt j ((registerBytes i).flatMap commandEvents)) .low) := by
  have hj' : j ≤ answersIn ((registerBytes i).flatMap commandEvents) := by rwa [answersIn_flatMap_commandEvents]
  have htrace : runtimeTrace s i = failAt j ((registerBytes i).flatMap commandEvents) := by
    rw [runtimeTrace_eq_traceFor hi, runScript_of_fail (scriptTrace_flatMap_sendCmd _ _) h hj']
  have hfail : hasFailure (runtimeTrace s i) = true := by
    rw [htrace]
    exact (failAt_failure h.1 hj' (by simp [hasFailure, commandEvents, Event.answer?])).1
  rw [exec_registerOperation hi hl hc, lcdcAfter_runtimeTrace_of_failure hfail, resultOf, if_pos hfail, htrace]
  rfl

end

/-- A rejected operation adds its result and nothing else (60 R221). -/
theorem State.rejected_eq_report (s : State) : s.rejected = s.report .errValidation := by
  simp [State.rejected, State.report, Env.extended]

/-! ## What a known controller makes of the two bytes -/

theorem Lcdc.awaitParam_of_known {c : Lcdc} (h : c.lcdcKnown = true) :
    c.awaitParam = { c with evPending := .known true } := Lcdc.whenKnown_of_known h _

theorem Lcdc.colHi_of_known {c : Lcdc} (h : c.lcdcKnown = true) (n : BitVec 4) :
    c.colHi n = { c with caHi := .known n } := Lcdc.whenKnown_of_known h _

theorem Lcdc.colLo_of_known {c : Lcdc} (h : c.lcdcKnown = true) (n : BitVec 4) :
    c.colLo n = { c with caLo := .known n } := Lcdc.whenKnown_of_known h _

/-- ContrastModeSet and a volume of at most 63: the volume is set, and no parameter is awaited any more (43 R195,
R205). -/
theorem Lcdc.receiveAll_evSet_volume {c : Lcdc} (hk : c.lcdcKnown = true) (hp : c.evPending = .known false) {v : Byte}
    (hv : v ≤ 63) : c.receiveAll (.driven .low) [0x81, v] = { c with ev := .known (v.setWidth 6) } := by
  have hawait : c.receive (.driven .low) 0x81 = { c with evPending := .known true } := by
    rw [Lcdc.receive_command hp (i := .evSet) (by decide)]
    exact Lcdc.awaitParam_of_known hk
  have htop : v.extractLsb' 6 2 = 0 := by
    revert v
    decide
  rw [Lcdc.receiveAll_cons, hawait, Lcdc.receiveAll_cons, Lcdc.receive_parameter rfl,
    Lcdc.takeParam_of_known (c := { c with evPending := .known true }) hk, if_pos htop,
    ← lowField_eq_extractLsb', ← hp]
  rfl

/-- ColumnHigh and ColumnLow: both halves of the column address are set (43 R197, R198). -/
theorem Lcdc.receiveAll_columnBytes {c : Lcdc} (hk : c.lcdcKnown = true) (hp : c.evPending = .known false) (a : Byte) :
    c.receiveAll (.driven .low) [colHiByte a, colLoByte a] =
      { c with caHi := .known (a.extractLsb' 4 4), caLo := .known (a.extractLsb' 0 4) } := by
  have hhi : decodeCommand (colHiByte a) = .ok (.colHi (a.extractLsb' 4 4)) := by
    revert a
    decide
  have hlo : decodeCommand (colLoByte a) = .ok (.colLo (a.extractLsb' 0 4)) := by
    revert a
    decide
  have hfirst : c.receive (.driven .low) (colHiByte a) = { c with caHi := .known (a.extractLsb' 4 4) } := by
    rw [Lcdc.receive_command hp hhi]
    exact Lcdc.colHi_of_known hk _
  rw [Lcdc.receiveAll_cons, hfirst, Lcdc.receiveAll_cons,
    Lcdc.receive_command (c := { c with caHi := .known (a.extractLsb' 4 4) }) hp hlo]
  exact Lcdc.colLo_of_known (c := { c with caHi := .known (a.extractLsb' 4 4) }) hk _

/-- The column bytes in numbers. -/
theorem colHiByte_eq (a : Byte) : colHiByte a = 0x10 + a / 16 := by
  revert a
  decide

theorem colLoByte_eq (a : Byte) : colLoByte a = a % 16 := by
  revert a
  decide

end Sys2Proof.Machine
end

section
/-!
SUPPORT. The statements on 42_register_ops, settled.
-/

namespace Sys2Proof.Machine

/-- Settles O41: both operations are register-setting operations of two bytes. -/
theorem volumeAndColumnSendTwoBytes : Obligations.VolumeAndColumnSendTwoBytes := by
  unfold Obligations.VolumeAndColumnSendTwoBytes
  intro s arg hl
  have hvol : arg ≤ 63 → operandCheck (.setContrastDetail arg) = none := fun h => if_neg (BitVec.not_lt.2 h)
  have hvolBytes : registerBytes (.setContrastDetail arg) ≠ [] := nofun
  have hcolBytes : registerBytes (.setColumnAddress arg) ≠ [] := nofun
  rw [← colHiByte_eq, ← colLoByte_eq]
  refine ⟨fun h => ?_, fun hok hk hp => ⟨fun h => ?_, ?_⟩,
    fun j hj hf => ⟨fun h => ⟨Lcdc.allUnknown, ?_⟩, Lcdc.allUnknown, ?_⟩⟩
  · rw [State.rejected_eq_report]
    exact exec_rejected hl (cause := .volume) (if_pos h)
  · rw [← Lcdc.receiveAll_evSet_volume hk hp h]
    exact exec_registerOperation_of_ok hvolBytes hl (hvol h) hok
  · rw [← Lcdc.receiveAll_columnBytes hk hp]
    exact exec_registerOperation_of_ok hcolBytes hl rfl hok
  · exact exec_registerOperation_of_fail hvolBytes hl (hvol h) hj hf
  · exact exec_registerOperation_of_fail hcolBytes hl rfl hj hf

end Sys2Proof.Machine
end

section
/-!
SUPPORT. FLUSH and DRAW with every transfer answered `ok` (41 R142, R143), and what is sent to an unknown controller (43
R180).
-/

namespace Sys2Proof.Machine

/-! ## The draw body, every transfer answered `ok` -/

/-- A draw does not drive the reset pin. -/
theorem setPin_rst_not_mem_drawTrace (rows : Nat → List Byte) (v : Level) :
    Event.setPin .rst v ∉ drawTrace rows := by
  simp [drawTrace, pageTrace, commandEvents, dataEvents]

/-- The state after a draw of these six rows, every transfer answered `ok`: DC is left high, and the controller has
received the bytes sent, in order (41 R143). -/
def State.drawn (s : State) (rows : Nat → List Byte) : State where
  seq := { s.seq with dc := .driven .high }
  lcdc := (taggedStream s.seq.dc (drawTrace rows)).foldl (fun c tb => c.receive tb.1 tb.2) s.lcdc
  env := s.env.extended (drawTrace rows) .ok

theorem runOperation_drawScript_of_ok {s : State} (h : AnswersOk s 24) :
    runOperation s (drawScript s) = s.drawn s.fbPage := by
  obtain ⟨htrace, hok, -⟩ := runScript_of_ok (s := s) (scriptTrace_drawScript _ s) (by rwa [answersIn_drawTrace])
  obtain ⟨hdc, hrst, hbus⟩ := latchesAfter_drawTrace s.seq.dc s.seq.rst s.seq.bus s.fbPage
  have hpins : Action.pinsAreOutputs ∉ drawScript s := pinsAreOutputs_not_mem_runtimeScript s .draw
  rw [runOperation_eq s _ hpins, htrace, resultOf_eq_ok_iff.2 hok, State.after, hdc, hrst, hbus,
    lcdcAfter_eq_received hok (setPin_rst_not_mem_drawTrace _)]
  simp only [State.report, State.drawn, Env.extended]

@[simp] theorem State.fbByte_drawn (s : State) (rows : Nat → List Byte) (a : Nat) :
    (s.drawn rows).fbByte a = s.fbByte a := State.fbByte_congr rfl rfl a

theorem State.drawn_congr (s : State) {rows rows' : Nat → List Byte} (h : ∀ p ≤ 5, rows p = rows' p) :
    s.drawn rows = s.drawn rows' := by
  simp only [State.drawn, drawTrace_congr h]

theorem exec_draw_of_ok {s : State} (hl : s.seq.life = .ready) (h : AnswersOk s 24) :
    exec .draw s = .next (s.drawn s.fbPage) := by
  rw [← runOperation_drawScript_of_ok h]
  exact exec_scripted (i := .draw) rfl hl rfl

/-- FLUSH draws the framebuffer it has zeroed. -/
theorem exec_flush_of_ok {s : State} (hl : s.seq.life = .ready) (h : AnswersOk s 24) :
    exec .flush s = .next (s.fbClear.drawn fun _ => List.replicate 128 0) := by
  rw [← State.drawn_congr _ fun p hp => State.fbPage_fbClear s hp,
    ← runOperation_drawScript_of_ok (answersOk_fbClear.2 h)]
  exact exec_scripted (i := .flush) rfl hl rfl

/-! ## An unknown controller -/

/-- A draw to an unknown controller leaves it as it was. -/
theorem State.drawn_lcdc_of_unknown {s : State} (hk : s.lcdc.lcdcKnown = false) (rows : Nat → List Byte) :
    (s.drawn rows).lcdc = s.lcdc :=
  List.foldl_fixed' (fun tb => Lcdc.receive_of_unknown hk tb.1 tb.2) _

/-- The register-setting operations send their bytes to an unknown controller as well, and it stays as it was. -/
theorem exec_registerOperation_of_unknown {i : Instr} {s : State} {bs : List Byte} (hb : registerBytes i = bs)
    (hne : bs ≠ []) (hl : s.seq.life = .ready) (hk : s.lcdc.lcdcKnown = false) (hc : operandCheck i = none)
    (h : AnswersOk s bs.length) : exec i s = .next (s.sent bs s.lcdc) := by
  subst hb
  rw [exec_registerOperation_of_ok hne hl hc h, Lcdc.receiveAll_of_unknown hk]

/-! ## The one-byte operations' bytes in numbers -/

theorem displayModeByte_eq (m : DisplayMode) : displayModeByte m = if m = .on then 0xAF else 0xAE := by cases m <;> rfl
theorem displayColorByte_eq (c : DisplayColor) : displayColorByte c = if c = .inverted then 0xA7 else 0xA6 := by
  cases c <;> rfl
theorem sleepModeByte_eq (z : SleepMode) : sleepModeByte z = if z = .enabled then 0xAB else 0xAC := by cases z <;> rfl

theorem ratioByte_eq {a : Byte} (h : a ≤ 7) : ratioByte a = 0x20 + a := by
  revert a
  decide

theorem pageByte_eq {a : Byte} (h : a ≤ 15) : pageByte a = 0xB0 + a := by
  revert a
  decide

end Sys2Proof.Machine
end

section
/-!
SUPPORT. The statements on 43_controller_commands, settled.
-/

namespace Sys2Proof.Machine

/-- Settles O37: FLUSH is the zeroing, then a draw of zeros. -/
theorem flushClearsAndSends : Obligations.FlushClearsAndSends := by
  unfold Obligations.FlushClearsAndSends
  intro s hl hok
  refine ⟨⟨_, exec_flush_of_ok hl hok, fun a ha => ?_, ?_, ?_, fun hk => ?_⟩,
    fun hk => ⟨_, exec_draw_of_ok hl hok, State.drawn_lcdc_of_unknown hk _⟩⟩
  · rw [State.fbByte_drawn, State.fbByte_fbClear s ha]
  · rw [State.drawn, State.fbClear_seq]
  · rw [State.drawn, State.fbClear_env]
  · rw [State.drawn_lcdc_of_unknown (by rwa [State.fbClear_lcdc]), State.fbClear_lcdc]

/-- Settles O27: a byte reaches the shadow alone, and leaves an unknown one as it was. -/
theorem unknownControllerIgnoresBytes : Obligations.UnknownControllerIgnoresBytes := by
  unfold Obligations.UnknownControllerIgnoresBytes
  refine ⟨fun i s hi hk => ?_, fun s m b rest hk hinbox => ?_⟩
  · rw [exec_byte hi, Lcdc.apply_of_unknown hk]
    rfl
  · rw [step_of_pending hinbox, stepInput, stepByte_eq, State.withInbox_lcdc, Lcdc.receive_of_unknown hk]
    rfl

/-- Settles O42: each is a register-setting operation whose operand passes its check. -/
theorem registerOperationsKeepUnknownController : Obligations.RegisterOperationsKeepUnknownController := by
  unfold Obligations.RegisterOperationsKeepUnknownController
  intro s arg m c z hl hk
  rw [← displayModeByte_eq, ← displayColorByte_eq, ← sleepModeByte_eq, ← colHiByte_eq, ← colLoByte_eq]
  refine ⟨fun hok => ⟨?_, ?_, ?_, fun h => ?_, fun h => ?_⟩, fun hok => ⟨fun h => ?_, ?_⟩⟩
  · exact exec_registerOperation_of_unknown rfl nofun hl hk rfl hok
  · exact exec_registerOperation_of_unknown rfl nofun hl hk rfl hok
  · exact exec_registerOperation_of_unknown rfl nofun hl hk rfl hok
  · rw [← ratioByte_eq h]
    exact exec_registerOperation_of_unknown rfl nofun hl hk (if_neg (BitVec.not_lt.2 h)) hok
  · rw [← pageByte_eq h]
    exact exec_registerOperation_of_unknown rfl nofun hl hk (if_neg (BitVec.not_lt.2 h)) hok
  · exact exec_registerOperation_of_unknown rfl nofun hl hk (if_neg (BitVec.not_lt.2 h)) hok
  · exact exec_registerOperation_of_unknown rfl nofun hl hk rfl hok

end Sys2Proof.Machine
end

section
/-!
SUPPORT. Which result an instruction can return (60_exceptions R220 to R223), and the statements on 60_exceptions,
settled.
-/

namespace Sys2Proof.Machine

/-! ## The result of an instruction -/

/-- The results an instruction can return: OK; a validation error if its operand fails its check (60 R221); a transport
error if it runs a script (R222); a construction error if it is CONSTRUCT (R223). -/
def MayReturn (i : Instr) : Result → Prop
  | .ok => True
  | .errValidation => ∃ cause, operandCheck i = some cause
  | .errTransport => isScripted i = true
  | .errConstruction => i = .construct

/-- A byte on the bus returns nothing; a host operation returns one result, of those it may return. -/
theorem exec_results {i : Instr} {s t : State} (h : exec i s = .next t) :
    (i.isHostOperation = false ∧ t.env.results = s.env.results) ∨
    ∃ r, t.env.results = s.env.results ++ [r] ∧ MayReturn i r := by
  rcases exec_cases h with ⟨hb, rfl⟩ | ⟨hi, _, _, rfl⟩ | ⟨_, _, rfl⟩ | ⟨_, hc, rfl⟩ | ⟨_, _, _, _, rfl⟩ | ⟨_, hs, _, rfl⟩
  · exact .inl ⟨hb, rfl⟩
  · rw [constructEnd_parts]
    refine .inr ⟨_, rfl, ?_⟩
    split
    · exact hi
    · trivial
  · rw [releaseEnd_eq]
    exact .inr ⟨.ok, rfl, trivial⟩
  · exact .inr ⟨.errValidation, rfl, hc⟩
  · exact .inr ⟨.ok, rfl, trivial⟩
  · rw [runOperation_base]
    refine .inr ⟨_, rfl, ?_⟩
    unfold resultOf
    split
    · exact hs
    · trivial

/-- The result an instruction has returned is one of those it may return. -/
theorem mayReturn_of_exec {i : Instr} {s t : State} {r : Result} (h : exec i s = .next t)
    (hr : t.env.results = s.env.results ++ [r]) : MayReturn i r := by
  rcases exec_results h with ⟨_, hsame⟩ | ⟨r', hr', hmay⟩
  · simp [hsame] at hr
  · obtain rfl : r' = r := by simpa [hr'] using hr
    exact hmay

/-- CONSTRUCT and the operations that run a script are different ones, so an instruction has one result for all its
failed transfers. -/
theorem MayReturn.failure_unique {i : Instr} {r₁ r₂ : Result} (h₁ : MayReturn i r₁)
    (h₂ : MayReturn i r₂) (hok₁ : r₁ ≠ .ok) (hval₁ : r₁ ≠ .errValidation) (hok₂ : r₂ ≠ .ok)
    (hval₂ : r₂ ≠ .errValidation) : r₁ = r₂ := by
  have hne : ∀ {i}, isScripted i = true → i ≠ .construct := by
    rintro _ hs rfl
    cases hs
  match r₁, r₂ with
  | .errTransport, .errTransport | .errConstruction, .errConstruction => rfl
  | .errTransport, .errConstruction => exact absurd h₂ (hne h₁)
  | .errConstruction, .errTransport => exact absurd h₁ (hne h₂)
  | .ok, _ => exact absurd rfl hok₁
  | .errValidation, _ => exact absurd rfl hval₁
  | _, .ok => exact absurd rfl hok₂
  | _, .errValidation => exact absurd rfl hval₂

/-! ## The operands that fail their check -/

/-- The four ways to fail a check, in numbers (60 R221). -/
theorem exists_operandCheck_eq_some_iff {i : Instr} :
    (∃ cause, operandCheck i = some cause) ↔
      (∃ payload, i = .setPixelData payload ∧ payload.length ≠ 768) ∨ (∃ arg, i = .setContrast arg ∧ 7 < arg) ∨
      (∃ arg, i = .setContrastDetail arg ∧ 63 < arg) ∨ (∃ arg, i = .setPageAddress arg ∧ 15 < arg) := by
  cases i
  case setPixelData => simp [operandCheck, lengthCheck]
  case setContrast => simp [operandCheck, ratioCheck]
  case setContrastDetail => simp [operandCheck, volumeCheck]
  case setPageAddress => simp [operandCheck, pageCheck]
  all_goals simp [operandCheck]

theorem exec_eq_rejected {i : Instr} {s : State} (hl : s.seq.life = .ready)
    (hc : ∃ cause, operandCheck i = some cause) : exec i s = .next s.rejected := by
  obtain ⟨cause, hc⟩ := hc
  rw [State.rejected_eq_report]
  exact exec_rejected hl hc

/-! ## The statements -/

/-- Settles O43: an operation returns a validation error exactly if its operand fails its check. -/
theorem validationErrorsLeaveNoTrace : Obligations.ValidationErrorsLeaveNoTrace := by
  unfold Obligations.ValidationErrorsLeaveNoTrace
  refine ⟨fun s arg payload hl => ⟨fun hbad => ?_, fun hbad => ?_, fun hbad => ?_, fun hbad => ?_⟩,
    State.rejected_eq_report, fun i s t h hr => exists_operandCheck_eq_some_iff.1 (mayReturn_of_exec h hr)⟩
  all_goals apply exec_eq_rejected hl
  · exact exists_operandCheck_eq_some_iff.2 (.inl ⟨payload, rfl, hbad⟩)
  · exact exists_operandCheck_eq_some_iff.2 (.inr (.inl ⟨arg, rfl, hbad⟩))
  · exact exists_operandCheck_eq_some_iff.2 (.inr (.inr (.inl ⟨arg, rfl, hbad⟩)))
  · exact exists_operandCheck_eq_some_iff.2 (.inr (.inr (.inr ⟨arg, rfl, hbad⟩)))

/-- Settles O56: a host operation returns one result, and has one for all its failed transfers. -/
theorem hostGetsOneResultCode : Obligations.HostGetsOneResultCode := by
  unfold Obligations.HostGetsOneResultCode
  refine ⟨fun i s t hi h => ?_, fun i s₁ s₂ t₁ t₂ r₁ r₂ _ h₁ hr₁ hok₁ hval₁ h₂ hr₂ hok₂ hval₂ => ?_⟩
  · rcases exec_results h with ⟨hb, _⟩ | ⟨r, hr, _⟩
    · exact absurd hi (by simp [hb])
    · exact ⟨r, hr⟩
  · exact (mayReturn_of_exec h₁ hr₁).failure_unique (mayReturn_of_exec h₂ hr₂) hok₁ hval₁ hok₂ hval₂

end Sys2Proof.Machine
end

section
/-!
SUPPORT. The encoder and the decoder are inverse to each other (30_encoding R91, R95, R97), and which words are neither
(R95, R98).
-/

namespace Sys2Proof.Machine

/-! ## Command bytes -/

/-- The fields of the commands that have one come back from their low bits. -/
theorem decodeCommand_colLo (n : BitVec 4) : decodeCommand (withField Opcode.colLo n) = .ok (.colLo n) := by
  revert n
  decide

theorem decodeCommand_colHi (n : BitVec 4) : decodeCommand (withField Opcode.colHi n) = .ok (.colHi n) := by
  revert n
  decide

theorem decodeCommand_ratio (r : BitVec 3) : decodeCommand (withField Opcode.ratio r) = .ok (.ratio r) := by
  revert r
  decide

theorem decodeCommand_startLine (l : BitVec 6) : decodeCommand (withField Opcode.startLine l) = .ok (.startLine l) := by
  revert l
  decide

theorem decodeCommand_page (n : BitVec 4) : decodeCommand (withField Opcode.page n) = .ok (.page n) := by
  revert n
  decide

/-- A byte of the command map is the encoding of what it decodes to. -/
theorem encode_of_decodeCommand {b : Byte} {i : Instr} (h : decodeCommand b = .ok i) : encode i = .byte .command b := by
  have key : ∀ b : Byte, (decodeCommand b).toOption.map encode = (decodeCommand b).toOption.map fun _ => .byte .command b := by
    decide
  simpa [h, Except.toOption] using key b

/-! ## Request words -/

/-- A request word is its three fields side by side. -/
theorem requestWord_eq (op : BitVec 4) (arg : Byte) : requestWord op arg = op ++ 0#4 ++ arg := by
  apply BitVec.eq_of_getLsbD_eq
  intro j hj
  rw [reqWord_getLsbD]
  simp only [requestWord, BitVec.getLsbD_or, BitVec.getLsbD_shiftLeft, BitVec.getLsbD_setWidth]
  grind

theorem reqWord_fields (w : ReqWord) : ∃ (op mid : BitVec 4) (arg : Byte), w = op ++ mid ++ arg := by
  refine ⟨w.extractLsb' 12 4, w.extractLsb' 8 4, w.extractLsb' 0 8, ?_⟩
  apply BitVec.eq_of_getLsbD_eq
  intro j hj
  rw [reqWord_getLsbD]
  simp only [BitVec.getLsbD_extractLsb']
  grind

/-- The operand bits that must be zero under each operation code; none for the three reserved codes (30_encoding R97). -/
def operandMask (op : BitVec 4) : Option Byte :=
  if op ≤ 4 ∨ op = 0xC then some 0xFF
  else if op = 5 ∨ op = 6 ∨ op = 9 then some 0xFE
  else if op ≤ 0xB then some 0x00
  else none

/-- The request map has a row for each operation code with a mask. -/
theorem exists_requestRow {op : BitVec 4} {m : Byte} (h : operandMask op = some m) :
    ∃ r ∈ requestRows, r.pat = op ++ 0#4 ++ 0#8 ∧ r.mask = 0xF#4 ++ 0xF#4 ++ m := by
  have key : ∀ op : BitVec 4, ∀ m ∈ operandMask op,
      requestRows.any (fun r => r.pat = op ++ 0#4 ++ 0#8 ∧ r.mask = 0xF#4 ++ 0xF#4 ++ m) = true := by decide
  simpa using key op m h

/-- A word with bits 11..8 zero and the operand inside its mask decodes. -/
theorem decodeRequest_of_operandMask {op : BitVec 4} {m arg : Byte} (hm : operandMask op = some m) (ha : arg &&& m = 0)
    (payload : List Byte) : ∃ i, decodeRequest (op ++ 0#4 ++ arg) payload = .ok i := by
  obtain ⟨r, hr, hpat, hmask⟩ := exists_requestRow hm
  have hmatch : ((op ++ 0#4 ++ arg : ReqWord) &&& r.mask == r.pat) = true := by
    rw [hpat, hmask, requestRow_matches]
    exact decide_eq_true ⟨rfl, rfl, ha⟩
  have hfind : (requestRows.find? fun r => (op ++ 0#4 ++ arg : ReqWord) &&& r.mask == r.pat).isSome = true :=
    List.find?_isSome.2 ⟨r, hr, hmatch⟩
  obtain ⟨r', hr'⟩ := Option.isSome_iff_exists.1 hfind
  exact ⟨r'.build (op ++ 0#4 ++ arg) payload, by simp only [decodeRequest, hr']⟩

/-- The operation codes by their masks. -/
theorem operandMask_cases (op : BitVec 4) :
    (operandMask op = some 0xFF ∧ (op ≤ 4 ∨ op = 0xC) ∧ ¬ (op = 5 ∨ op = 6 ∨ op = 9) ∧ ¬ 0xD ≤ op) ∨
    (operandMask op = some 0xFE ∧ ¬ (op ≤ 4 ∨ op = 0xC) ∧ (op = 5 ∨ op = 6 ∨ op = 9) ∧ ¬ 0xD ≤ op) ∨
    (operandMask op = some 0x00 ∧ ¬ (op ≤ 4 ∨ op = 0xC) ∧ ¬ (op = 5 ∨ op = 6 ∨ op = 9) ∧ ¬ 0xD ≤ op) ∨
    (operandMask op = none ∧ 0xD ≤ op) := by
  revert op
  decide

/-- The operand lies inside its mask exactly if the word is in none of the ranges of 30_encoding R98. -/
theorem operandMask_iff (op : BitVec 4) (arg : Byte) :
    (∃ m, operandMask op = some m ∧ arg &&& m = 0) ↔
      ¬ (0xD ≤ op ∨ ((op ≤ 4 ∨ op = 0xC) ∧ arg ≠ 0) ∨ ((op = 5 ∨ op = 6 ∨ op = 9) ∧ 1 < arg)) := by
  have hff : arg &&& 0xFF = 0 ↔ ¬ arg ≠ 0 := by revert arg; decide
  have hfe : arg &&& 0xFE = 0 ↔ ¬ 1 < arg := by revert arg; decide
  have h00 : arg &&& 0x00 = 0 := by revert arg; decide
  rcases operandMask_cases op with ⟨hm, h1, h2, h3⟩ | ⟨hm, h1, h2, h3⟩ | ⟨hm, h1, h2, h3⟩ | ⟨hm, h1⟩
  · simp only [hm, h1, h2, h3, hff, Option.some.injEq, exists_eq_left', true_and, false_and, false_or, or_false]
  · simp only [hm, h1, h2, h3, hfe, Option.some.injEq, exists_eq_left', true_and, false_and, false_or]
  · simp only [hm, h1, h2, h3, h00, Option.some.injEq, exists_eq_left', false_and, or_false, not_false_eq_true]
  · simp only [hm, h1, reduceCtorEq, false_and, exists_false, true_or, not_true]

/-- A word inside its mask is an instruction if nothing else can be read from it. -/
theorem decodeRequest_eq_ok {op : BitVec 4} {arg m : Byte} {payload : List Byte} {i : Instr}
    (hm : operandMask op = some m) (ha : arg &&& m = 0)
    (h : ∀ j, decodeRequest (op ++ 0#4 ++ arg) payload = .ok j → j = i) :
    decodeRequest (op ++ 0#4 ++ arg) payload = .ok i := by
  obtain ⟨j, hj⟩ := decodeRequest_of_operandMask hm ha payload
  rw [hj, h j hj]

/-- A word that decodes is in none of the ranges of 30_encoding R98. -/
theorem not_malformed_of_decodeRequest {op mid : BitVec 4} {arg : Byte} {payload : List Byte} {i : Instr}
    (h : decodeRequest (op ++ mid ++ arg) payload = .ok i) :
    ¬ (0xD ≤ op ∨ mid ≠ 0 ∨ ((op ≤ 4 ∨ op = 0xC) ∧ arg ≠ 0) ∨ ((op = 5 ∨ op = 6 ∨ op = 9) ∧ 1 < arg)) := by
  obtain ⟨rfl, hcases⟩ := decodeRequest_cases h
  have hmask : ∃ m, operandMask op = some m ∧ arg &&& m = 0 := by
    rcases hcases with ⟨rfl, rfl, _⟩ | ⟨rfl, rfl, _⟩ | ⟨rfl, rfl, _⟩ | ⟨rfl, rfl, _⟩ | ⟨rfl, rfl, _⟩ |
      ⟨rfl, ha, _⟩ | ⟨rfl, ha, _⟩ | ⟨rfl, _⟩ | ⟨rfl, _⟩ | ⟨rfl, ha, _⟩ | ⟨rfl, _⟩ | ⟨rfl, _⟩ | ⟨rfl, rfl, _⟩
    · exact ⟨0xFF, rfl, rfl⟩
    · exact ⟨0xFF, rfl, rfl⟩
    · exact ⟨0xFF, rfl, rfl⟩
    · exact ⟨0xFF, rfl, rfl⟩
    · exact ⟨0xFF, rfl, rfl⟩
    · exact ⟨0xFE, rfl, ha⟩
    · exact ⟨0xFE, rfl, ha⟩
    · exact ⟨0x00, rfl, BitVec.and_zero⟩
    · exact ⟨0x00, rfl, BitVec.and_zero⟩
    · exact ⟨0xFE, rfl, ha⟩
    · exact ⟨0x00, rfl, BitVec.and_zero⟩
    · exact ⟨0x00, rfl, BitVec.and_zero⟩
    · exact ⟨0xFF, rfl, rfl⟩
  simpa only [ne_eq, not_true_eq_false, false_or] using (operandMask_iff op arg).1 hmask

/-- The four operations with an 8-bit operand. -/
theorem decodeRequest_byteOperand (arg : Byte) :
    decodeRequest (requestWord 0x7 arg) [] = .ok (.setContrast arg) ∧
    decodeRequest (requestWord 0x8 arg) [] = .ok (.setContrastDetail arg) ∧
    decodeRequest (requestWord 0xA arg) [] = .ok (.setPageAddress arg) ∧
    decodeRequest (requestWord 0xB arg) [] = .ok (.setColumnAddress arg) := by
  have hzero : arg &&& 0 = 0 := BitVec.and_zero
  simp only [requestWord_eq]
  refine ⟨?_, ?_, ?_, ?_⟩ <;> refine decodeRequest_eq_ok (m := 0) (by decide) hzero fun j hj => ?_ <;>
    simpa using decodeRequest_cases hj

/-- The two-valued operands are bit 0 of the word (92 D3). -/
theorem twoValuedOperand_bit {op mid : BitVec 4} {arg : Byte} (h : arg &&& 0xFE = 0) :
    (displayModeOf (op ++ mid ++ arg)).bit = arg ∧ (displayColorOf (op ++ mid ++ arg)).bit = arg ∧
      (sleepModeOf (op ++ mid ++ arg)).bit = arg := by
  have hbit : (op ++ mid ++ arg : ReqWord).getLsbD 0 = arg.getLsbD 0 := by rw [reqWord_getLsbD, if_pos (by omega)]
  simp only [displayModeOf, displayColorOf, sleepModeOf, hbit]
  clear hbit
  revert arg
  decide

/-- A request word is the encoding of what it decodes to, the payload counting for SET_PIXEL_DATA alone. -/
theorem encode_of_decodeRequest {w : ReqWord} {payload : List Byte} {i : Instr} (h : decodeRequest w payload = .ok i) :
    encode i = .request w (if w = 0x2000 then payload else []) := by
  obtain ⟨op, mid, arg, rfl⟩ := reqWord_fields w
  have hpixel : (op ++ mid ++ arg : ReqWord) = 0x2000 ↔ op = 2 ∧ mid = 0 ∧ arg = 0 := reqWord_inj op mid 2 0 arg 0
  simp only [hpixel]
  obtain ⟨rfl, hcases⟩ := decodeRequest_cases h
  rcases hcases with ⟨rfl, rfl, rfl⟩ | ⟨rfl, rfl, rfl⟩ | ⟨rfl, rfl, rfl⟩ | ⟨rfl, rfl, rfl⟩ | ⟨rfl, rfl, rfl⟩ |
    ⟨rfl, ha, rfl⟩ | ⟨rfl, ha, rfl⟩ | ⟨rfl, rfl⟩ | ⟨rfl, rfl⟩ | ⟨rfl, ha, rfl⟩ | ⟨rfl, rfl⟩ | ⟨rfl, rfl⟩ |
    ⟨rfl, rfl, rfl⟩
  · simp [encode, requestWord_eq]
  · simp [encode, requestWord_eq]
  · simp [encode, requestWord_eq]
  · simp [encode, requestWord_eq]
  · simp [encode, requestWord_eq]
  · rw [encode, requestWord_eq, (twoValuedOperand_bit ha).1]
    rfl
  · rw [encode, requestWord_eq, (twoValuedOperand_bit ha).2.1]
    rfl
  · simp [encode, requestWord_eq]
  · simp [encode, requestWord_eq]
  · rw [encode, requestWord_eq, (twoValuedOperand_bit ha).2.2]
    rfl
  · simp [encode, requestWord_eq]
  · simp [encode, requestWord_eq]
  · simp [encode, requestWord_eq]

/-! ## The statements on 30_encoding -/

/-- Settles O8: the fields of a command by its format, the operand of a request by the request map. -/
theorem decodeOfEncode : Obligations.DecodeOfEncode := by
  unfold Obligations.DecodeOfEncode
  rintro i -
  cases i
  case colLo n => exact decodeCommand_colLo n
  case colHi n => exact decodeCommand_colHi n
  case ratio r => exact decodeCommand_ratio r
  case startLine l => exact decodeCommand_startLine l
  case page n => exact decodeCommand_page n
  case setContrast arg => exact (decodeRequest_byteOperand arg).1
  case setContrastDetail arg => exact (decodeRequest_byteOperand arg).2.1
  case setPageAddress arg => exact (decodeRequest_byteOperand arg).2.2.1
  case setColumnAddress arg => exact (decodeRequest_byteOperand arg).2.2.2
  case setDisplayMode sel => cases sel <;> rfl
  case setDisplayColor sel => cases sel <;> rfl
  case setSleepMode sel => cases sel <;> rfl
  all_goals rfl

/-- Settles O9, by the command map and the request map. -/
theorem encodeOfDecode : Obligations.EncodeOfDecode := by
  unfold Obligations.EncodeOfDecode
  refine ⟨fun ctx b i h => ?_, fun w payload i h => encode_of_decodeRequest h⟩
  cases ctx with
  | command => exact encode_of_decodeCommand h
  | parameter => cases h; rfl
  | data => cases h; rfl

/-- Settles O12: a word decodes exactly if bits 11..8 are zero and its operand lies inside the mask of its operation. -/
theorem malformedRequestsAreRefused : Obligations.MalformedRequestsAreRefused := by
  unfold Obligations.MalformedRequestsAreRefused
  intro op mid arg payload rest s w malformed
  refine ⟨fun hbad hinbox => ?_, fun hgood => ?_⟩
  · rw [step_of_pending hinbox, stepInput, stepRequest]
    cases hd : decodeRequest w payload with
    | error _ => rfl
    | ok i => exact absurd hbad (not_malformed_of_decodeRequest hd)
  · simp only [malformed, or_left_comm (b := mid ≠ 0), not_or, not_not] at hgood
    obtain ⟨hmid, hrest⟩ := hgood
    obtain ⟨m, hm, ha⟩ := (operandMask_iff op arg).2 (by simpa only [not_or] using hrest)
    subst hmid
    exact decodeRequest_of_operandMask hm ha payload

/-- Settles O10. -/
theorem handEncodedWordsDecode : Obligations.HandEncodedWordsDecode := by
  unfold Obligations.HandEncodedWordsDecode
  decide

/-- Settles O11. -/
theorem reservedCommandBytesAreTheMaps : Obligations.ReservedCommandBytesAreTheMaps := by
  unfold Obligations.ReservedCommandBytesAreTheMaps
  exact ⟨by decide, by decide +kernel⟩

end Sys2Proof.Machine
end

section
/-!
SUPPORT. What each byte does to a known controller, and what it leaves alone (43 R180 to R206).
-/

namespace Sys2Proof.Machine

/-! ## A byte handed to the controller -/

/-- A pending byte is received at its DC level, and nothing but the shadow and the inbox changes. -/
theorem step_busByte {s : State} {m : Level} {b : Byte} {rest : List Input} (h : s.env.inbox = .busByte m b :: rest) :
    step s = .next ((s.withInbox rest).setLcdc (s.lcdc.receive (.driven m) b)) := by
  rw [step_of_pending h, stepInput, stepByte_eq, State.withInbox_lcdc]

/-- A command whose effect runs while the shadow is known does what its effect says. -/
theorem commandDoes_of_whenKnown {b : Byte} {i : Instr} {effect : Lcdc → Lcdc} (hd : decodeCommand b = .ok i)
    (ha : ∀ c : Lcdc, c.apply i = c.whenKnown effect) : CommandDoes b i effect := by
  refine ⟨hd, fun s hk hp => ?_⟩
  have heffect : s.lcdc.apply i = effect s.lcdc := by rw [ha, Lcdc.whenKnown_of_known hk]
  refine ⟨?_, fun rest h => ?_⟩
  · rw [exec_byte (isHostOperation_of_decodeCommand hd), heffect]
    rfl
  · rw [step_busByte h, Lcdc.receive_command hp hd, heffect]
    rfl

/-- A reserved byte with DC low and no parameter awaited is an undefined one (43 R209). -/
theorem Lcdc.receive_reserved {c : Lcdc} (hp : c.evPending = .known false) {b : Byte} {e : DecodeError}
    (hd : decodeCommand b = .error e) : c.receive (.driven .low) b = c.undefinedByte := by
  simp [Lcdc.receive, Lcdc.decodeFor, contextOf, hp, decodeByte, hd]

/-! ## Data bytes -/

/-- A write inside the window changes one cell of the display RAM, and the column address. -/
theorem Lcdc.writeCell_eq_update (c : Lcdc) (p : BitVec 4) (a b : Byte) :
    ∃ hi lo, c.writeCell p a b =
      { c with ddram := c.ddram.put (linear p.toNat a.toNat) b, caHi := hi, caLo := lo } := by
  unfold Lcdc.writeCell
  dsimp only
  split <;> exact ⟨_, _, rfl⟩

/-- A data byte while no parameter is awaited is one of three (43 R206). -/
theorem Lcdc.dataWrite_cases {c : Lcdc} (hp : c.evPending = .known false) (b : Byte) :
    c.dataWrite b = c ∨ (∃ p a, c.dataWrite b = c.writeCell p a b) ∨ c.dataWrite b = c.writeOutside := by
  cases hk : c.lcdcKnown with
  | false => exact .inl (Lcdc.whenKnown_of_unknown hk _)
  | true =>
    rw [Lcdc.dataWrite, Lcdc.whenKnown_of_known hk]
    simp only [hp]
    split
    · split
      · exact .inr (.inl ⟨_, _, rfl⟩)
      · exact .inr (.inr rfl)
    · exact .inr (.inr rfl)

/-- It changes the display RAM and the column address at most. -/
theorem Lcdc.dataWrite_eq_update {c : Lcdc} (hp : c.evPending = .known false) (b : Byte) :
    ∃ m hi lo, c.dataWrite b = { c with ddram := m, caHi := hi, caLo := lo } := by
  rcases Lcdc.dataWrite_cases hp b with h | ⟨p, a, h⟩ | h
  · exact ⟨_, _, _, h⟩
  · obtain ⟨hi, lo, hw⟩ := c.writeCell_eq_update p a b
    exact ⟨_, hi, lo, h.trans hw⟩
  · exact ⟨_, _, _, h⟩

/-- A data byte at an address outside the window or not known (43 R206). -/
theorem Lcdc.dataWrite_outside {c : Lcdc} (hk : c.lcdcKnown = true) (hp : c.evPending = .known false)
    (h : c.pa = .unknown ∨ c.ca = .unknown ∨ (∃ p, c.pa = .known p ∧ 5 < p) ∨ (∃ a, c.ca = .known a ∧ 127 < a))
    (b : Byte) : c.dataWrite b = c.writeOutside := by
  rw [Lcdc.dataWrite, Lcdc.whenKnown_of_known hk, hp]
  dsimp only
  split
  · rename_i p a hpa hca
    refine if_neg fun hin => ?_
    obtain ⟨hp5, ha127⟩ := inWindow_iff.1 hin
    rcases h with h | h | ⟨p', h, hlt⟩ | ⟨a', h, hlt⟩
    · rw [hpa] at h; cases h
    · rw [hca] at h; cases h
    · rw [hpa] at h; cases h
      exact BitVec.not_lt.2 hp5 hlt
    · rw [hca] at h; cases h
      exact BitVec.not_lt.2 ha127 hlt
  · rfl

/-- While a parameter is awaited a data byte leaves nothing known (43 R206). -/
theorem Lcdc.dataWrite_awaited {c : Lcdc} (hk : c.lcdcKnown = true) (hp : c.evPending = .known true) (b : Byte) :
    c.dataWrite b = Lcdc.allUnknown := by
  rw [Lcdc.dataWrite, Lcdc.whenKnown_of_known hk, hp]
  rfl

theorem Lcdc.cell_eq_get? (c : Lcdc) (p q : Nat) :
    c.cell p q = ((c.ddram.get? (linear p q)).map Shadow.known).getD .unknown := by
  unfold Lcdc.cell
  cases c.ddram.get? (linear p q) <;> rfl

/-- Inside the window an address is one page and column. -/
theorem linear_inj {p q p' q' : Nat} (hq : q ≤ 127) (hq' : q' ≤ 127) : linear p q = linear p' q' ↔ p = p' ∧ q = q' := by
  simp only [linear]
  omega

/-! ## The statements -/

/-- Settles O16. -/
theorem displayCommandsWriteOneBit : Obligations.DisplayCommandsWriteOneBit := by
  unfold Obligations.DisplayCommandsWriteOneBit
  refine ⟨?_, ?_, ?_, ?_, ?_, ?_⟩ <;> exact commandDoes_of_whenKnown rfl fun _ => rfl

/-- Settles O17. -/
theorem modeCommandsWriteOneBit : Obligations.ModeCommandsWriteOneBit := by
  unfold Obligations.ModeCommandsWriteOneBit
  refine ⟨?_, ?_, ?_, ?_, ?_, ?_, ?_, ?_⟩ <;> exact commandDoes_of_whenKnown rfl fun _ => rfl

/-- Settles O18. -/
theorem powerCommandsWriteStage : Obligations.PowerCommandsWriteStage := by
  unfold Obligations.PowerCommandsWriteStage
  refine ⟨?_, ?_, ?_⟩ <;> exact commandDoes_of_whenKnown rfl fun _ => rfl

/-- Settles O19: the field of the command comes back from its low bits. -/
theorem fieldCommandsWriteField : Obligations.FieldCommandsWriteField := by
  unfold Obligations.FieldCommandsWriteField
  exact ⟨fun r => commandDoes_of_whenKnown (decodeCommand_ratio r) fun _ => rfl,
    fun n => commandDoes_of_whenKnown (decodeCommand_page n) fun _ => rfl⟩

/-- Settles O20: the field of the command comes back from its low bits. -/
theorem startLineCommandWritesLine : Obligations.StartLineCommandWritesLine := by
  unfold Obligations.StartLineCommandWritesLine
  exact fun l => commandDoes_of_whenKnown (decodeCommand_startLine l) fun _ => rfl

/-- Settles O21: after both commands both halves are known. -/
theorem columnCommandsWriteHalves : Obligations.ColumnCommandsWriteHalves := by
  unfold Obligations.ColumnCommandsWriteHalves
  refine ⟨fun n => commandDoes_of_whenKnown (decodeCommand_colHi n) fun _ => rfl,
    fun n => commandDoes_of_whenKnown (decodeCommand_colLo n) fun _ => rfl, fun s t u h l hk ht hu => ?_⟩
  have hhi : s.lcdc.apply (.colHi h) = { s.lcdc with caHi := .known h } := Lcdc.colHi_of_known hk h
  rw [exec_byte rfl, hhi] at ht
  cases ht
  have hlo : Lcdc.apply { s.lcdc with caHi := .known h } (.colLo l) =
      { s.lcdc with caHi := .known h, caLo := .known l } := Lcdc.colLo_of_known (c := { s.lcdc with caHi := .known h }) hk l
  rw [exec_byte rfl, State.setLcdc_lcdc, hlo] at hu
  cases hu
  exact Lcdc.ca_of_halves rfl rfl

/-- Settles O22: the second 0x81 is read in the context of a parameter. -/
theorem contrastModeSetAwaitsParameter : Obligations.ContrastModeSetAwaitsParameter := by
  unfold Obligations.ContrastModeSetAwaitsParameter
  refine ⟨commandDoes_of_whenKnown rfl fun _ => rfl, fun c hp => ?_⟩
  exact (Lcdc.decodeFor_iff_of_contextOf (by rw [hp, contextOf_low_awaited]) _ _).2 rfl

/-- Settles O23: a reserved byte is received as an undefined one. -/
theorem undefinedEffectsForgetController : Obligations.UndefinedEffectsForgetController := by
  unfold Obligations.UndefinedEffectsForgetController
  refine ⟨commandDoes_of_whenKnown rfl fun _ => rfl, fun s b rest hk hp hd h => ?_⟩
  rw [step_busByte h, Lcdc.receive_reserved hp hd, Lcdc.undefinedByte, Lcdc.whenKnown_of_known hk]
  rfl

/-- Settles O25: the byte lands in its cell, and CA steps up or is lost. -/
theorem dataByteWritesCell : Obligations.DataByteWritesCell := by
  unfold Obligations.DataByteWritesCell
  intro s b p a hk hp hpa hca hp5 ha127
  have hwrite : s.lcdc.dataWrite b = s.lcdc.writeCell p a b := Lcdc.dataWrite_inside hk hp hpa hca ⟨hp5, ha127⟩
  have ha : a.toNat ≤ 127 := BitVec.le_def.1 ha127
  obtain ⟨hi, lo, hupdate⟩ := s.lcdc.writeCell_eq_update p a b
  have hddram : (s.lcdc.writeCell p a b).ddram = s.lcdc.ddram.put (linear p.toNat a.toNat) b := by rw [hupdate]
  refine ⟨s.lcdc.writeCell p a b, ?_, fun rest h => ?_, ?_, fun q col hcol hne => ?_, ?_, ?_⟩
  · rw [exec_byte rfl, ← hwrite]
    rfl
  · rw [step_busByte h, Lcdc.receive_data, hwrite]
    rfl
  · rw [Lcdc.cell_eq_get?, hddram, Memory.get?_put, if_pos rfl]
    rfl
  · rw [Lcdc.cell_eq_get?, hddram, Memory.get?_put, if_neg, Lcdc.cell_eq_get?]
    rw [linear_inj hcol ha]
    exact not_and_or.2 hne
  · have hstep : a.toNat + 1 < Config.params.nCols ↔ a ≤ 126 := Nat.succ_lt_succ_iff.trans Nat.lt_succ_iff
    unfold Lcdc.writeCell
    simp only [hstep]
    split
    · exact Lcdc.ca_setCa _ _
    · exact Lcdc.ca_loseCa _
  · rw [hupdate]

/-- Settles O26: outside the window the display RAM and CA are lost, and with a parameter awaited everything is. -/
theorem dataByteOutsideWindowLosesDisplayRam : Obligations.DataByteOutsideWindowLosesDisplayRam := by
  unfold Obligations.DataByteOutsideWindowLosesDisplayRam
  refine fun s b hk => ⟨fun hp => ?_, fun hp h => ⟨s.lcdc.writeOutside, ?_, fun _ _ => rfl, rfl, rfl⟩⟩
  · rw [exec_byte rfl]
    exact congrArg _ (congrArg s.setLcdc (Lcdc.dataWrite_awaited hk hp b))
  · rw [exec_byte rfl]
    exact congrArg _ (congrArg s.setLcdc (Lcdc.dataWrite_outside hk hp h b))

/-- Settles O28: an unknown controller changes nothing, a known one the register its command names. -/
theorem bytesReachOnlyTheController : Obligations.BytesReachOnlyTheController := by
  unfold Obligations.BytesReachOnlyTheController
  refine fun i s hi => ⟨_, exec_byte hi s, rfl, rfl, fun hreset hdata => ?_⟩
  rw [State.setLcdc_lcdc]
  cases hk : s.lcdc.lcdcKnown with
  | false => simp [Lcdc.apply_of_unknown hk, hk]
  | true =>
    cases i
    case data b =>
      obtain ⟨m, hi, lo, heq⟩ := Lcdc.dataWrite_eq_update (hdata b rfl) b
      simp [Lcdc.apply, heq, hk]
    case intReset => exact absurd rfl hreset
    all_goals
      simp [Lcdc.apply, Lcdc.colLo, Lcdc.colHi, Lcdc.setRatio, Lcdc.setPower, Lcdc.setStartLine, Lcdc.awaitParam,
        Lcdc.setScanReverse, Lcdc.setBias, Lcdc.setAllPoints, Lcdc.setReverse, Lcdc.setSleep, Lcdc.setDisplayOn,
        Lcdc.setPage, Lcdc.setComReverse, Lcdc.takeParam, Lcdc.whenKnown_of_known hk, hk]

end Sys2Proof.Machine
end

section
/-!
SUPPORT. Every host operation as one script, and the state after it as the state after that script's trace; so a claim
about what operations do is a claim about traces.
-/

namespace Sys2Proof.Machine

/-! ## One script for each operation -/

/-- The statements an instruction runs: none if its operand fails its check, and none for a byte on the bus. -/
def operationScript (s : State) (i : Instr) : List Action :=
  if i = .construct then constructScript
  else if i = .release then releaseScript s
  else if operandCheck i = none then runtimeScript (scriptBase s i) i
  else []

/-- The events an instruction adds. -/
def operationTrace (s : State) (i : Instr) : List Event := s.traceFor (operationScript s i)

/-- The result of a host operation (60 R220). -/
def operationResult (s : State) (i : Instr) : Result :=
  if (operandCheck i).isSome then .errValidation
  else if hasFailure (operationTrace s i) then (if i = .construct then .errConstruction else .errTransport)
  else .ok

theorem operationTrace_construct (s : State) : operationTrace s .construct = s.traceFor constructScript := rfl

theorem operationTrace_release (s : State) :
    operationTrace s .release = if s.seq.bus = .opened then [.busClose] else [] := by
  unfold operationTrace
  cases h : s.seq.bus <;> simp [operationScript, releaseScript, h, State.traceFor, traceOf]

theorem operationTrace_of_rejected {i : Instr} {cause : ValidationCause} (h : operandCheck i = some cause) (s : State) :
    operationTrace s i = [] := by
  have hc : i ≠ .construct := by rintro rfl; cases h
  have hr : i ≠ .release := by rintro rfl; cases h
  simp [operationTrace, operationScript, hc, hr, h, State.traceFor, traceOf]

theorem operationTrace_of_scripted {i : Instr} (hs : isScripted i = true) (hc : operandCheck i = none) (s : State) :
    operationTrace s i = runtimeTrace s i := by
  have hc' : i ≠ .construct := by rintro rfl; cases hs
  have hr : i ≠ .release := by rintro rfl; cases hs
  simp [operationTrace, operationScript, hc', hr, hc, State.traceFor, runtimeTrace]

theorem operationTrace_setPixelData (s : State) (payload : List Byte) : operationTrace s (.setPixelData payload) = [] := by
  simp [operationTrace, operationScript, runtimeScript, State.traceFor, traceOf]

theorem operationTrace_of_byte {i : Instr} (h : i.isHostOperation = false) (s : State) : operationTrace s i = [] := by
  cases i
  case construct | reset | setPixelData | flush | draw | setDisplayMode | setDisplayColor | setContrast |
      setContrastDetail | setSleepMode | setPageAddress | setColumnAddress | release => cases h
  all_goals rfl

theorem operationResult_release (s : State) : operationResult s .release = .ok := by
  rw [operationResult, operationTrace_release]
  cases s.seq.bus <;> rfl

/-! ## The state after an operation -/

/-- A host operation adds its trace and its result; latches, bus and controller are what the trace makes of them. -/
theorem exec_hostOperation {i : Instr} {s t : State} (hi : i.isHostOperation = true) (h : exec i s = .next t) :
    t = { seq := { s.seq with
            life := t.seq.life, fb := t.seq.fb
            dc := levelAfter .dc s.seq.dc (operationTrace s i)
            rst := levelAfter .rst s.seq.rst (operationTrace s i)
            pinOut := s.seq.pinOut || i = .construct
            bus := busAfter s.seq.bus (operationTrace s i) }
          lcdc := lcdcAfter s.env.lcdcFresh s.seq.rst s.seq.dc s.lcdc (operationTrace s i)
          env := s.env.extended (operationTrace s i) (operationResult s i) } := by
  rcases exec_cases h with ⟨hb, _⟩ | ⟨rfl, _, _, rfl⟩ | ⟨rfl, _, rfl⟩ | ⟨_, ⟨cause, hc⟩, rfl⟩ | ⟨_, payload, rfl, hlen, rfl⟩ |
    ⟨_, hs, hc, rfl⟩
  · rw [hi] at hb
    cases hb
  · rw [constructEnd_parts]
    simp [operationTrace_construct, operationResult, operandCheck]
  · rw [releaseEnd_eq]
    simp only [operationTrace_release, operationResult_release]
    cases hbus : s.seq.bus <;> simp [levelAfter, busAfter, lcdcAfter]
  · have hne : i ≠ .construct := by rintro rfl; cases hc
    simp [operationTrace_of_rejected hc, operationResult, hc, hne, levelAfter, busAfter, lcdcAfter, State.report,
      Env.extended]
  · have hc : operandCheck (.setPixelData payload) = none := if_pos hlen
    simp [operationTrace_setPixelData, operationResult, hc, levelAfter, busAfter, lcdcAfter, State.report,
      Env.extended, hasFailure]
  · have hne : i ≠ .construct := by rintro rfl; cases hs
    simp [runOperation_base, operationTrace_of_scripted hs hc, operationResult, hc, hne, resultOf]

/-- What every instruction adds to the events. -/
theorem exec_addsTrace {i : Instr} {s t : State} (h : exec i s = .next t) :
    t.env.events = s.env.events ++ operationTrace s i := by
  cases hi : i.isHostOperation with
  | true => rw [exec_hostOperation hi h]; rfl
  | false =>
    rw [exec_byte hi] at h
    cases h
    rw [operationTrace_of_byte hi, List.append_nil]
    rfl

/-- A runtime operation that transfers anything drives the mode-select pin first. -/
theorem runtimeScript_eq_cons {i : Instr} (hs : isScripted i = true) (hr : i ≠ .reset) (s : State) :
    ∃ rest, runtimeScript s i = .setPin .dc .low :: rest := by
  cases i
  case reset => exact absurd rfl hr
  case flush | draw | setDisplayMode | setDisplayColor | setContrast | setContrastDetail | setSleepMode |
      setPageAddress | setColumnAddress => exact ⟨_, rfl⟩
  all_goals cases hs

theorem levelAfter_dc_runtimeTrace_ne_x {i : Instr} (hs : isScripted i = true) (hr : i ≠ .reset) {s : State} (l : Latch) :
    levelAfter .dc l (runtimeTrace s i) ≠ .x := by
  obtain ⟨rest, hrest⟩ := runtimeScript_eq_cons hs hr (scriptBase s i)
  rw [runtimeTrace, hrest]
  exact levelAfter_ne_x (l := .driven .low) nofun _

/-! ## The whole traces -/

/-- The trace of a script with every answer `ok`, operation by operation. -/
theorem scriptTrace_operationScript_cases (cfg : BusConfig) (s : State) (i : Instr) :
    scriptTrace cfg (operationScript s i) = [] ∨
    (i = .construct ∧ scriptTrace cfg (operationScript s i) = initTrace cfg) ∨
    (i = .release ∧ scriptTrace cfg (operationScript s i) = [.busClose]) ∨
    (i = .reset ∧ scriptTrace cfg (operationScript s i) =
      [.setPin .rst .low, .delay Config.tRstLowUs, .setPin .rst .high]) ∨
    ((i = .draw ∨ i = .flush) ∧ ∃ rows, (∀ p, (rows p).length = 128) ∧
      scriptTrace cfg (operationScript s i) = drawTrace rows) ∨
    (registerBytes i ≠ [] ∧ operandCheck i = none ∧
      scriptTrace cfg (operationScript s i) = (registerBytes i).flatMap commandEvents) := by
  by_cases hreg : registerBytes i ≠ []
  · obtain ⟨hs, -, -, hscript⟩ := scripted_of_registerBytes hreg
    have hc : i ≠ .construct := by rintro rfl; cases hs
    have hr : i ≠ .release := by rintro rfl; cases hs
    cases hcheck : operandCheck i with
    | some cause => exact .inl (by simp [operationScript, hc, hr, hcheck, scriptTrace])
    | none =>
      refine .inr (.inr (.inr (.inr (.inr ⟨hreg, rfl, ?_⟩))))
      simp [operationScript, hc, hr, hcheck, hscript, scriptTrace_flatMap_sendCmd]
  · cases i
    case construct => exact .inr (.inl ⟨rfl, scriptTrace_constructScript cfg⟩)
    case release =>
      rw [show operationScript s .release = releaseScript s from rfl]
      cases hbus : s.seq.bus
      · exact .inl (by simp only [releaseScript, hbus]; rfl)
      · exact .inr (.inr (.inl ⟨rfl, by simp only [releaseScript, hbus]; rfl⟩))
    case reset => exact .inr (.inr (.inr (.inl ⟨rfl, rfl⟩)))
    case draw =>
      exact .inr (.inr (.inr (.inr (.inl ⟨.inl rfl, s.fbPage, s.fbPage_length, scriptTrace_drawScript cfg s⟩))))
    case flush =>
      exact .inr (.inr (.inr (.inr (.inl ⟨.inr rfl, s.fbClear.fbPage, s.fbClear.fbPage_length,
        scriptTrace_drawScript cfg s.fbClear⟩))))
    case setDisplayMode | setDisplayColor | setContrast | setContrastDetail | setSleepMode | setPageAddress |
        setColumnAddress => exact absurd nofun hreg
    all_goals exact .inl (by simp [operationScript, runtimeScript, scriptTrace])

/-! ## Checks of a trace -/

/-- What the closure rule of 43 R211 asks of one event. -/
def closureGood (x : List Byte × Latch) : Event → Bool
  | .transmit bytes _ =>
    match x.2 with
    | .driven .low =>
      match bytes with
      | [b] => if x.1.head? = some 0x81 then b ≤ 0x3F else sentCommand b
      | _ => false
    | .driven .high =>
      match x.1 with
      | lo :: hi :: pg :: _ => bytes.length == 128 && lo == 0x00 && hi == 0x10 && (0xB0 ≤ pg && pg ≤ 0xB5)
      | _ => false
    | .x => false
  | .setPin _ _ | .pinDir _ | .busOpen _ _ | .delay _ | .busClose => true

/-- What it remembers after one event. -/
def closureNext (x : List Byte × Latch) : Event → List Byte × Latch
  | .setPin .dc v => (x.1, .driven v)
  | .transmit bytes _ => if x.2 = .driven .low then (bytes ++ x.1, x.2) else ([], x.2)
  | .setPin .rst _ | .pinDir _ | .busOpen _ _ | .delay _ | .busClose => x

theorem closureHolds_cons (x : List Byte × Latch) (e : Event) (es : List Event) :
    closureHolds x.1 x.2 (e :: es) = (closureGood x e && closureHolds (closureNext x e).1 (closureNext x e).2 es) := by
  obtain ⟨recent, dc⟩ := x
  cases e
  case setPin p v => cases p <;> rfl
  case transmit bytes a =>
    match dc, bytes, recent with
    | .x, _, _ => rfl
    | .driven .low, [], _ | .driven .low, _ :: _ :: _, _ => rfl
    | .driven .low, [b], recent => rfl
    | .driven .high, _, [] | .driven .high, _, [_] | .driven .high, _, [_, _] => rfl
    | .driven .high, bytes, lo :: hi :: pg :: rest => rfl
  all_goals rfl

/-- The closure rule holds of what an operation sends if it holds of the whole trace of its script. -/
theorem closureHolds_traceFor {s : State} {script : List Action} {recent : List Byte} {dc : Latch}
    (h : closureHolds recent dc (scriptTrace s.seq.binding.busConfig script) = true) :
    closureHolds recent dc (s.traceFor script) = true :=
  traceOf_check (fun x => closureHolds x.1 x.2) closureNext closureGood (fun _ => rfl) closureHolds_cons
    (fun _ _ => rfl) (fun _ _ => rfl) _ _ _ _ (recent, dc) h

/-- What 70 R260 asks of one event. -/
def pinBeforeGood (justSet : Bool) : Event → Bool
  | .transmit _ _ => justSet
  | .setPin _ _ | .pinDir _ | .busOpen _ _ | .delay _ | .busClose => true

/-- Whether an event is a write of the mode-select pin. -/
def setsModeSelect : Event → Bool
  | .setPin .dc _ => true
  | .setPin .rst _ | .transmit _ _ | .pinDir _ | .busOpen _ _ | .delay _ | .busClose => false

theorem pinBeforeTransfers_cons (justSet : Bool) (e : Event) (es : List Event) :
    pinBeforeTransfers justSet (e :: es) = (pinBeforeGood justSet e && pinBeforeTransfers (setsModeSelect e) es) := by
  cases e
  case setPin p v => cases p <;> rfl
  all_goals rfl

theorem pinBeforeTransfers_traceFor {s : State} {script : List Action} {justSet : Bool}
    (h : pinBeforeTransfers justSet (scriptTrace s.seq.binding.busConfig script) = true) :
    pinBeforeTransfers justSet (s.traceFor script) = true :=
  traceOf_check pinBeforeTransfers (fun _ => setsModeSelect) pinBeforeGood (fun _ => rfl) pinBeforeTransfers_cons
    (fun _ _ => rfl) (fun _ _ => rfl) _ _ _ _ justSet h

/-- What a script sends is a beginning of what its whole trace sends. -/
theorem taggedStream_traceOf_prefix (cfg : BusConfig) (ans : Nat → Answer) (script : List Action) (k : Nat) (m : Latch) :
    taggedStream m (traceOf cfg ans k script) <+: taggedStream m (scriptTrace cfg script) := by
  induction script generalizing k m with
  | nil => exact List.prefix_refl _
  | cons a rest ih =>
    rw [show scriptTrace cfg (a :: rest) = a.events cfg ++ scriptTrace cfg rest from rfl]
    cases a
    case busOpen =>
      simp only [traceOf]
      split
      · exact ih _ _
      · exact List.nil_prefix
    case transmit bytes at_ =>
      simp only [traceOf]
      split
      · exact (List.prefix_append_right_inj _).2 (ih _ _)
      · exact List.nil_prefix
    case setPin p v => cases p <;> exact ih _ _
    all_goals exact ih _ _

/-! ## The checks of the written-out traces -/

@[simp] theorem closureHolds_commandEvents (recent : List Byte) (dc : Latch) (b : Byte) (es : List Event) :
    closureHolds recent dc (commandEvents b ++ es) =
      ((if recent.head? = some 0x81 then b ≤ 0x3F else sentCommand b) &&
        closureHolds (b :: recent) (.driven .low) es) := rfl

@[simp] theorem pinBeforeTransfers_commandEvents (justSet : Bool) (b : Byte) (es : List Event) :
    pinBeforeTransfers justSet (commandEvents b ++ es) = pinBeforeTransfers false es := rfl

@[simp] theorem pinBeforeTransfers_dataEvents (justSet : Bool) (bytes : List Byte) (es : List Event) :
    pinBeforeTransfers justSet (dataEvents bytes ++ es) = pinBeforeTransfers false es := rfl

/-- One page keeps the closure rule, and is forgotten after its data. -/
theorem closureHolds_pageTrace {recent : List Byte} (hr : recent.head? ≠ some 0x81) (dc : Latch) {b : Byte}
    (hb : 0xB0 ≤ b ∧ b ≤ 0xB5) {row : List Byte} (hrow : row.length = 128) (es : List Event) :
    closureHolds recent dc (pageTrace b row ++ es) = closureHolds [] (.driven .high) es := by
  have hsent : sentCommand b = true ∧ b ≠ 0x81 := by
    revert b
    decide
  have h10 : sentCommand 0x10 = true := by decide
  have h00 : sentCommand 0x00 = true := by decide
  have hdata : closureHolds (0x00 :: 0x10 :: b :: recent) (.driven .low) (dataEvents row ++ es) =
      closureHolds [] (.driven .high) es := by
    show (row.length == 128 && (0x00 : Byte) == 0x00 && (0x10 : Byte) == 0x10 &&
      (decide (0xB0 ≤ b) && decide (b ≤ 0xB5)) && closureHolds [] (.driven .high) es) = _
    rw [hrow, decide_eq_true hb.1, decide_eq_true hb.2]
    rfl
  simp only [pageTrace, List.append_assoc, closureHolds_commandEvents, if_neg hr, hsent.1, List.head?_cons,
    if_neg (Option.some_injective _ |>.ne hsent.2), if_neg (show some (0x10 : Byte) ≠ some 0x81 by decide), h10, h00,
    hdata, Bool.true_and]

theorem closureHolds_drawTrace (dc : Latch) {rows : Nat → List Byte} (hrows : ∀ p, (rows p).length = 128) :
    closureHolds [] dc (drawTrace rows) = true := by
  have hnil : ([] : List Byte).head? ≠ some 0x81 := nofun
  rw [← List.append_nil (drawTrace rows)]
  simp only [drawTrace, List.append_assoc]
  rw [closureHolds_pageTrace hnil _ (by decide) (hrows 0), closureHolds_pageTrace hnil _ (by decide) (hrows 1),
    closureHolds_pageTrace hnil _ (by decide) (hrows 2), closureHolds_pageTrace hnil _ (by decide) (hrows 3),
    closureHolds_pageTrace hnil _ (by decide) (hrows 4), closureHolds_pageTrace hnil _ (by decide) (hrows 5)]
  rfl

theorem closureHolds_initTrace (dc : Latch) (cfg : BusConfig) : closureHolds [] dc (initTrace cfg) = true := by
  simp only [initTrace, List.append_assoc, List.cons_append, List.nil_append, closureHolds, closureHolds_commandEvents]
  decide

/-- The bytes of a register-setting operation keep the closure rule, whatever its operand (43 R211). -/
theorem closureHolds_registerBytes {i : Instr} (hi : registerBytes i ≠ []) (hc : operandCheck i = none) (dc : Latch) :
    closureHolds [] dc ((registerBytes i).flatMap commandEvents) = true := by
  have one : ∀ {b}, sentCommand b = true → closureHolds [] dc (commandEvents b ++ []) = true := fun h => by
    rw [closureHolds_commandEvents, List.head?_nil, if_neg nofun, h]
    rfl
  cases i
  case setDisplayMode sel => exact one (by cases sel <;> decide)
  case setDisplayColor sel => exact one (by cases sel <;> decide)
  case setSleepMode sel => exact one (by cases sel <;> decide)
  case setContrast arg =>
    have hbytes : ∀ a, ratioCheck a = none → sentCommand (ratioByte a) = true := by decide
    exact one (hbytes arg hc)
  case setPageAddress arg =>
    have hbytes : ∀ a, pageCheck a = none → sentCommand (pageByte a) = true := by decide
    exact one (hbytes arg hc)
  case setContrastDetail arg =>
    have hbytes : ∀ v, volumeCheck v = none → v ≤ 0x3F := by decide
    have hev : sentCommand Opcode.evSet = true := by decide
    show closureHolds [] dc (commandEvents Opcode.evSet ++ (commandEvents arg ++ [])) = true
    rw [closureHolds_commandEvents, closureHolds_commandEvents, List.head?_nil, if_neg nofun, hev, List.head?_cons,
      if_pos (show some Opcode.evSet = some 0x81 from rfl), decide_eq_true (hbytes arg hc)]
    rfl
  case setColumnAddress arg =>
    have hbytes : ∀ a, sentCommand (colHiByte a) = true ∧ colHiByte a ≠ 0x81 ∧ sentCommand (colLoByte a) = true := by
      decide
    obtain ⟨hhi, hne, hlo⟩ := hbytes arg
    show closureHolds [] dc (commandEvents (colHiByte arg) ++ (commandEvents (colLoByte arg) ++ [])) = true
    rw [closureHolds_commandEvents, closureHolds_commandEvents, List.head?_nil, if_neg nofun, hhi, List.head?_cons,
      if_neg (Option.some_injective _ |>.ne hne), hlo]
    rfl
  all_goals exact absurd rfl hi

theorem pinBeforeTransfers_initTrace (justSet : Bool) (cfg : BusConfig) :
    pinBeforeTransfers justSet (initTrace cfg) = true := by
  simp only [initTrace, List.append_assoc, List.cons_append, List.nil_append, pinBeforeTransfers,
    pinBeforeTransfers_commandEvents]
  rfl

theorem pinBeforeTransfers_drawTrace (justSet : Bool) (rows : Nat → List Byte) :
    pinBeforeTransfers justSet (drawTrace rows) = true := by
  simp only [drawTrace, pageTrace, List.append_assoc, pinBeforeTransfers_commandEvents, pinBeforeTransfers_dataEvents]
  rfl

theorem pinBeforeTransfers_flatMap_commandEvents (bs : List Byte) :
    pinBeforeTransfers false (bs.flatMap commandEvents) = true := by
  induction bs with
  | nil => rfl
  | cons b bs ih => rw [List.flatMap_cons, pinBeforeTransfers_commandEvents, ih]

theorem length_flatMap_commandEvents (bs : List Byte) : (bs.flatMap commandEvents).length = 2 * bs.length := by
  induction bs with
  | nil => rfl
  | cons b bs ih => rw [List.flatMap_cons, List.length_append, ih, List.length_cons, commandEvents]; simp; omega

theorem length_initTrace (cfg : BusConfig) : (initTrace cfg).length = 34 := by
  simp [initTrace, commandEvents]

theorem length_drawTrace (rows : Nat → List Byte) : (drawTrace rows).length = 48 := by
  simp [drawTrace, pageTrace, commandEvents, dataEvents]

end Sys2Proof.Machine
end

section
/-!
SUPPORT. The statements about whole traces and about the whole machine, settled.
-/

namespace Sys2Proof.Machine

/-- Settles O47: the whole trace of every operation keeps the closure rule, and so does every beginning of it. -/
theorem emittedBytesAreClosed : Obligations.EmittedBytesAreClosed := by
  unfold Obligations.EmittedBytesAreClosed
  refine fun i s t h => ⟨_, exec_addsTrace h, closureHolds_traceFor ?_⟩
  rcases scriptTrace_operationScript_cases s.seq.binding.busConfig s i with hw | ⟨_, hw⟩ | ⟨_, hw⟩ | ⟨_, hw⟩ |
    ⟨_, rows, hrows, hw⟩ | ⟨hreg, hc, hw⟩ <;> rw [hw]
  · rfl
  · exact closureHolds_initTrace _ _
  · rfl
  · rfl
  · exact closureHolds_drawTrace _ hrows
  · exact closureHolds_registerBytes hreg hc _

/-- Settles O48, in the same way. -/
theorem pinIsSetBeforeEveryTransfer : Obligations.PinIsSetBeforeEveryTransfer := by
  unfold Obligations.PinIsSetBeforeEveryTransfer
  refine fun i s t h => ⟨_, exec_addsTrace h, pinBeforeTransfers_traceFor ?_⟩
  rcases scriptTrace_operationScript_cases s.seq.binding.busConfig s i with hw | ⟨_, hw⟩ | ⟨_, hw⟩ | ⟨_, hw⟩ |
    ⟨_, rows, _, hw⟩ | ⟨_, _, hw⟩ <;> rw [hw]
  · rfl
  · exact pinBeforeTransfers_initTrace _ _
  · rfl
  · rfl
  · exact pinBeforeTransfers_drawTrace _ _
  · exact pinBeforeTransfers_flatMap_commandEvents _

/-- Settles O49: what an operation sends is a beginning of its whole stream, which lies in command space. -/
theorem onlyPagingEngineSendsData : Obligations.OnlyPagingEngineSendsData := by
  unfold Obligations.OnlyPagingEngineSendsData
  refine fun i s t h hdraw hflush => ⟨_, exec_addsTrace h, fun tb htb => ?_⟩
  have hwhole : tb ∈ taggedStream s.seq.dc (scriptTrace s.seq.binding.busConfig (operationScript s i)) :=
    (taggedStream_traceOf_prefix _ _ _ _ _).subset htb
  have hcommand : ∀ bs, tb ∈ inCommandSpace bs → tb.1 = .driven .low := fun bs hb => by
    obtain ⟨b, _, rfl⟩ := List.mem_map.1 hb
    rfl
  rcases scriptTrace_operationScript_cases s.seq.binding.busConfig s i with hw | ⟨_, hw⟩ | ⟨_, hw⟩ | ⟨_, hw⟩ |
    ⟨hi, _⟩ | ⟨_, _, hw⟩
  · rw [hw] at hwhole; cases hwhole
  · rw [hw, taggedStream_initTrace] at hwhole
    exact hcommand _ hwhole
  · rw [hw] at hwhole; cases hwhole
  · rw [hw] at hwhole; cases hwhole
  · exact absurd hi (not_or.2 ⟨hdraw, hflush⟩)
  · rw [hw, taggedStream_flatMap_commandEvents] at hwhole
    exact hcommand _ hwhole

/-- Settles O52: a trace is no longer than the whole trace of its script. -/
theorem eventCountsAreBounded : Obligations.EventCountsAreBounded := by
  unfold Obligations.EventCountsAreBounded
  refine fun i s t h => ⟨_, exec_addsTrace h, (traceOf_length_le _ _ _ _).trans ?_⟩
  rcases scriptTrace_operationScript_cases s.seq.binding.busConfig s i with hw | ⟨rfl, hw⟩ | ⟨rfl, hw⟩ | ⟨rfl, hw⟩ |
    ⟨rfl | rfl, rows, _, hw⟩ | ⟨hreg, _, hw⟩ <;> rw [hw]
  · exact Nat.zero_le _
  · exact (length_initTrace _).le
  · exact le_refl _
  · exact le_refl _
  · exact (length_drawTrace rows).le
  · exact (length_drawTrace rows).le
  · rw [length_flatMap_commandEvents]
    cases i
    case setDisplayMode | setDisplayColor | setContrast | setContrastDetail | setSleepMode | setPageAddress |
      setColumnAddress => exact le_refl _
    all_goals exact absurd rfl hreg

/-- Settles O50: the result says whether the operand failed its check and whether the trace holds a failure. -/
theorem everyFailureBecomesAResult : Obligations.EveryFailureBecomesAResult := by
  unfold Obligations.EveryFailureBecomesAResult
  intro i s t hi h
  have ht := exec_hostOperation hi h
  have henv : t.env = s.env.extended (operationTrace s i) (operationResult s i) := by rw [ht]
  refine ⟨operationTrace s i, operationResult s i, by rw [henv]; rfl, by rw [henv]; rfl,
    failureEndsTrace_traceOf _ _ _ _, ?_⟩
  have hconsumed : t.env.consumed = s.env.consumed + answersIn (operationTrace s i) := by rw [henv]; rfl
  cases hcheck : operandCheck i with
  | some cause =>
    have hres : operationResult s i = .errValidation := by simp [operationResult, hcheck]
    rw [operationTrace_of_rejected hcheck] at hconsumed ⊢
    simp [hres, hasFailure, hconsumed]
  | none =>
    have hres : operationResult s i = if hasFailure (operationTrace s i) then
        (if i = .construct then .errConstruction else .errTransport) else .ok := by simp [operationResult, hcheck]
    cases hf : hasFailure (operationTrace s i) with
    | false => simp [hres, hf, hconsumed]
    | true =>
      rw [if_pos hf] at hres
      by_cases hc : i = .construct
      · rw [hres, if_pos hc]
        exact ⟨by simp, fun _ => hc, nofun, nofun, hconsumed⟩
      · rw [hres, if_neg hc]
        exact ⟨by simp, nofun, fun _ => hc, nofun, hconsumed⟩

/-- Settles O45, from the cases of `exec`. -/
theorem onlyConstructAndReleaseChangeLife : Obligations.OnlyConstructAndReleaseChangeLife := by
  unfold Obligations.OnlyConstructAndReleaseChangeLife
  intro i s t h hne
  rcases exec_cases h with ⟨_, rfl⟩ | ⟨rfl, hl, _, rfl⟩ | ⟨rfl, hl, rfl⟩ | ⟨_, _, rfl⟩ | ⟨_, _, _, _, rfl⟩ | ⟨_, _, _, rfl⟩
  · exact absurd rfl hne
  · refine .inl ⟨rfl, hl, ?_⟩
    rw [constructEnd_parts]
    dsimp only
    split
    · exact .inr rfl
    · exact .inl rfl
  · exact .inr ⟨rfl, hl, by rw [releaseEnd_eq]⟩
  · exact absurd rfl hne
  · exact absurd rfl hne
  · exact absurd (by rw [runOperation_base]) hne

/-- Settles O46, from the cases of `exec`: the framebuffer stays, and so does the number `fbByte` reads it by. -/
theorem onlyThreeOperationsWriteFramebuffer : Obligations.OnlyThreeOperationsWriteFramebuffer := by
  unfold Obligations.OnlyThreeOperationsWriteFramebuffer
  intro i s t h hpixel hflush hconstruct
  have key : t.seq.fb = s.seq.fb ∧ t.env.instanceNo = s.env.instanceNo := by
    rcases exec_cases h with ⟨_, rfl⟩ | ⟨hi, _⟩ | ⟨_, _, rfl⟩ | ⟨_, _, rfl⟩ | ⟨_, payload, hi, _⟩ | ⟨_, _, _, rfl⟩
    · exact ⟨rfl, rfl⟩
    · exact absurd hi hconstruct
    · rw [releaseEnd_eq]; exact ⟨rfl, rfl⟩
    · exact ⟨rfl, rfl⟩
    · exact absurd hi (hpixel payload)
    · rw [runOperation_base, scriptBase, if_neg hflush]; exact ⟨rfl, rfl⟩
  exact ⟨key.1, State.fbByte_congr key.1 key.2⟩

/-- Settles O51: a transport error is a failure in the script of a runtime operation. -/
theorem transportErrorLeavesSequencer : Obligations.TransportErrorLeavesSequencer := by
  unfold Obligations.TransportErrorLeavesSequencer
  intro i s t h hr
  have hs : isScripted i = true := mayReturn_of_exec h hr
  rcases exec_cases h with ⟨_, rfl⟩ | ⟨rfl, _⟩ | ⟨rfl, _⟩ | ⟨_, _, rfl⟩ | ⟨_, payload, rfl, _⟩ | ⟨hl, _, _, rfl⟩
  · simp at hr
  · cases hs
  · cases hs
  · simp at hr
  · cases hs
  · rw [runOperation_base] at hr ⊢
    have hfail : hasFailure (runtimeTrace s i) = true := by
      have hres : resultOf (runtimeTrace s i) = .errTransport := by simpa [Env.extended] using hr
      by_contra hok
      rw [resultOf, if_neg hok] at hres
      cases hres
    have hreset : i ≠ .reset := by rintro rfl; cases hfail
    refine ⟨hl, hl, lcdcAfter_runtimeTrace_of_failure hfail, ?_, ?_, fun hi => by rw [scriptBase, if_neg hi]⟩
    · rw [levelAfter_rst_runtimeTrace, if_neg hreset, busAfter_runtimeTrace]
    · exact levelAfter_dc_runtimeTrace_ne_x hs hreset _

end Sys2Proof.Machine
end

section
/-!
SUPPORT. What every step keeps (10_state R21 to R26, R34, R46): `Inv` in its two halves, the sequencer's and the
controller's, and the latches as the trace says.
-/

namespace Sys2Proof.Machine

/-! ## The sequencer's half of the invariant -/

/-- The part of the invariant that is about the sequencer's record. -/
structure Seq.Ok (q : Seq) : Prop where
  fb : q.fb.wf = true ∧ q.fb.below Config.params.fbSize = true
  unbuilt : q.life = .unbuilt → q = Seq.powerOn q.binding
  built : q.life ≠ .unbuilt → q.pinOut = true ∧ q.rst = .driven .high
  ready : q.life = .ready → q.bus = .opened ∧ q.dc ≠ .x
  released : q.life = .released → q.bus = .closed

theorem inv_iff {s : State} : Inv s ↔ s.seq.Ok ∧ s.lcdc.Ok :=
  ⟨fun h => ⟨⟨h.fb, h.unbuilt, h.built, h.ready, h.released⟩, ⟨h.ddram, h.forgotten, h.decoding⟩⟩,
    fun ⟨q, c⟩ => ⟨q.fb, c.ddram, q.unbuilt, q.built, q.ready, q.released, c.forgotten, c.decoding⟩⟩

theorem Seq.ok_powerOn (b : Binding) : (Seq.powerOn b).Ok :=
  ⟨⟨rfl, rfl⟩, fun _ => rfl, fun h => absurd rfl h, nofun, nofun⟩

/-- A READY record stays in order if its memory does, its pins and bus stay, and DC is not undriven. -/
theorem Seq.Ok.of_ready {q q' : Seq} (h : q.Ok) (hl : q.life = .ready) (hl' : q'.life = .ready)
    (hfb : q'.fb.wf = true ∧ q'.fb.below Config.params.fbSize = true) (hpins : q'.pinOut = q.pinOut)
    (hrst : q'.rst = .driven .high) (hbus : q'.bus = q.bus) (hdc : q'.dc ≠ .x) : q'.Ok where
  fb := hfb
  unbuilt hu := by rw [hl'] at hu; cases hu
  built _ := ⟨hpins.trans (h.built (by rw [hl]; nofun)).1, hrst⟩
  ready _ := ⟨hbus.trans (h.ready hl).1, hdc⟩
  released hr := by rw [hl'] at hr; cases hr

theorem State.fbWrite_ok {s : State} (h : s.seq.fb.wf = true ∧ s.seq.fb.below Config.params.fbSize = true)
    {bytes : List Byte} (hlen : bytes.length = 768) :
    (s.fbWrite 0 bytes).seq.fb.wf = true ∧ (s.fbWrite 0 bytes).seq.fb.below Config.params.fbSize = true :=
  ⟨Memory.putBytes_wf h.1 _ _, Memory.putBytes_below h.2 _ (by rw [hlen])⟩

theorem scriptBase_ok {s : State} (h : s.seq.fb.wf = true ∧ s.seq.fb.below Config.params.fbSize = true) (i : Instr) :
    (scriptBase s i).seq.fb.wf = true ∧ (scriptBase s i).seq.fb.below Config.params.fbSize = true := by
  have hlen : (List.replicate Config.params.fbSize (0 : Byte)).length = 768 := List.length_replicate
  unfold scriptBase
  split
  · rw [State.fbClear]
    exact State.fbWrite_ok h hlen
  · exact h

/-- After CONSTRUCT the pins are outputs and RST is high, and if it succeeded the bus is open and DC driven. -/
theorem Seq.Ok.constructed {s : State} (h : s.seq.Ok) : (constructEnd (runScript s constructScript)).seq.Ok := by
  rw [constructEnd_parts]
  cases hf : hasFailure (s.traceFor constructScript) with
  | true =>
    exact ⟨h.fb, nofun, fun _ => ⟨rfl, levelAfter_rst_constructTrace s _⟩, nofun, nofun⟩
  | false =>
    refine ⟨⟨rfl, rfl⟩, nofun, fun _ => ⟨rfl, levelAfter_rst_constructTrace s _⟩, fun _ => ?_, nofun⟩
    obtain ⟨hdc, -, hbus⟩ := latchesAfter_initTrace s.seq.dc s.seq.rst s.seq.bus s.seq.binding.busConfig
    rw [← traceFor_constructScript_of_ok hf] at hdc hbus
    exact ⟨hbus, by rw [hdc]; nofun⟩

/-- Every instruction keeps it. -/
theorem Seq.Ok.exec {i : Instr} {s t : State} (hq : s.seq.Ok) (h : exec i s = .next t) : t.seq.Ok := by
  rcases exec_cases h with ⟨_, rfl⟩ | ⟨_, _, _, rfl⟩ | ⟨_, hl, rfl⟩ | ⟨_, _, rfl⟩ | ⟨hl, payload, _, hlen, rfl⟩ |
    ⟨hl, _, _, rfl⟩
  · exact hq
  · exact hq.constructed
  · have hbuilt : s.seq.life ≠ .unbuilt := by rcases hl with hl | hl <;> rw [hl] <;> nofun
    rw [releaseEnd_eq]
    exact ⟨hq.fb, nofun, fun _ => hq.built hbuilt, nofun, fun _ => rfl⟩
  · exact hq
  · exact hq.of_ready hl hl (State.fbWrite_ok hq.fb hlen) rfl (hq.built (by rw [hl]; nofun)).2 rfl (hq.ready hl).2
  · rw [runOperation_base]
    refine hq.of_ready hl hl (scriptBase_ok hq.fb i) rfl ?_ (busAfter_runtimeTrace _ _ _)
      (levelAfter_ne_x (hq.ready hl).2 _)
    show levelAfter .rst s.seq.rst (runtimeTrace s i) = _
    rw [levelAfter_rst_runtimeTrace, (hq.built (by rw [hl]; nofun)).2, ite_self]

/-- Every instruction keeps the controller's half, by its byte or by its trace. -/
theorem Lcdc.Ok.exec {i : Instr} {s t : State} (hc : s.lcdc.Ok) (h : Machine.exec i s = .next t) : t.lcdc.Ok := by
  cases hi : i.isHostOperation with
  | true => rw [exec_hostOperation hi h]; exact hc.after _
  | false =>
    rw [exec_byte hi] at h
    cases h
    exact hc.apply i

/-! ## The latches as the trace says -/

/-- A trace without pin directions adds no output pin. -/
theorem pinsOutputBy_append {xs ys : List Event} (h : ∀ p, Event.pinDir p ∉ ys) :
    pinsOutputBy (xs ++ ys) = pinsOutputBy xs := by
  simp [pinsOutputBy, h]

/-- The events a statement may emit, whatever is answered. -/
def Action.mayEmit (cfg : BusConfig) : Action → List Event
  | .busOpen => [.busOpen cfg .ok, .busOpen cfg .fail]
  | .transmit bytes _ => [.transmit bytes .ok, .transmit bytes .fail]
  | .pinDir pin => [.pinDir pin]
  | .pinsAreOutputs => []
  | .setPin pin level => [.setPin pin level]
  | .delay t => [.delay t]
  | .busClose => [.busClose]

/-- Every event of a trace is one that a statement of its script may emit. -/
theorem exists_action_of_mem_traceOf {cfg : BusConfig} {ans : Nat → Answer} {script : List Action} {k : Nat} {e : Event}
    (h : e ∈ traceOf cfg ans k script) : ∃ a ∈ script, e ∈ a.mayEmit cfg := by
  induction script generalizing k with
  | nil => cases h
  | cons a rest ih =>
    have hrest : ∀ {k}, e ∈ traceOf cfg ans k rest → ∃ b ∈ a :: rest, e ∈ b.mayEmit cfg := fun h => by
      obtain ⟨b, hb, he⟩ := ih h
      exact ⟨b, List.mem_cons_of_mem _ hb, he⟩
    have hfirst : e ∈ a.mayEmit cfg → ∃ b ∈ a :: rest, e ∈ b.mayEmit cfg := fun h => ⟨a, List.mem_cons_self, h⟩
    cases a
    case pinsAreOutputs => exact hrest h
    case busOpen | transmit =>
      simp only [traceOf] at h
      split at h
      · rcases List.mem_cons.1 h with rfl | h
        · exact hfirst (by simp [Action.mayEmit])
        · exact hrest h
      · exact hfirst (by simp [Action.mayEmit, List.mem_singleton.1 h])
    all_goals
      rcases List.mem_cons.1 h with rfl | h
      · exact hfirst (by simp [Action.mayEmit])
      · exact hrest h

theorem pinDir_not_mem_traceOf {cfg : BusConfig} {ans : Nat → Answer} {script : List Action} {p : CtlPin}
    (h : Action.pinDir p ∉ script) (k : Nat) : Event.pinDir p ∉ traceOf cfg ans k script := by
  intro hmem
  obtain ⟨a, ha, he⟩ := exists_action_of_mem_traceOf hmem
  cases a <;> simp [Action.mayEmit] at he
  subst he
  exact h ha

theorem setPin_not_mem_traceOf {cfg : BusConfig} {ans : Nat → Answer} {script : List Action} {p : CtlPin} {v : Level}
    (h : Action.setPin p v ∉ script) (k : Nat) : Event.setPin p v ∉ traceOf cfg ans k script := by
  intro hmem
  obtain ⟨a, ha, he⟩ := exists_action_of_mem_traceOf hmem
  cases a <;> simp [Action.mayEmit] at he
  obtain ⟨rfl, rfl⟩ := he
  exact h ha

/-- Of all operations CONSTRUCT alone makes pins outputs. -/
theorem pinDir_not_mem_operationScript {i : Instr} (hi : i ≠ .construct) (s : State) (p : CtlPin) :
    Action.pinDir p ∉ operationScript s i := by
  unfold operationScript
  rw [if_neg hi]
  split
  · unfold releaseScript
    split <;> simp
  · split
    · cases i <;> simp [runtimeScript, resetScript, sendCmd, sendData, drawScript, pageScript]
    · exact List.not_mem_nil

/-- CONSTRUCT makes both outputs before anything can fail. -/
theorem pinsOutputBy_append_constructTrace (s : State) (xs : List Event) :
    pinsOutputBy (xs ++ s.traceFor constructScript) = true := by
  have hpins : ∃ es, s.traceFor constructScript = .pinDir .rst :: .pinDir .dc :: es := ⟨_, rfl⟩
  obtain ⟨es, hes⟩ := hpins
  simp [pinsOutputBy, hes]

/-- Every instruction keeps the latches as the trace says. -/
theorem TraceFaithful.exec {i : Instr} {s t : State} (hs : TraceFaithful s) (h : exec i s = .next t) : TraceFaithful t := by
  cases hi : i.isHostOperation with
  | false =>
    rw [exec_byte hi] at h
    cases h
    exact ⟨hs.dc, hs.rst, hs.pinOut, hs.bus⟩
  | true =>
    rw [exec_hostOperation hi h]
    refine ⟨?_, ?_, ?_, ?_⟩ <;> simp only [Env.extended]
    · rw [levelAfter_append, ← hs.dc]
    · rw [levelAfter_append, ← hs.rst]
    · by_cases hc : i = .construct
      · subst hc
        simp [operationTrace_construct, pinsOutputBy_append_constructTrace]
      · rw [operationTrace, State.traceFor,
          pinsOutputBy_append fun p => pinDir_not_mem_traceOf (pinDir_not_mem_operationScript hc s p) _, ← hs.pinOut,
          decide_eq_false hc, Bool.or_false]
    · rw [busAfter_append, ← hs.bus]

/-! ## Without the premise LCDC_FRESH -/

/-- Without the premise no trace makes an unknown controller known (10_state R46). -/
theorem lcdcAfter_lcdcKnown_of_not_fresh {r d : Latch} {c : Lcdc} (h : c.lcdcKnown = false) (es : List Event) :
    (lcdcAfter false r d c es).lcdcKnown = false := by
  induction es generalizing r d c with
  | nil => exact h
  | cons e es ih =>
    cases e
    case setPin p v =>
      cases p
      case dc => exact ih h
      case rst =>
        refine ih ?_
        unfold Lcdc.resetPin
        split
        · rfl
        · split
          · exact h
          · rfl
    case transmit bs a =>
      cases a
      · exact ih (by rw [Lcdc.receiveAll_of_unknown h]; exact h)
      · exact ih rfl
    all_goals exact ih h

/-- An instruction does not change the premise, and without it makes nothing known. -/
theorem exec_lcdcKnown_of_not_fresh {i : Instr} {s t : State} (hf : s.env.lcdcFresh = false)
    (hk : s.lcdc.lcdcKnown = false) (h : exec i s = .next t) :
    t.lcdc.lcdcKnown = false ∧ t.env.lcdcFresh = false := by
  cases hi : i.isHostOperation with
  | false =>
    rw [exec_byte hi, Lcdc.apply_of_unknown hk] at h
    cases h
    exact ⟨hk, hf⟩
  | true =>
    rw [exec_hostOperation hi h, hf]
    exact ⟨lcdcAfter_lcdcKnown_of_not_fresh hk _, hf⟩

/-! ## The statements -/

/-- Settles O3: a request keeps both halves, a byte the controller's, and a new sequencer has them. -/
theorem stepKeepsInvariant : Obligations.StepKeepsInvariant := by
  unfold Obligations.StepKeepsInvariant
  intro s t hs h
  obtain ⟨hq, hc⟩ := inv_iff.1 hs
  refine inv_iff.2 ?_
  rcases step_cases h with ⟨_, rfl⟩ | ⟨x, rest, _, ⟨w, payload, i, _, _, _, hexec⟩ | ⟨m, b, _, rfl⟩ | ⟨b, o, f, _, rfl, _⟩⟩
  · exact ⟨hq, hc⟩
  · exact ⟨Seq.Ok.exec (s := s.withInbox rest) hq hexec, Lcdc.Ok.exec (s := s.withInbox rest) hc hexec⟩
  · exact ⟨hq, hc.receive _ _⟩
  · exact ⟨Seq.ok_powerOn b, Lcdc.ok_allUnknown⟩

/-- Settles O4: the latches follow what an operation adds to the trace, and a new trace begins with a new sequencer. -/
theorem stepKeepsTraceFaithful : Obligations.StepKeepsTraceFaithful := by
  unfold Obligations.StepKeepsTraceFaithful
  intro s t hs h
  have hinbox : ∀ rest, TraceFaithful (s.withInbox rest) := fun _ => ⟨hs.dc, hs.rst, hs.pinOut, hs.bus⟩
  rcases step_cases h with ⟨_, rfl⟩ | ⟨x, rest, _, ⟨w, payload, i, _, _, _, hexec⟩ | ⟨m, b, _, rfl⟩ | ⟨b, o, f, _, rfl, _⟩⟩
  · exact hs
  · exact (hinbox rest).exec hexec
  · exact ⟨hs.dc, hs.rst, hs.pinOut, hs.bus⟩
  · exact ⟨rfl, rfl, rfl, rfl⟩

/-- Settles O6. -/
theorem withoutFreshPremiseNothingIsKnown : Obligations.WithoutFreshPremiseNothingIsKnown := by
  unfold Obligations.WithoutFreshPremiseNothingIsKnown
  intro s t hf hk h
  rcases step_cases h with ⟨_, rfl⟩ | ⟨x, rest, hx, ⟨w, payload, i, _, _, _, hexec⟩ | ⟨m, b, _, rfl⟩ | ⟨b, o, f, rfl, rfl, _⟩⟩
  · exact ⟨hk, .inl hf⟩
  · obtain ⟨hk', hf'⟩ := exec_lcdcKnown_of_not_fresh (s := s.withInbox rest) hf hk hexec
    exact ⟨hk', .inl hf'⟩
  · exact ⟨by rw [State.setLcdc_lcdc, Lcdc.receive_of_unknown hk]; exact hk, .inl hf⟩
  · refine ⟨rfl, ?_⟩
    cases f
    · exact .inl rfl
    · exact .inr ⟨b, o, rest, hx⟩

/-- Settles O7: a power-on takes the place of a sequencer that is not live. -/
theorem powerOnGivesFreshInstance : Obligations.PowerOnGivesFreshInstance := by
  unfold Obligations.PowerOnGivesFreshInstance
  intro s b o f rest hinbox
  rw [step_of_pending hinbox, stepInput, acceptPowerOn, State.withInbox_seq]
  refine ⟨?_, fun h => by simp only [h], fun h => by simp only [h]⟩
  rintro (h | h) <;> simp only [h] <;> rfl

/-- Settles O1. -/
theorem resetIsBeforeConstruct : Obligations.ResetIsBeforeConstruct := by
  unfold Obligations.ResetIsBeforeConstruct
  simp only [State.reset, Seq.powerOn, Lcdc.allUnknown, Lcdc.ca, Lcdc.cell, Memory.get?, implies_true, and_self]

/-- Settles O2: both halves of the invariant hold of a new sequencer, and the trace is empty. -/
theorem resetMeetsInvariants : Obligations.ResetMeetsInvariants := by
  unfold Obligations.ResetMeetsInvariants
  exact ⟨inv_iff.2 ⟨Seq.ok_powerOn _, Lcdc.ok_allUnknown⟩, ⟨rfl, rfl, rfl, rfl⟩, ⟨rfl, rfl, nofun, fun _ => rfl⟩⟩

end Sys2Proof.Machine
end

section
/-!
SUPPORT. What an operation's bytes do to a known controller that awaits no parameter, and why none is awaited after an
operation (43 R212).
-/

namespace Sys2Proof.Machine

/-! ## The register-setting operations -/

/-- What a register-setting operation sets in the controller (42 R160 to R166). -/
def registerEffect : Instr → Lcdc → Lcdc
  | .setDisplayMode sel, c => { c with displayOn := .known (sel = .on) }
  | .setDisplayColor sel, c => { c with reverse := .known (sel = .inverted) }
  | .setContrast arg, c => { c with ratio := .known (arg.setWidth 3) }
  | .setContrastDetail arg, c => { c with ev := .known (arg.setWidth 6) }
  | .setSleepMode sel, c => { c with sleep := .known (sel = .enabled) }
  | .setPageAddress arg, c => { c with pa := .known (arg.setWidth 4) }
  | .setColumnAddress arg, c => { c with caHi := .known (arg.extractLsb' 4 4), caLo := .known (arg.extractLsb' 0 4) }
  | _, c => c

/-- It sets neither the decoder nor the display RAM, and `lcdc_known` stays. -/
theorem registerEffect_frame (i : Instr) (c : Lcdc) :
    (registerEffect i c).lcdcKnown = c.lcdcKnown ∧ (registerEffect i c).evPending = c.evPending ∧
      (registerEffect i c).ddram = c.ddram := by
  cases i <;> exact ⟨rfl, rfl, rfl⟩

/-- Set twice is set once. -/
theorem registerEffect_idem (i : Instr) (c : Lcdc) : registerEffect i (registerEffect i c) = registerEffect i c := by
  cases i <;> rfl

/-- One command byte to a known controller that awaits no parameter. -/
theorem Lcdc.receiveAll_command {c : Lcdc} (hk : c.lcdcKnown = true) (hp : c.evPending = .known false) {b : Byte}
    {i : Instr} {f : Lcdc → Lcdc} (hd : decodeCommand b = .ok i) (ha : ∀ c : Lcdc, c.apply i = c.whenKnown f) :
    c.receiveAll (.driven .low) [b] = f c := by
  rw [Lcdc.receiveAll_cons, Lcdc.receive_command hp hd, Lcdc.receiveAll_nil, ha, Lcdc.whenKnown_of_known hk]

/-- The bytes of a register-setting operation set its register (42 R160 to R166). -/
theorem Lcdc.receiveAll_registerBytes {c : Lcdc} (hk : c.lcdcKnown = true) (hp : c.evPending = .known false) {i : Instr}
    (hc : operandCheck i = none) : c.receiveAll (.driven .low) (registerBytes i) = registerEffect i c := by
  cases i
  case setDisplayMode sel => cases sel <;> exact Lcdc.receiveAll_command hk hp rfl fun _ => rfl
  case setDisplayColor sel => cases sel <;> exact Lcdc.receiveAll_command hk hp rfl fun _ => rfl
  case setSleepMode sel => cases sel <;> exact Lcdc.receiveAll_command hk hp rfl fun _ => rfl
  case setContrast arg =>
    have hd : ∀ a, ratioCheck a = none → decodeCommand (ratioByte a) = .ok (.ratio (a.setWidth 3)) := by decide
    exact Lcdc.receiveAll_command hk hp (hd arg hc) fun _ => rfl
  case setPageAddress arg =>
    have hd : ∀ a, pageCheck a = none → decodeCommand (pageByte a) = .ok (.page (a.setWidth 4)) := by decide
    exact Lcdc.receiveAll_command hk hp (hd arg hc) fun _ => rfl
  case setContrastDetail arg =>
    have hv : ∀ v, volumeCheck v = none → v ≤ 63 := by decide
    exact Lcdc.receiveAll_evSet_volume hk hp (hv arg hc)
  case setColumnAddress arg => exact Lcdc.receiveAll_columnBytes hk hp arg
  all_goals rfl

/-! ## Streams that leave a known controller known and its decoder idle -/

/-- What a tagged byte stream makes of a controller. -/
def Lcdc.receiveStream (c : Lcdc) (stream : List (Latch × Byte)) : Lcdc :=
  stream.foldl (fun c tb => c.receive tb.1 tb.2) c

theorem Lcdc.receiveStream_inCommandSpace (c : Lcdc) (bs : List Byte) :
    c.receiveStream (inCommandSpace bs) = c.receiveAll (.driven .low) bs := List.foldl_map

theorem Lcdc.receiveStream_of_unknown {c : Lcdc} (hk : c.lcdcKnown = false) (stream : List (Latch × Byte)) :
    c.receiveStream stream = c := List.foldl_fixed' (fun tb => Lcdc.receive_of_unknown hk tb.1 tb.2) _

/-- The stream leaves a known controller that awaits no parameter so. -/
def KeepsIdle (stream : List (Latch × Byte)) : Prop :=
  ∀ c : Lcdc, c.lcdcKnown = true → c.evPending = .known false →
    (c.receiveStream stream).lcdcKnown = true ∧ (c.receiveStream stream).evPending = .known false

theorem keepsIdle_registerBytes {i : Instr} (hc : operandCheck i = none) :
    KeepsIdle (inCommandSpace (registerBytes i)) := by
  intro c hk hp
  obtain ⟨hknown, hpending, -⟩ := registerEffect_frame i c
  rw [Lcdc.receiveStream_inCommandSpace, Lcdc.receiveAll_registerBytes hk hp hc, hknown, hpending]
  exact ⟨hk, hp⟩

theorem keepsIdle_nil : KeepsIdle [] := fun _ hk hp => ⟨hk, hp⟩

/-- A command that leaves `lcdc_known` and the decoder alone may come first. -/
theorem KeepsIdle.cons_command {stream : List (Latch × Byte)} (h : KeepsIdle stream) {b : Byte} {i : Instr}
    {f : Lcdc → Lcdc} (hd : decodeCommand b = .ok i) (ha : ∀ c : Lcdc, c.apply i = c.whenKnown f)
    (hf : ∀ c, (f c).lcdcKnown = c.lcdcKnown ∧ (f c).evPending = c.evPending) :
    KeepsIdle ((.driven .low, b) :: stream) := by
  intro c hk hp
  obtain ⟨hknown, hpending⟩ := hf c
  have hreceive : c.receiveStream ((.driven .low, b) :: stream) = (f c).receiveStream stream :=
    congrArg (fun c => Lcdc.receiveStream c stream) (Lcdc.receiveAll_command hk hp hd ha)
  rw [hreceive]
  exact h (f c) (hknown.trans hk) (hpending.trans hp)

/-- ContrastModeSet and its volume may come first. -/
theorem KeepsIdle.cons_volume {stream : List (Latch × Byte)} (h : KeepsIdle stream) {v : Byte} (hv : v ≤ 63) :
    KeepsIdle ((.driven .low, 0x81) :: (.driven .low, v) :: stream) := by
  intro c hk hp
  have hreceive : c.receiveStream ((.driven .low, 0x81) :: (.driven .low, v) :: stream) =
      Lcdc.receiveStream { c with ev := .known (v.setWidth 6) } stream :=
    congrArg (fun c => Lcdc.receiveStream c stream) (Lcdc.receiveAll_evSet_volume hk hp hv)
  rw [hreceive]
  exact h _ hk hp

/-- The initialisation sequence ends no command with a parameter outstanding (40 R123 to R126). -/
theorem keepsIdle_initBytes : KeepsIdle (inCommandSpace initBytes) := by
  iterate 8 refine KeepsIdle.cons_command ?_ rfl (fun _ => rfl) fun _ => ⟨rfl, rfl⟩
  refine KeepsIdle.cons_volume ?_ (by decide)
  iterate 4 refine KeepsIdle.cons_command ?_ rfl (fun _ => rfl) fun _ => ⟨rfl, rfl⟩
  exact keepsIdle_nil

/-- Six pages of rows: the display RAM holds the rows, PA is 5, CA is unknown, and nothing else changes (41 R144). -/
theorem Lcdc.receiveStream_pagesStream {c : Lcdc} (hk : c.lcdcKnown = true) (hp : c.evPending = .known false)
    {rows : Nat → List Byte} (hrows : ∀ p, (rows p).length = 128) :
    ∃ m, c.receiveStream (pagesStream rows) = { c with ddram := m, pa := .known 5, caHi := .unknown, caLo := .unknown } ∧
      (∀ p q, p ≤ 5 → q ≤ 127 → m.get? (linear p q) = (rows p)[q]?) ∧ (c.ddram.wf = true → m.wf = true) ∧
      (c.ddram.below Config.params.fbSize = true → m.below Config.params.fbSize = true) := by
  obtain ⟨m, hm, hget⟩ := lcdcAfter_drawTrace (f := true) (r := .x) (d := .x) hk hp hrows
  rw [lcdcAfter_eq_received (hasFailure_drawTrace _) (setPin_rst_not_mem_drawTrace _), taggedStream_drawTrace] at hm
  exact ⟨m, hm, hget⟩

theorem keepsIdle_pagesStream {rows : Nat → List Byte} (hrows : ∀ p, (rows p).length = 128) :
    KeepsIdle (pagesStream rows) := by
  intro c hk hp
  obtain ⟨m, hm, -⟩ := Lcdc.receiveStream_pagesStream hk hp hrows
  rw [hm]
  exact ⟨hk, hp⟩

/-! ## What is known after a trace -/

theorem knownAfter_of_ok {r : Latch} {k : Bool} {es : List Event} (hok : hasFailure es = false)
    (hrst : ∀ v, Event.setPin .rst v ∉ es) : knownAfter r k es = k := by
  induction es generalizing r k with
  | nil => rfl
  | cons e es ih =>
    have hrst' : ∀ v, Event.setPin .rst v ∉ es := fun v h => hrst v (List.mem_cons_of_mem _ h)
    rw [hasFailure_cons, Bool.or_eq_false_iff] at hok
    match e with
    | .setPin .rst v => exact absurd List.mem_cons_self (hrst v)
    | .transmit bytes .fail => exact absurd hok.1 (by simp [Event.answer?])
    | .transmit bytes .ok | .setPin .dc v | .pinDir _ | .busOpen _ _ | .delay _ | .busClose => exact ih hok.2 hrst'

/-- Nothing is known after a failed transfer, which ends a trace. -/
theorem knownAfter_of_failure {r : Latch} {k : Bool} {es : List Event} (hopen : ∀ cfg a, Event.busOpen cfg a ∉ es)
    (hend : failureEndsTrace es = true) (hfail : hasFailure es = true) : knownAfter r k es = false := by
  induction es generalizing r k with
  | nil => cases hfail
  | cons e es ih =>
    have hopen' : ∀ cfg a, Event.busOpen cfg a ∉ es := fun g a h => hopen g a (List.mem_cons_of_mem _ h)
    match e with
    | .busOpen g a => exact absurd List.mem_cons_self (hopen g a)
    | .transmit bytes .fail =>
      have hnil : es = [] := by simpa [failureEndsTrace, Event.answer?] using hend
      rw [hnil]
      rfl
    | .setPin .rst .low | .setPin .rst .high | .transmit bytes .ok | .setPin .dc v | .pinDir _ | .delay _ | .busClose =>
      exact ih hopen' hend hfail

/-- 43 R212 (2) and (3) of a controller: under the premise it is known exactly if `k`, and known it awaits no parameter. -/
structure Lcdc.Tracks (c : Lcdc) (fresh k : Bool) : Prop where
  known : fresh = true → c.lcdcKnown = k
  idle : c.lcdcKnown = true → c.evPending = .known false

theorem Lcdc.tracks_allUnknown (fresh : Bool) : Lcdc.allUnknown.Tracks fresh false := ⟨fun _ => rfl, nofun⟩

theorem Lcdc.tracks_released (fresh : Bool) : (Lcdc.released fresh).Tracks fresh true := by
  cases fresh
  · exact ⟨nofun, nofun⟩
  · exact ⟨fun _ => rfl, fun _ => rfl⟩

/-- Driving the reset pin high: known from then on, under the premise. -/
theorem Lcdc.Tracks.resetPin_high {c : Lcdc} {fresh k : Bool} (h : c.Tracks fresh k) (r : Latch) :
    (c.resetPin fresh r .high).Tracks fresh (k || r != .driven .high) := by
  match r with
  | .driven .high => simpa using h
  | .driven .low | .x =>
    show (Lcdc.released fresh).Tracks fresh (k || true)
    rw [Bool.or_true]
    exact Lcdc.tracks_released fresh

/-- A trace that opens no bus, does not touch the reset pin and sends a stream that keeps the decoder idle. -/
theorem Lcdc.Tracks.after {c : Lcdc} {fresh k : Bool} (h : c.Tracks fresh k) {r d : Latch} {es : List Event}
    (hopen : ∀ cfg a, Event.busOpen cfg a ∉ es) (hrst : ∀ v, Event.setPin .rst v ∉ es)
    (hend : failureEndsTrace es = true) (hidle : hasFailure es = false → KeepsIdle (taggedStream d es)) :
    (lcdcAfter fresh r d c es).Tracks fresh (knownAfter r k es) := by
  cases hf : hasFailure es with
  | true =>
    rw [lcdcAfter_of_failure hopen hend hf, knownAfter_of_failure hopen hend hf]
    exact Lcdc.tracks_allUnknown fresh
  | false =>
    rw [lcdcAfter_eq_received hf hrst, knownAfter_of_ok hf hrst]
    show (c.receiveStream (taggedStream d es)).Tracks fresh k
    cases hk : c.lcdcKnown with
    | false => rwa [Lcdc.receiveStream_of_unknown hk]
    | true =>
      obtain ⟨hk', hp'⟩ := hidle hf c hk (h.idle hk)
      exact ⟨fun hfresh => by rw [hk', ← hk, h.known hfresh], fun _ => hp'⟩

/-! ## Operations -/

/-- CONSTRUCT's statements after the bus is open (40 R123 to R126). -/
def initScript : List Action := constructScript.drop 5

theorem constructScript_eq :
    constructScript =
      [.pinDir .rst, .pinDir .dc, .pinsAreOutputs, .setPin .rst .high, .busOpen] ++ initScript := rfl

theorem busOpen_not_mem_initScript : Action.busOpen ∉ initScript := by decide

theorem setPin_rst_not_mem_initScript (v : Level) : Action.setPin .rst v ∉ initScript := by cases v <;> decide

theorem taggedStream_initScript (m : Latch) (cfg : BusConfig) :
    taggedStream m (scriptTrace cfg initScript) = inCommandSpace initBytes := rfl

/-- The trace of CONSTRUCT: the pins, then the bus, and if it opens the initialisation sequence. -/
theorem traceFor_constructScript_cases (s : State) :
    (s.nextAnswer = .fail ∧ s.traceFor constructScript =
      [.pinDir .rst, .pinDir .dc, .setPin .rst .high, .busOpen s.seq.binding.busConfig .fail]) ∨
    (s.nextAnswer = .ok ∧ s.traceFor constructScript =
      .pinDir .rst :: .pinDir .dc :: .setPin .rst .high :: .busOpen s.seq.binding.busConfig .ok ::
        traceOf s.seq.binding.busConfig (answerFrom s.env.answers) (s.env.consumed + 1) initScript) := by
  rw [State.traceFor, constructScript_eq, State.nextAnswer_eq]
  simp only [List.cons_append, List.nil_append, traceOf]
  cases answerFrom s.env.answers s.env.consumed with
  | fail => exact .inl ⟨rfl, rfl⟩
  | ok => exact .inr ⟨rfl, rfl⟩

/-- The statements that send: a write of the mode-select pin, or a transfer. -/
def Action.isSend : Action → Bool
  | .setPin .dc _ | .transmit _ _ => true
  | .setPin .rst _ | .pinDir _ | .pinsAreOutputs | .busOpen | .delay _ | .busClose => false

/-- The other operations send, or close the bus. -/
theorem isSend_of_mem_operationScript {i : Instr} (hc : i ≠ .construct) (hr : i ≠ .reset) {s : State} {a : Action}
    (h : a ∈ operationScript s i) : a.isSend = true ∨ a = .busClose := by
  have hall : ∀ s, (runtimeScript s i).all Action.isSend = true := fun s => by
    cases i
    case reset => exact absurd rfl hr
    all_goals simp [runtimeScript, drawScript, pageScript, sendCmd, sendData, Action.isSend]
  unfold operationScript at h
  rw [if_neg hc] at h
  split at h
  · unfold releaseScript at h
    split at h
    · exact .inr (List.mem_singleton.1 h)
    · cases h
  · split at h
    · exact .inl (List.all_eq_true.1 (hall _) a h)
    · cases h

/-- What they send, if nothing fails, keeps the decoder idle. -/
theorem keepsIdle_operationTrace {i : Instr} (hc : i ≠ .construct) {s : State}
    (hok : hasFailure (operationTrace s i) = false) (m : Latch) : KeepsIdle (taggedStream m (operationTrace s i)) := by
  rw [operationTrace, State.traceFor, traceOf_of_hasFailure_eq_false hok]
  rcases scriptTrace_operationScript_cases s.seq.binding.busConfig s i with hw | ⟨hi, _⟩ | ⟨_, hw⟩ | ⟨_, hw⟩ |
    ⟨_, rows, hrows, hw⟩ | ⟨_, hcheck, hw⟩
  · rw [hw]; exact keepsIdle_nil
  · exact absurd hi hc
  · rw [hw]; exact keepsIdle_nil
  · rw [hw]; exact keepsIdle_nil
  · rw [hw, taggedStream_drawTrace]; exact keepsIdle_pagesStream hrows
  · rw [hw, taggedStream_flatMap_commandEvents]; exact keepsIdle_registerBytes hcheck

/-- An operation leaves no parameter awaited, and the controller known exactly as its trace says. -/
theorem Lcdc.Tracks.operation {s : State} {k : Bool} (h : s.lcdc.Tracks s.env.lcdcFresh k) (i : Instr) :
    (lcdcAfter s.env.lcdcFresh s.seq.rst s.seq.dc s.lcdc (operationTrace s i)).Tracks s.env.lcdcFresh
      (knownAfter s.seq.rst k (operationTrace s i)) := by
  by_cases hcon : i = .construct
  · have hreleased := h.resetPin_high s.seq.rst
    subst hcon
    rw [operationTrace_construct]
    rcases traceFor_constructScript_cases s with ⟨_, he⟩ | ⟨_, he⟩ <;> rw [he]
    · exact hreleased
    · refine hreleased.after (d := s.seq.dc) (es := traceOf _ _ _ initScript) (busOpen_not_mem_traceOf busOpen_not_mem_initScript _)
        (fun v => setPin_not_mem_traceOf (setPin_rst_not_mem_initScript v) _) (failureEndsTrace_traceOf _ _ _ _)
        fun hok => ?_
      rw [traceOf_of_hasFailure_eq_false hok, taggedStream_initScript]
      exact keepsIdle_initBytes
  · by_cases hres : i = .reset
    · subst hres
      exact (Lcdc.tracks_allUnknown _).resetPin_high (.driven .low)
    · have hsends : ∀ a : Action, a.isSend = false → a ≠ .busClose → a ∉ operationScript s i := by
        intro a hno hne hmem
        rcases isSend_of_mem_operationScript hcon hres hmem with h | h
        · rw [hno] at h; cases h
        · exact hne h
      have hopen : ∀ g a, Event.busOpen g a ∉ operationTrace s i := busOpen_not_mem_traceOf (hsends .busOpen rfl nofun) _
      have hrst : ∀ v, Event.setPin .rst v ∉ operationTrace s i := fun v =>
        setPin_not_mem_traceOf (hsends (.setPin .rst v) rfl nofun) _
      have hend : failureEndsTrace (operationTrace s i) = true := failureEndsTrace_traceOf _ _ _ _
      exact h.after hopen hrst hend fun hok => keepsIdle_operationTrace hcon hok _

/-- Every host operation keeps the invariants at operation boundaries. -/
theorem Boundary.exec {i : Instr} {s t : State} (hs : Boundary s) (hi : i.isHostOperation = true)
    (h : exec i s = .next t) : Boundary t := by
  have htracks : s.lcdc.Tracks s.env.lcdcFresh (knownAfter .x false s.env.events) := ⟨hs.known, hs.pending⟩
  have hafter := htracks.operation i
  rw [exec_hostOperation hi h]
  refine ⟨hs.hosts, ?_, hafter.idle, fun hf => ?_⟩ <;> simp only [Env.extended]
  · rw [levelAfter_append, ← hs.rst]
  · rw [knownAfter_append, ← hs.rst]
    exact hafter.known hf

/-! ## The statement -/

/-- Settles O5: an operation and a new sequencer keep the invariants, and no byte comes from elsewhere. -/
theorem stepKeepsOperationBoundary : Obligations.StepKeepsOperationBoundary := by
  unfold Obligations.StepKeepsOperationBoundary
  intro s t hs h
  rcases step_cases h with ⟨_, rfl⟩ | ⟨x, rest, hx, hstep⟩
  · exact hs
  · have hhosts : x.isHosts = true ∧ rest.all Input.isHosts = true := by simpa [hx] using hs.hosts
    rcases hstep with ⟨w, payload, i, _, _, hi, hexec⟩ | ⟨m, b, rfl, rfl⟩ | ⟨b, o, f, rfl, rfl, _⟩
    · have hinbox : Boundary (s.withInbox rest) := ⟨hhosts.2, hs.rst, hs.pending, hs.known⟩
      exact hinbox.exec hi hexec
    · exact absurd hhosts.1 nofun
    · exact ⟨hhosts.2, rfl, nofun, fun _ => rfl⟩

end Sys2Proof.Machine
end

section
/-!
SUPPORT. The lifecycle: which requests are accepted, and the ends of CONSTRUCT, RELEASE, RESET and SET_PIXEL_DATA (40 R120
to R129, 41 R140, R141, 60 R231, R234).
-/

namespace Sys2Proof.Machine

/-! ## Acceptance -/

/-- Every host operation is gated by the table of 60 R231, and behind the gate all but a CONSTRUCT with a conflicting
configuration completes. -/
theorem exec_eq_gated {i : Instr} (hi : i.isHostOperation = true) :
    ∃ op, (∀ s, exec i s = gated (acceptedIn i) s op) ∧
      ∀ s, (i = .construct → s.bindingFree = true) → ∃ t, op s = .next t := by
  have hruntime : ∀ j : Instr, (acceptedIn j = fun l => l == .ready) → acceptedIn j = Life.acceptsRuntime :=
    fun j hj => hj.trans (funext fun l => by cases l <;> rfl)
  have hconstruct : acceptedIn .construct = Life.acceptsConstruct := by funext l; cases l <;> rfl
  have hrelease : acceptedIn .release = Life.acceptsRelease := by funext l; cases l <;> rfl
  cases i
  case construct =>
    rw [hconstruct]
    exact ⟨_, fun _ => rfl, fun s hfree => ⟨_, if_pos (hfree rfl)⟩⟩
  case release =>
    rw [hrelease]
    exact ⟨_, fun _ => rfl, fun s _ => ⟨_, rfl⟩⟩
  case reset | setPixelData | flush | draw | setDisplayMode | setDisplayColor | setContrast | setContrastDetail |
      setSleepMode | setPageAddress | setColumnAddress =>
    rw [hruntime _ rfl]
    exact ⟨_, fun _ => rfl, fun s _ => ⟨_, rfl⟩⟩
  all_goals cases hi

theorem acceptedIn_of_exec {i : Instr} (hi : i.isHostOperation = true) {s t : State} (h : exec i s = .next t) :
    acceptedIn i s.seq.life = true := by
  obtain ⟨op, hgate, -⟩ := exec_eq_gated hi
  rw [hgate] at h
  exact (gated_eq_next.1 h).1

/-- A configuration conflicts if its own pins repeat, or it shares a pin or the bus with another live sequencer's. -/
theorem bindingFree_iff (s : State) :
    s.bindingFree = true ↔ s.seq.binding.pins.Nodup ∧
      ∀ o ∈ s.env.others, (∀ p ∈ s.seq.binding.pins, p ∉ o.pins) ∧ s.seq.binding.busInstance ≠ o.busInstance := by
  simp [State.bindingFree, Binding.distinctPins, Binding.disjoint]

theorem exec_construct_of_unbuilt {s : State} (hl : s.seq.life = .unbuilt) :
    exec .construct s =
      if s.bindingFree then .next (constructEnd (runScript s constructScript)) else .refused .bindingConflict := by
  simp only [exec, execConstruct, gated, hl, Life.acceptsConstruct, if_true]

/-! ## RESET and SET_PIXEL_DATA -/

theorem exec_reset {s : State} (hl : s.seq.life = .ready) :
    exec .reset s = .next
      { seq := { s.seq with rst := .driven .high }
        lcdc := Lcdc.released s.env.lcdcFresh
        env := s.env.extended [.setPin .rst .low, .delay Config.tRstLowUs, .setPin .rst .high] .ok } := by
  rw [exec_scripted (i := .reset) rfl hl rfl, runOperation_base]
  rfl

theorem exec_setPixelData {s : State} (hl : s.seq.life = .ready) {payload : List Byte} (hlen : payload.length = 768) :
    exec (.setPixelData payload) s = .next ((s.fbWrite 0 payload).report .ok) := by
  have hcheck : lengthCheck payload = none := if_pos hlen
  have hexec : exec (.setPixelData payload) s =
      .next (runChecked (lengthCheck payload) s fun s => finish (s.fbWrite 0 payload) none) :=
    if_pos (Life.acceptsRuntime_iff.2 hl)
  rw [hexec, hcheck]
  rfl

/-! ## A failed CONSTRUCT -/

/-- The latches and the bus after CONSTRUCT's trace cut at answer k (40 R127). -/
theorem latchesAfter_failAt_initTrace {k : Nat} (h1 : 1 ≤ k) (h15 : k ≤ 15) (d r : Latch) (u : BusState)
    (cfg : BusConfig) :
    levelAfter .dc d (failAt k (initTrace cfg)) = (if k = 1 then d else .driven .low) ∧
    levelAfter .rst r (failAt k (initTrace cfg)) = .driven .high ∧
    busAfter u (failAt k (initTrace cfg)) = (if k = 1 then u else .opened) := by
  interval_cases k <;> simp [initTrace, failAt, commandEvents, levelAfter, busAfter]

/-- The bytes sent before the cut. -/
theorem taggedStream_failAt_initTrace {k : Nat} (h1 : 1 ≤ k) (h15 : k ≤ 15) (m : Latch) (cfg : BusConfig) :
    taggedStream m (failAt k (initTrace cfg)) = (initBytes.take (k - 2)).map (fun b => (.driven .low, b)) := by
  interval_cases k <;> simp [initTrace, failAt, commandEvents, taggedStream, initBytes]

/-- A cut adds no delay. -/
theorem delay_not_mem_failAt {t : Nat} {es : List Event} (h : Event.delay t ∉ es) (n : Nat) :
    Event.delay t ∉ failAt n es := by
  induction es generalizing n with
  | nil => exact h
  | cons e es ih =>
    simp only [List.mem_cons, not_or] at h
    obtain ⟨he, hes⟩ := h
    cases e with
    | busOpen => rw [failAt]; split <;> simp [ih hes]
    | transmit => rw [failAt]; split <;> simp [ih hes]
    | pinDir | setPin | busClose => simp [failAt, ih hes]
    | delay => simpa [failAt, ih hes] using he

/-- The two delays stand after answers 6 and 7 (40 R124, R128). -/
theorem initTrace_eq_delays (cfg : BusConfig) :
    ∃ a b c : List Event, initTrace cfg = a ++ .delay 2000 :: (b ++ .delay 2000 :: c) ∧
      (Event.delay 2000 ∉ a ∧ Event.delay 2000 ∉ b ∧ Event.delay 2000 ∉ c) ∧ answersIn a = 6 ∧ answersIn b = 1 := by
  refine ⟨[.pinDir .rst, .pinDir .dc, .setPin .rst .high, .busOpen cfg .ok] ++
    [0xAE, 0xA0, 0xC8, 0xA3, 0x2C].flatMap commandEvents, [0x2E].flatMap commandEvents,
    [0x2F, 0x23, 0x81, 0x1C, 0xA4, 0x40, 0xA6, 0xAF].flatMap commandEvents, ?_, ?_, rfl, rfl⟩
  · rw [initTrace_eq_parts]
    simp only [List.append_assoc, List.cons_append, List.nil_append]
  · simp [commandEvents]

/-- The delays run before the cut. -/
theorem count_delay_failAt_initTrace {k : Nat} (h1 : 1 ≤ k) (cfg : BusConfig) :
    (failAt k (initTrace cfg)).count (.delay 2000) = (if k ≤ 6 then 0 else if k = 7 then 1 else 2) := by
  obtain ⟨a, b, c, htrace, ⟨ha, hb, hc⟩, hna, hnb⟩ := initTrace_eq_delays cfg
  have hcount : ∀ {es : List Event}, Event.delay 2000 ∉ es → ∀ n, (failAt n es).count (.delay 2000) = 0 :=
    fun h n => List.count_eq_zero.2 (delay_not_mem_failAt h n)
  rw [htrace, failAt_append h1, hna]
  by_cases h6 : k ≤ 6
  · rw [if_pos h6, if_pos h6, hcount ha]
  · rw [if_neg h6, if_neg h6, List.count_append, List.count_eq_zero.2 ha, failAt, List.count_cons_self,
      failAt_append (by omega), hnb]
    by_cases h7 : k = 7
    · rw [if_pos h7, if_pos (by omega), hcount hb]
    · rw [if_neg h7, if_neg (by omega), List.count_append, List.count_eq_zero.2 hb, failAt, List.count_cons_self,
        hcount hc]

/-- The controller after a failed CONSTRUCT: released if the bus did not open, unknown after a failed transfer. -/
theorem lcdcAfter_constructTrace_of_fail {s : State} (hrst : s.seq.rst = .x) {k : Nat} (h15 : k ≤ 15)
    (hf : FirstFail s k) :
    lcdcAfter s.env.lcdcFresh s.seq.rst s.seq.dc s.lcdc (s.traceFor constructScript) =
      if k = 1 then Lcdc.released s.env.lcdcFresh else Lcdc.allUnknown := by
  obtain ⟨h1, hok, hfail⟩ := hf
  rw [hrst]
  rcases traceFor_constructScript_cases s with ⟨ha, he⟩ | ⟨ha, he⟩
  · have hk : k = 1 := by
      by_contra hne
      have hfirst := hok 0 (by omega)
      rw [Nat.add_zero] at hfirst
      rw [State.nextAnswer, hfirst] at ha
      cases ha
    rw [he, if_pos hk]
    rfl
  · have hk : k ≠ 1 := by
      rintro rfl
      rw [State.nextAnswer] at ha
      rw [Nat.sub_self, Nat.add_zero, ha] at hfail
      cases hfail
    have hanswers : k ≤ answersIn (initTrace s.seq.binding.busConfig) := by rw [answersIn_initTrace]; exact h15
    have htrace := runScript_of_fail (s := s) (scriptTrace_constructScript _) ⟨h1, hok, hfail⟩ hanswers
    have hrest : hasFailure (traceOf s.seq.binding.busConfig (answerFrom s.env.answers) (s.env.consumed + 1) initScript) =
        true := by
      have hcut := (failAt_failure h1 hanswers (hasFailure_initTrace _)).1
      rw [← htrace, he] at hcut
      exact hcut
    rw [he, if_neg hk]
    exact lcdcAfter_of_failure (d := s.seq.dc) (es := traceOf _ _ _ initScript) (busOpen_not_mem_traceOf busOpen_not_mem_initScript _)
      (failureEndsTrace_traceOf _ _ _ _) hrest

/-! ## The statements -/

/-- Settles O14: the gate of each operation is the table. -/
theorem lifecycleGatesRequests : Obligations.LifecycleGatesRequests := by
  unfold Obligations.LifecycleGatesRequests
  refine ⟨fun i s hi => ?_, fun s w payload rest hinbox => ?_⟩
  · obtain ⟨op, hgate, hop⟩ := exec_eq_gated hi
    rw [hgate, gated]
    exact ⟨fun h => if_neg (by simp [h]), fun h hfree => by rw [if_pos h]; exact hop s hfree⟩
  · rw [step_of_pending hinbox]
    rfl

/-- Settles O15: the two halves are what `bindingFree` says and denies. -/
theorem constructRefusesOverlappingConfiguration : Obligations.ConstructRefusesOverlappingConfiguration := by
  unfold Obligations.ConstructRefusesOverlappingConfiguration
  intro s hl
  rw [exec_construct_of_unbuilt hl]
  refine ⟨fun hconflict => if_neg fun hfree => ?_, fun hfree => ⟨_, if_pos ((bindingFree_iff s).2 hfree)⟩⟩
  obtain ⟨hpins, hothers⟩ := (bindingFree_iff s).1 hfree
  rcases hconflict with h | ⟨o, ho, ⟨p, hp, hpo⟩ | hbus⟩
  · exact h hpins
  · exact (hothers o ho).1 p hp hpo
  · exact (hothers o ho).2 hbus

/-- Settles O29: the whole trace of CONSTRUCT, and what it makes of latches, bus and controller. -/
theorem constructBringsUpController : Obligations.ConstructBringsUpController := by
  unfold Obligations.ConstructBringsUpController
  intro s hl hrst hfree hok
  refine ⟨?_, length_initTrace _, taggedStream_initTrace _ _⟩
  obtain ⟨htrace, hfail, -⟩ := runScript_of_ok (s := s) (scriptTrace_constructScript _)
    (by rw [answersIn_initTrace]; exact hok)
  obtain ⟨hdc, hrst', hbus⟩ := latchesAfter_initTrace s.seq.dc .x s.seq.bus s.seq.binding.busConfig
  rw [exec_construct_of_unbuilt hl, if_pos hfree, constructEnd_parts, htrace, hfail, hrst, hdc, hrst', hbus,
    lcdcAfter_initTrace]
  rfl

/-- Settles O30: the trace is cut at the first failure, and says what latches, bus and controller are. -/
theorem constructFailureEndsInFailed : Obligations.ConstructFailureEndsInFailed := by
  unfold Obligations.ConstructFailureEndsInFailed
  intro s k hl hrst hfree h15 hf
  refine ⟨?_, taggedStream_failAt_initTrace hf.1 h15 _ _, count_delay_failAt_initTrace hf.1 _⟩
  have hanswers : k ≤ answersIn (initTrace s.seq.binding.busConfig) := by rw [answersIn_initTrace]; exact h15
  have htrace := runScript_of_fail (s := s) (scriptTrace_constructScript _) hf hanswers
  have hfail := (failAt_failure hf.1 hanswers (hasFailure_initTrace _)).1
  obtain ⟨hdc, hrst', hbus⟩ :=
    latchesAfter_failAt_initTrace hf.1 h15 s.seq.dc s.seq.rst s.seq.bus s.seq.binding.busConfig
  have hlcdc : (if k = 1 then Lcdc.released s.env.lcdcFresh else Lcdc.allUnknown) =
      if k = 1 ∧ s.env.lcdcFresh = true then { Lcdc.allUnknown with lcdcKnown := true, evPending := .known false }
      else Lcdc.allUnknown := by
    cases s.env.lcdcFresh <;> simp [Lcdc.released]
  rw [exec_construct_of_unbuilt hl, if_pos hfree, constructEnd_parts, lcdcAfter_constructTrace_of_fail hrst h15 hf,
    htrace, hfail, hdc, hrst', hbus, hlcdc]
  rfl

/-- Settles O31. -/
theorem releaseClosesBus : Obligations.ReleaseClosesBus := by
  unfold Obligations.ReleaseClosesBus
  refine fun s => ⟨fun hl => ?_, fun hl => ?_⟩
  · rw [← releaseEnd_eq]
    exact if_pos (Life.acceptsRelease_iff.2 hl)
  · refine if_neg fun hacc => ?_
    rcases Life.acceptsRelease_iff.1 hacc with h | h <;> rw [h] at hl <;> simp at hl

/-- Settles O32: the pulse leaves what a release of the pin leaves. -/
theorem resetPulsesPin : Obligations.ResetPulsesPin := by
  unfold Obligations.ResetPulsesPin
  exact fun s hl => exec_reset hl

/-- Settles O33: the payload is the framebuffer's first 768 bytes. -/
theorem setPixelDataLoadsFramebuffer : Obligations.SetPixelDataLoadsFramebuffer := by
  unfold Obligations.SetPixelDataLoadsFramebuffer
  refine fun s payload hl => ⟨fun hlen => ⟨s.seq.fb.putBytes 0 payload, ?_, fun p c hp hc => ?_⟩, fun hlen => ?_⟩
  · rw [exec_setPixelData hl hlen]
    simp [State.fbWrite, State.report, Env.extended]
  · have hlt : 128 * p + c < payload.length := by omega
    rw [List.getElem?_eq_getElem hlt]
    exact congrArg some (State.fbByte_fbWrite s payload hlt).symm
  · exact exec_eq_rejected hl ⟨.length, if_neg hlen⟩

end Sys2Proof.Machine
end

section
/-!
SUPPORT. The runtime operations that run a script: their end state, a trace of transfers cut at a failure, and the
statements on 41_paging_engine.
-/

namespace Sys2Proof.Machine

/-! ## The end of a runtime operation -/

/-- A runtime operation other than RESET adds its trace; of the sequencer FLUSH's framebuffer and DC change (60 R225). -/
theorem exec_runtime {i : Instr} (hs : isScripted i = true) (hr : i ≠ .reset) {s : State} (hl : s.seq.life = .ready)
    (hc : operandCheck i = none) :
    exec i s = .next
      { seq := { s.seq with fb := (scriptBase s i).seq.fb, dc := levelAfter .dc s.seq.dc (runtimeTrace s i) }
        lcdc := lcdcAfter s.env.lcdcFresh s.seq.rst s.seq.dc s.lcdc (runtimeTrace s i)
        env := s.env.extended (runtimeTrace s i) (resultOf (runtimeTrace s i)) } := by
  rw [exec_scripted hs hl hc, runOperation_base, levelAfter_rst_runtimeTrace, if_neg hr, busAfter_runtimeTrace]

/-- One whose trace ends in a failure is aborted there. -/
theorem exec_runtime_of_failure {i : Instr} (hs : isScripted i = true) (hr : i ≠ .reset) {s : State}
    (hl : s.seq.life = .ready) (hc : operandCheck i = none) {es : List Event} (hes : runtimeTrace s i = es)
    (hfail : hasFailure es = true) {l : Level} (hdc : levelAfter .dc s.seq.dc es = .driven l) :
    exec i s = .next (State.aborted { s with seq := { s.seq with fb := (scriptBase s i).seq.fb } } es l) := by
  subst hes
  rw [exec_runtime hs hr hl hc, lcdcAfter_runtimeTrace_of_failure hfail, hdc, resultOf, if_pos hfail]
  rfl

/-! ## A trace of transfers -/

/-- One transfer answered `ok`: the level of DC, then the bytes. -/
def transferEvents (x : Level × List Byte) : List Event := [.setPin .dc x.1, .transmit x.2 .ok]

/-- Cut at its transfer n, counted from 0, a trace of transfers is those before it, and this one failed. -/
theorem failAt_transfers (xs : List (Level × List Byte)) {n : Nat} (h : n < xs.length) :
    failAt (n + 1) (xs.flatMap transferEvents) =
      (xs.take n).flatMap transferEvents ++ [.setPin .dc xs[n].1, .transmit xs[n].2 .fail] := by
  induction xs generalizing n with
  | nil => cases h
  | cons x xs ih =>
    rw [List.flatMap_cons, transferEvents]
    cases n with
    | zero => rfl
    | succ n =>
      simp only [List.cons_append, List.nil_append, failAt, List.take_succ_cons, List.flatMap_cons, transferEvents,
        List.getElem_cons_succ, if_neg (show ¬ n + 1 + 1 = 1 by omega), Nat.add_sub_cancel]
      rw [ih (by simpa using h)]

theorem length_flatMap_transferEvents (xs : List (Level × List Byte)) :
    (xs.flatMap transferEvents).length = 2 * xs.length := by
  simp [transferEvents, List.length_flatMap, Nat.mul_comm]

theorem take_flatMap_transferEvents (xs : List (Level × List Byte)) (n : Nat) :
    (xs.flatMap transferEvents).take (2 * n) = (xs.take n).flatMap transferEvents := by
  induction xs generalizing n with
  | nil => simp
  | cons x xs ih =>
    cases n with
    | zero => rfl
    | succ n =>
      rw [List.flatMap_cons, List.take_succ_cons, List.flatMap_cons, ← ih n, transferEvents]
      rfl

theorem taggedStream_append (m : Latch) (xs ys : List Event) :
    taggedStream m (xs ++ ys) = taggedStream m xs ++ taggedStream (levelAfter .dc m xs) ys := by
  induction xs generalizing m with
  | nil => rfl
  | cons e xs ih =>
    match e with
    | .transmit bytes .ok => simp only [List.cons_append, taggedStream, levelAfter, ih, List.append_assoc]
    | .setPin .dc v | .transmit _ .fail | .setPin .rst _ | .pinDir _ | .busOpen _ _ | .delay _ | .busClose => exact ih _

/-- The 24 transfers of a draw (41 R143). -/
def drawTransfers (rows : Nat → List Byte) : List (Level × List Byte) :=
  [0, 1, 2, 3, 4, 5].flatMap fun p => [(.low, [0xB0 ||| BitVec.ofNat 8 p]), (.low, [0x10]), (.low, [0x00]), (.high, rows p)]

theorem drawTrace_eq_transfers (rows : Nat → List Byte) : drawTrace rows = (drawTransfers rows).flatMap transferEvents := rfl

theorem length_drawTransfers (rows : Nat → List Byte) : (drawTransfers rows).length = 24 := rfl

/-- Each fourth transfer of a draw is a page's data, the others are command bytes. -/
theorem drawTransfers_level (rows : Nat → List Byte) {n : Nat} (h : n < (drawTransfers rows).length) :
    (drawTransfers rows)[n].1 = if n % 4 = 3 then .high else .low := by
  have h24 : n < 24 := h
  interval_cases n <;> rfl

/-- A draw's trace cut at transfer j, counted from 1. -/
theorem failAt_drawTrace (rows : Nat → List Byte) {j : Nat} (h1 : 1 ≤ j) (h24 : j ≤ 24) :
    ∃ bytes, failAt j (drawTrace rows) =
      (drawTrace rows).take (2 * (j - 1)) ++
        [.setPin .dc (if (j - 1) % 4 = 3 then .high else .low), .transmit bytes .fail] := by
  have hlt : j - 1 < (drawTransfers rows).length := by rw [length_drawTransfers]; omega
  have hcut := failAt_transfers (drawTransfers rows) hlt
  rw [Nat.sub_add_cancel h1, drawTransfers_level rows hlt, ← take_flatMap_transferEvents, ← drawTrace_eq_transfers] at hcut
  exact ⟨_, hcut⟩

/-! ## The trace of DRAW and of FLUSH -/

theorem runtimeTrace_draw_of_ok {s : State} (h : AnswersOk s 24) : runtimeTrace s .draw = drawTrace s.fbPage :=
  (runScript_of_ok (s := s) (scriptTrace_drawScript _ s) (by rwa [answersIn_drawTrace])).1

theorem runtimeTrace_draw_of_fail {s : State} {j : Nat} (h : FirstFail s j) (h24 : j ≤ 24) :
    runtimeTrace s .draw = failAt j (drawTrace s.fbPage) :=
  runScript_of_fail (s := s) (scriptTrace_drawScript _ s) h (by rwa [answersIn_drawTrace])

theorem runtimeTrace_flush_of_fail {s : State} {j : Nat} (h : FirstFail s j) (h24 : j ≤ 24) :
    runtimeTrace s .flush = failAt j (drawTrace fun _ => List.replicate 128 0) := by
  have hbase : runtimeTrace s .flush = s.fbClear.traceFor (drawScript s.fbClear) := by
    rw [State.traceFor, State.fbClear_env, State.fbClear_binding]
    rfl
  rw [hbase, ← drawTrace_congr fun p hp => State.fbPage_fbClear s hp]
  exact runScript_of_fail (scriptTrace_drawScript _ _) (firstFail_fbClear.2 h) (by rwa [answersIn_drawTrace])

/-- A cut draw fails, and leaves DC as its last transfer needs it. -/
theorem failAt_drawTrace_end (rows : Nat → List Byte) {j : Nat} (h1 : 1 ≤ j) (h24 : j ≤ 24) (l : Latch) :
    hasFailure (failAt j (drawTrace rows)) = true ∧
      levelAfter .dc l (failAt j (drawTrace rows)) = .driven (if (j - 1) % 4 = 3 then .high else .low) := by
  obtain ⟨bytes, hcut⟩ := failAt_drawTrace rows h1 h24
  refine ⟨(failAt_failure h1 (by rwa [answersIn_drawTrace]) (hasFailure_drawTrace rows)).1, ?_⟩
  rw [hcut, levelAfter_append]
  rfl

/-- A draw of rows of 128 bytes to a known controller that awaits no parameter (41 R144). -/
theorem State.drawn_lcdc_of_known {s : State} (hk : s.lcdc.lcdcKnown = true) (hp : s.lcdc.evPending = .known false)
    {rows : Nat → List Byte} (hrows : ∀ p, (rows p).length = 128) :
    ∃ m, (s.drawn rows).lcdc = { s.lcdc with ddram := m, pa := .known 5, caHi := .unknown, caLo := .unknown } ∧
      ∀ p q, p ≤ 5 → q ≤ 127 → m.get? (linear p q) = (rows p)[q]? := by
  obtain ⟨m, hm, hget, -⟩ := Lcdc.receiveStream_pagesStream hk hp hrows
  rw [← taggedStream_drawTrace s.seq.dc] at hm
  exact ⟨m, hm, hget⟩

/-! ## The statements on 41_paging_engine -/

/-- Settles O34: the trace of a draw is that of its 24 transfers, whole or cut. -/
theorem drawSendsFramebuffer : Obligations.DrawSendsFramebuffer := by
  unfold Obligations.DrawSendsFramebuffer
  intro s hl
  refine ⟨exec_draw_of_ok hl, fun j h24 hf => ?_, length_drawTrace _, answersIn_drawTrace _, ?_, State.fbPage_eq s⟩
  · obtain ⟨hfail, hdc⟩ := failAt_drawTrace_end s.fbPage hf.1 h24 s.seq.dc
    exact ⟨_, _, exec_runtime_of_failure (i := .draw) rfl nofun hl rfl (runtimeTrace_draw_of_fail hf h24) hfail hdc⟩
  · rw [taggedStream_drawTrace]
    simp [pagesStream, inCommandSpace, inDataSpace, List.range_succ]

/-- Settles O35: every page is written to its row of the display RAM. -/
theorem pagingFillsDisplayRam : Obligations.PagingFillsDisplayRam := by
  unfold Obligations.PagingFillsDisplayRam
  intro s hl hk hp hok
  refine ⟨⟨_, exec_draw_of_ok hl hok, ?_⟩, ⟨_, exec_flush_of_ok hl hok, ?_⟩⟩
  · obtain ⟨m, hm, hget⟩ := State.drawn_lcdc_of_known hk hp s.fbPage_length
    rw [hm]
    refine ⟨rfl, rfl, fun p c h5 h127 => ⟨?_, State.fbByte_drawn _ _ _⟩, rfl⟩
    rw [Lcdc.cell_eq_get?, State.fbByte_drawn]
    show ((m.get? (linear p c)).map Shadow.known).getD .unknown = _
    rw [hget p c h5 h127, State.fbPage_getElem? s p h127]
    rfl
  · obtain ⟨m, hm, hget⟩ := State.drawn_lcdc_of_known (s := s.fbClear) (rows := fun _ => List.replicate 128 0)
      (by rwa [State.fbClear_lcdc]) (by rwa [State.fbClear_lcdc]) fun _ => List.length_replicate
    rw [hm, State.fbClear_lcdc]
    refine ⟨rfl, rfl, fun p c h5 h127 => ⟨?_, ?_⟩, rfl⟩
    · rw [Lcdc.cell_eq_get?]
      show ((m.get? (linear p c)).map Shadow.known).getD .unknown = _
      rw [hget p c h5 h127, List.getElem?_replicate, if_pos (by omega)]
      rfl
    · rw [State.fbByte_drawn, State.fbByte_fbClear s (by omega)]

/-- Settles O36: the cut trace is the transfers before the failed one, and that one. -/
theorem pagingAbortsOnFirstFailure : Obligations.PagingAbortsOnFirstFailure := by
  unfold Obligations.PagingAbortsOnFirstFailure
  intro s j hl h24 hf
  refine ⟨?_, ⟨s.fbClear.seq.fb, ?_, fun a ha => ?_⟩, fun rows => ⟨?_, ?_, ?_⟩⟩
  · obtain ⟨hfail, hdc⟩ := failAt_drawTrace_end s.fbPage hf.1 h24 s.seq.dc
    exact exec_runtime_of_failure (i := .draw) rfl nofun hl rfl (runtimeTrace_draw_of_fail hf h24) hfail hdc
  · obtain ⟨hfail, hdc⟩ := failAt_drawTrace_end (fun _ => List.replicate 128 0) hf.1 h24 s.seq.dc
    exact exec_runtime_of_failure (i := .flush) rfl nofun hl rfl (runtimeTrace_flush_of_fail hf h24) hfail hdc
  · rw [State.fbByte_congr (s := s.fbClear) (by dsimp only) (by dsimp only; rw [State.fbClear_env]),
      State.fbByte_fbClear s ha]
  · obtain ⟨bytes, hcut⟩ := failAt_drawTrace rows hf.1 h24
    have h1 := hf.1
    rw [hcut, List.length_append, List.length_take, length_drawTrace, List.length_cons, List.length_singleton]
    omega
  · exact (failAt_failure hf.1 (by rwa [answersIn_drawTrace]) (hasFailure_drawTrace rows)).2.2
  · obtain ⟨bytes, hcut⟩ := failAt_drawTrace rows hf.1 h24
    rw [hcut, taggedStream_append]
    exact List.append_nil _

/-- Settles O38: with the same pages and answers both draws leave the same trace, whole or cut at the same transfer. -/
theorem drawDependsOnFramebufferAlone : Obligations.DrawDependsOnFramebufferAlone := by
  unfold Obligations.DrawDependsOnFramebufferAlone
  intro s₁ s₂ t₁ t₂ hfb hans h₁ h₂
  have hpages : drawTrace s₂.fbPage = drawTrace s₁.fbPage := drawTrace_congr fun p hp => by
    rw [State.fbPage_eq, State.fbPage_eq]
    exact List.map_congr_left fun i hi => (hfb _ (by have := List.mem_range.1 hi; omega)).symm
  have htrace : runtimeTrace s₁ .draw = runtimeTrace s₂ .draw := by
    rcases answersOk_or_firstFail s₁ 24 with hok | ⟨j, h24, h1, hok, hfail⟩
    · have hok₂ : AnswersOk s₂ 24 := fun k hk => by rw [← hans k hk]; exact hok k hk
      rw [runtimeTrace_draw_of_ok hok, runtimeTrace_draw_of_ok hok₂, hpages]
    · have hf₂ : FirstFail s₂ j := ⟨h1, fun k hk => by rw [← hans k (by omega)]; exact hok k hk,
        by rw [← hans _ (by omega)]; exact hfail⟩
      rw [runtimeTrace_draw_of_fail ⟨h1, hok, hfail⟩ h24, runtimeTrace_draw_of_fail hf₂ h24, hpages]
  refine ⟨runtimeTrace s₁ .draw, ?_, ?_⟩
  · rw [exec_addsTrace h₁, operationTrace_of_scripted rfl rfl]
  · rw [exec_addsTrace h₂, operationTrace_of_scripted rfl rfl, htrace]

end Sys2Proof.Machine
end

section
/-!
SUPPORT. The statements on 42_register_ops, and the repetition of a runtime operation (20_memory R67).
-/

namespace Sys2Proof.Machine

/-! ## The register-setting operations -/

/-- With its transfers answered `ok`, a register-setting operation sets its register. -/
theorem exec_registerOperation_of_known {i : Instr} {s : State} {bs : List Byte} (hb : registerBytes i = bs)
    (hne : bs ≠ []) (hl : s.seq.life = .ready) (hk : s.lcdc.lcdcKnown = true) (hp : s.lcdc.evPending = .known false)
    (hc : operandCheck i = none) (h : AnswersOk s bs.length) :
    exec i s = .next (s.sent bs (registerEffect i s.lcdc)) := by
  subst hb
  rw [exec_registerOperation_of_ok hne hl hc h, Lcdc.receiveAll_registerBytes hk hp hc]

/-- One whose only transfer fails is aborted there. -/
theorem exec_registerOperation_of_fail_one {i : Instr} {s : State} {b : Byte} (hb : registerBytes i = [b])
    (hl : s.seq.life = .ready) (hc : operandCheck i = none) (h : FirstFail s 1) :
    exec i s = .next (s.aborted [.setPin .dc .low, .transmit [b] .fail] .low) := by
  have hne : registerBytes i ≠ [] := by rw [hb]; nofun
  rw [exec_registerOperation_of_fail hne hl hc (by rw [hb]; rfl) h, hb]
  rfl

theorem ratioCheck_none {a : Byte} (h : a ≤ 7) : operandCheck (.setContrast a) = none := if_neg (BitVec.not_lt.2 h)

theorem pageCheck_none {a : Byte} (h : a ≤ 15) : operandCheck (.setPageAddress a) = none := if_neg (BitVec.not_lt.2 h)

/-- Settles O39: each is a register-setting operation of one byte. -/
theorem twoValuedOperationsSendOneByte : Obligations.TwoValuedOperationsSendOneByte := by
  unfold Obligations.TwoValuedOperationsSendOneByte
  refine fun s hl => ⟨fun hok hk hp => ⟨?_, ?_, ?_, ?_, ?_, ?_⟩, fun hf => ⟨?_, ?_, ?_, ?_, ?_, ?_⟩⟩
  iterate 6 exact exec_registerOperation_of_known rfl nofun hl hk hp rfl hok
  iterate 6 exact exec_registerOperation_of_fail_one rfl hl rfl hf

/-- Settles O40: each is a register-setting operation of one byte, or fails its check. -/
theorem contrastAndPageSendOneByte : Obligations.ContrastAndPageSendOneByte := by
  unfold Obligations.ContrastAndPageSendOneByte
  refine fun s arg hl => ⟨fun h => ?_, fun h => ?_, fun hok hk hp => ⟨fun h => ?_, fun h => ?_⟩,
    fun hf => ⟨fun h => ⟨Lcdc.allUnknown, ?_⟩, fun h => ⟨Lcdc.allUnknown, ?_⟩⟩⟩
  · exact exec_eq_rejected hl ⟨.ratio, if_pos h⟩
  · exact exec_eq_rejected hl ⟨.page, if_pos h⟩
  · rw [← ratioByte_eq h]
    exact exec_registerOperation_of_known rfl nofun hl hk hp (ratioCheck_none h) hok
  · rw [← pageByte_eq h]
    exact exec_registerOperation_of_known rfl nofun hl hk hp (pageCheck_none h) hok
  · rw [← ratioByte_eq h]
    exact exec_registerOperation_of_fail_one rfl hl (ratioCheck_none h) hf
  · rw [← pageByte_eq h]
    exact exec_registerOperation_of_fail_one rfl hl (pageCheck_none h) hf

/-! ## A runtime operation that returns OK -/

/-- The controller has received the operation's line of the expansion table. -/
theorem lcdcAfter_runtimeTrace_of_ok {i : Instr} (hs : isScripted i = true) (hr : i ≠ .reset) {s : State}
    (hc : operandCheck i = none) (hok : hasFailure (runtimeTrace s i) = false) :
    lcdcAfter s.env.lcdcFresh s.seq.rst s.seq.dc s.lcdc (runtimeTrace s i) = s.lcdc.receiveStream (expansion s i) := by
  have hcon : i ≠ .construct := by rintro rfl; cases hs
  have hscript : ∀ v, Action.setPin .rst v ∉ operationScript s i := fun v hmem => by
    rcases isSend_of_mem_operationScript hcon hr hmem with h | h <;> cases h
  have hrst : ∀ v, Event.setPin .rst v ∉ runtimeTrace s i := fun v => by
    rw [← operationTrace_of_scripted hs hc]
    exact setPin_not_mem_traceOf (hscript v) _
  have hstream : taggedStream s.seq.dc (runtimeTrace s i) = expansion s i := by
    rw [runtimeTrace, traceOf_of_hasFailure_eq_false hok, taggedStream_runtimeScript hs]
  rw [lcdcAfter_eq_received hok hrst, hstream]
  rfl

theorem expansion_of_registerBytes {i : Instr} (hi : registerBytes i ≠ []) (s : State) :
    expansion s i = inCommandSpace (registerBytes i) := by
  cases i
  case setDisplayMode sel => cases sel <;> rfl
  case setDisplayColor sel => cases sel <;> rfl
  case setSleepMode sel => cases sel <;> rfl
  case setContrast | setContrastDetail | setPageAddress | setColumnAddress => rfl
  all_goals exact absurd rfl hi

/-- An operation that runs a script runs in READY. -/
theorem ready_of_exec {i : Instr} (hs : isScripted i = true) {s t : State} (h : exec i s = .next t) :
    s.seq.life = .ready := by
  cases i
  case reset | flush | draw | setDisplayMode | setDisplayColor | setContrast | setContrastDetail | setSleepMode |
      setPageAddress | setColumnAddress => exact beq_iff_eq.1 (acceptedIn_of_exec rfl h)
  all_goals cases hs

/-! ## The frame of the register-setting operations -/

/-- The framebuffer is not looked at. -/
theorem exec_registerOperation_fb {i : Instr} (hi : registerBytes i ≠ []) {s t : State} (h : exec i s = .next t)
    (fb : Memory) :
    exec i { s with seq := { s.seq with fb := fb } } = .next { t with seq := { t.seq with fb := fb } } := by
  obtain ⟨hs, -⟩ := scripted_of_registerBytes hi
  have hl := ready_of_exec hs h
  cases hc : operandCheck i with
  | some cause =>
    rw [exec_eq_rejected hl ⟨cause, hc⟩] at h
    cases h
    exact exec_eq_rejected (s := { s with seq := { s.seq with fb := fb } }) hl ⟨cause, hc⟩
  | none =>
    rw [exec_registerOperation hi hl hc] at h
    cases h
    rw [exec_registerOperation (s := { s with seq := { s.seq with fb := fb } }) hi hl hc, runtimeTrace_eq_traceFor hi,
      runtimeTrace_eq_traceFor hi]
    rfl

/-- The display RAM is kept, if no transfer fails. -/
theorem cell_of_registerOperation {i : Instr} (hc : operandCheck i = none) {c : Lcdc}
    (hidle : c.lcdcKnown = true → c.evPending = .known false) (p q : Nat) :
    (c.receiveStream (inCommandSpace (registerBytes i))).cell p q = c.cell p q := by
  cases hk : c.lcdcKnown with
  | false => rw [Lcdc.receiveStream_of_unknown hk]
  | true =>
    obtain ⟨-, -, hddram⟩ := registerEffect_frame i c
    rw [Lcdc.receiveStream_inCommandSpace, Lcdc.receiveAll_registerBytes hk (hidle hk) hc, Lcdc.cell_eq_get?,
      hddram, Lcdc.cell_eq_get?]

/-- Settles O44: an operation is rejected, fails, or sends its bytes. -/
theorem registerOperationsFrame : Obligations.RegisterOperationsFrame := by
  unfold Obligations.RegisterOperationsFrame
  intro i s t hseven h
  have hi : registerBytes i ≠ [] := by
    rcases hseven with ⟨_, rfl⟩ | ⟨_, rfl⟩ | ⟨_, rfl⟩ | ⟨_, rfl⟩ | ⟨_, rfl⟩ | ⟨_, rfl⟩ | ⟨_, rfl⟩ <;> exact nofun
  obtain ⟨hs, -, hreset, -⟩ := scripted_of_registerBytes hi
  have hl := ready_of_exec hs h
  refine (and_left_comm).1 ⟨exec_registerOperation_fb hi h, ?_⟩
  cases hc : operandCheck i with
  | some cause =>
    rw [exec_eq_rejected hl ⟨cause, hc⟩] at h
    cases h
    exact ⟨.inl ⟨rfl, rfl⟩, fun _ => .inr fun _ _ => rfl⟩
  | none =>
    rw [exec_registerOperation hi hl hc] at h
    cases h
    cases hf : hasFailure (runtimeTrace s i) with
    | true =>
      have hres : resultOf (runtimeTrace s i) = .errTransport := if_pos hf
      rw [hres, lcdcAfter_runtimeTrace_of_failure hf]
      exact ⟨.inr ⟨.inr rfl, rfl⟩, fun _ => .inl ⟨rfl, rfl⟩⟩
    | false =>
      rw [resultOf_eq_ok_iff.2 hf, lcdcAfter_runtimeTrace_of_ok hs hreset hc hf, expansion_of_registerBytes hi]
      exact ⟨.inr ⟨.inl rfl, rfl⟩, fun hidle => .inr (cell_of_registerOperation hc hidle)⟩

/-! ## Repetition -/

theorem Memory.get?_of_below {m : Memory} {n k : Nat} (hm : m.below n = true) (h : n ≤ k) : m.get? k = none := by
  induction m with
  | nil => rfl
  | cons c rest ih =>
    obtain ⟨j, v⟩ := c
    simp only [Memory.below, List.all_cons, Bool.and_eq_true, decide_eq_true_eq] at hm ih
    rw [Memory.get?, if_neg (by omega), ih hm.2]

/-- Writing a string twice is writing it once. -/
theorem Memory.putBytes_idem {m : Memory} (hm : m.wf = true) (a : Nat) (bs : List Byte) :
    (m.putBytes a bs).putBytes a bs = m.putBytes a bs := by
  refine Memory.ext_of_wf (Memory.putBytes_wf (Memory.putBytes_wf hm _ _) _ _) (Memory.putBytes_wf hm _ _) fun k => ?_
  rw [Memory.get?_putBytes, Memory.get?_putBytes]
  split <;> rfl

/-- Two memories in order and inside the window that hold the same cells of the window are the same. -/
theorem Memory.ext_of_window {m m' : Memory} (hm : m.wf = true) (hm' : m'.wf = true)
    (hb : m.below Config.params.fbSize = true) (hb' : m'.below Config.params.fbSize = true)
    (h : ∀ p q, p ≤ 5 → q ≤ 127 → m.get? (linear p q) = m'.get? (linear p q)) : m = m' := by
  refine Memory.ext_of_wf hm hm' fun k => ?_
  by_cases hk : k < 768
  · have hlinear : linear (k / 128) (k % 128) = k := Nat.div_add_mod k 128
    rw [← hlinear]
    exact h _ _ (by omega) (by omega)
  · rw [Memory.get?_of_below hb (Nat.le_of_not_lt hk), Memory.get?_of_below hb' (Nat.le_of_not_lt hk)]

/-- Six pages sent twice are six pages sent once. -/
theorem Lcdc.receiveStream_pagesStream_idem {c : Lcdc} (hok : c.Ok) (hk : c.lcdcKnown = true)
    (hp : c.evPending = .known false) {rows : Nat → List Byte} (hrows : ∀ p, (rows p).length = 128) :
    (c.receiveStream (pagesStream rows)).receiveStream (pagesStream rows) = c.receiveStream (pagesStream rows) := by
  obtain ⟨m, hm, hget, hwf, hbelow⟩ := Lcdc.receiveStream_pagesStream hk hp hrows
  rw [hm]
  obtain ⟨m', hm', hget', hwf', hbelow'⟩ := Lcdc.receiveStream_pagesStream
    (c := { c with ddram := m, pa := .known 5, caHi := .unknown, caLo := .unknown }) hk hp hrows
  obtain ⟨hcwf, hcbelow⟩ := hok.ddram
  have hsame : m' = m := Memory.ext_of_window (hwf' (hwf hcwf)) (hwf hcwf) (hbelow' (hbelow hcbelow)) (hbelow hcbelow)
    fun p q h5 h127 => by rw [hget p q h5 h127, hget' p q h5 h127]
  rw [hm', hsame]

/-- An operation's stream sent twice is sent once. -/
theorem Lcdc.receiveStream_expansion_idem {c : Lcdc} (hok : c.Ok)
    (hidle : c.lcdcKnown = true → c.evPending = .known false) {i : Instr} (hs : isScripted i = true)
    (hc : operandCheck i = none) (s : State) :
    (c.receiveStream (expansion s i)).receiveStream (expansion s i) = c.receiveStream (expansion s i) := by
  cases hk : c.lcdcKnown with
  | false => rw [Lcdc.receiveStream_of_unknown hk, Lcdc.receiveStream_of_unknown hk]
  | true =>
    have hp := hidle hk
    by_cases hreg : registerBytes i ≠ []
    · obtain ⟨hknown, hpending, -⟩ := registerEffect_frame i c
      simp only [expansion_of_registerBytes hreg, Lcdc.receiveStream_inCommandSpace,
        Lcdc.receiveAll_registerBytes hk hp hc, Lcdc.receiveAll_registerBytes (hknown.trans hk) (hpending.trans hp) hc,
        registerEffect_idem]
    · cases i
      case draw => exact Lcdc.receiveStream_pagesStream_idem hok hk hp s.fbPage_length
      case flush => exact Lcdc.receiveStream_pagesStream_idem hok hk hp fun _ => List.length_replicate
      case reset => rfl
      case setDisplayMode | setDisplayColor | setContrast | setContrastDetail | setSleepMode | setPageAddress |
        setColumnAddress => exact absurd nofun hreg
      all_goals cases hs

/-- The statements of an operation depend on the framebuffer's bytes alone. -/
theorem runtimeScript_congr {s t : State} (hfb : t.seq.fb = s.seq.fb) (hno : t.env.instanceNo = s.env.instanceNo)
    (i : Instr) : runtimeScript t i = runtimeScript s i := by
  have hpages : t.fbPage = s.fbPage := by
    funext p
    rw [State.fbPage_eq, State.fbPage_eq, funext (State.fbByte_congr hfb hno)]
  cases i
  case draw | flush =>
    have hpage : pageScript t = pageScript s := by funext p; simp only [pageScript, hpages]
    simp only [runtimeScript, drawScript, hpage]
  all_goals rfl

/-- A framebuffer zeroed twice is zeroed once. -/
theorem scriptBase_idem {s t : State} (hwf : s.seq.fb.wf = true) {i : Instr}
    (hfb : t.seq.fb = (scriptBase s i).seq.fb) : (scriptBase t i).seq.fb = (scriptBase s i).seq.fb := by
  unfold scriptBase at hfb ⊢
  split
  · rename_i hi
    rw [if_pos hi, State.fbClear, State.fbWrite_seq] at hfb
    rw [State.fbClear, State.fbClear, State.fbWrite_seq, State.fbWrite_seq]
    dsimp only at hfb ⊢
    rw [hfb, Memory.putBytes_idem hwf]
  · rename_i hi
    rwa [if_neg hi] at hfb

/-- The whole trace of an operation that runs its script in this state. -/
def wholeTrace (s : State) (i : Instr) : List Event :=
  scriptTrace s.seq.binding.busConfig (runtimeScript (scriptBase s i) i)

/-- The state after an operation that returned OK. -/
theorem eq_of_exec_runtime_ok {i : Instr} (hs : isScripted i = true) (hr : i ≠ .reset) {s t : State}
    (h : exec i s = .next t) (hres : t.env.results = s.env.results ++ [.ok]) :
    operandCheck i = none ∧
    t = { seq := { s.seq with fb := (scriptBase s i).seq.fb, dc := levelAfter .dc s.seq.dc (wholeTrace s i) }
          lcdc := s.lcdc.receiveStream (expansion s i)
          env := s.env.extended (wholeTrace s i) .ok } := by
  have hl := ready_of_exec hs h
  cases hc : operandCheck i with
  | some cause =>
    rw [exec_eq_rejected hl ⟨cause, hc⟩] at h
    cases h
    simp [State.rejected, Env.extended] at hres
  | none =>
    rw [exec_runtime hs hr hl hc] at h
    cases h
    have hok : hasFailure (runtimeTrace s i) = false := resultOf_eq_ok_iff.1 (by simpa [Env.extended] using hres)
    have hwhole : runtimeTrace s i = wholeTrace s i := traceOf_of_hasFailure_eq_false hok
    rw [lcdcAfter_runtimeTrace_of_ok hs hr hc hok, resultOf_eq_ok_iff.2 hok, hwhole]
    exact ⟨rfl, rfl⟩

/-- Every operation but RESET drives DC before it sends, so DC before it does not matter. -/
theorem levelAfter_dc_wholeTrace {i : Instr} (hs : isScripted i = true) (hr : i ≠ .reset) (s : State) (l l' : Latch) :
    levelAfter .dc l (wholeTrace s i) = levelAfter .dc l' (wholeTrace s i) := by
  obtain ⟨rest, hrest⟩ := runtimeScript_eq_cons hs hr (scriptBase s i)
  rw [wholeTrace, hrest]
  rfl

/-- An operation that sends, repeated with success. -/
theorem exec_runtime_idem {i : Instr} (hs : isScripted i = true) (hr : i ≠ .reset) {s t u : State} (hinv : Inv s)
    (hidle : s.lcdc.lcdcKnown = true → s.lcdc.evPending = .known false) (h : exec i s = .next t)
    (hres : t.env.results = s.env.results ++ [.ok]) (h' : exec i t = .next u)
    (hres' : u.env.results = t.env.results ++ [.ok]) : u.seq = t.seq ∧ u.lcdc = t.lcdc := by
  obtain ⟨hc, ht⟩ := eq_of_exec_runtime_ok hs hr h hres
  obtain ⟨-, hu⟩ := eq_of_exec_runtime_ok hs hr h' hres'
  have hfb : t.seq.fb = (scriptBase s i).seq.fb := by rw [ht]
  have hbase : (scriptBase t i).seq.fb = (scriptBase s i).seq.fb := scriptBase_idem hinv.fb.1 hfb
  have hno : (scriptBase t i).env.instanceNo = (scriptBase s i).env.instanceNo := by
    rw [scriptBase_env, scriptBase_env, ht]
    rfl
  have hwhole : wholeTrace t i = wholeTrace s i := by
    rw [wholeTrace, wholeTrace, runtimeScript_congr hbase hno, ht]
  have hexp : expansion t i = expansion s i := by
    rw [← taggedStream_runtimeScript hs .x t.seq.binding.busConfig t, ← taggedStream_runtimeScript hs .x s.seq.binding.busConfig s]
    exact congrArg (taggedStream .x) hwhole
  have hlcdc : t.lcdc = s.lcdc.receiveStream (expansion s i) := by rw [ht]
  have hdc : t.seq.dc = levelAfter .dc s.seq.dc (wholeTrace s i) := by rw [ht]
  constructor
  · rw [hu, hbase, hwhole, levelAfter_dc_wholeTrace hs hr s t.seq.dc s.seq.dc, ← hfb, ← hdc]
  · rw [hu, hexp, hlcdc]
    exact Lcdc.receiveStream_expansion_idem (inv_iff.1 hinv).2 hidle hs hc s

/-- Settles O53: writes, pulses and transfers leave what they leave once; the other operations run once. -/
theorem runtimeOperationsAreIdempotent : Obligations.RuntimeOperationsAreIdempotent := by
  unfold Obligations.RuntimeOperationsAreIdempotent
  intro i s t u hinv hidle hi h hres h' hres'
  rcases exec_cases h with ⟨hb, _⟩ | ⟨rfl, _, _, rfl⟩ | ⟨rfl, _, rfl⟩ | ⟨_, _, rfl⟩ | ⟨hl, payload, rfl, hlen, rfl⟩ |
    ⟨hl, hs, _, _⟩
  · rw [hi] at hb
    cases hb
  · have hacc := acceptedIn_of_exec hi h'
    rw [constructEnd_parts] at hacc
    dsimp only at hacc
    split at hacc <;> cases hacc
  · have hacc := acceptedIn_of_exec hi h'
    rw [releaseEnd_eq] at hacc
    cases hacc
  · simp at hres
  · rw [exec_setPixelData (s := (s.fbWrite 0 payload).report .ok) hl hlen] at h'
    cases h'
    refine ⟨?_, rfl⟩
    show { s.seq with fb := (s.seq.fb.putBytes 0 payload).putBytes 0 payload } = _
    rw [Memory.putBytes_idem hinv.fb.1]
    rfl
  · by_cases hr : i = .reset
    · subst hr
      rw [exec_reset hl] at h
      cases h
      rw [exec_reset (by exact hl)] at h'
      cases h'
      exact ⟨rfl, rfl⟩
    · exact exec_runtime_idem hs hr hinv hidle h hres h' hres'

end Sys2Proof.Machine
end
